-- ==== Sys2Proof/Word.lean ====
section
/-! DEFINITION. The word types of the core: bytes of the buffer memory, 32-bit command and status words,
64-bit slot registers (spec rules R8, R31, R46). -/

namespace Sys2Proof

/-- One byte of the buffer memory `M` (rule R46). -/
abbrev Byte := BitVec 8

/-- A command word or a status word, `CWLEN = 32` bits (rules R8, R40, R41). -/
abbrev Word32 := BitVec 32

/-- A pointer or a length held by a slot register, `XLEN = 64` bits (rules R8, R32). -/
abbrev Word64 := BitVec 64

/-- A byte string, first byte first (rule R21). -/
abbrev Bytes := List Byte

end Sys2Proof
end

