-- ==== Sys2Proof/Config.lean ====
section
/-! DEFINITION. What is fixed for this hardware: the implementation parameters of rule R8, the numeric constants of
rules R11 to R20 (each `[from general knowledge, not in source]` in the spec, so each is a named constant that can be
replaced in one place), and the free values the spec leaves open. -/

namespace Sys2Proof.Config

/-! ### Widths (rule R8) -/

/-- `W_FR`: width of an Fr encoding in bytes. -/
def wFr : Nat := 32
/-- `W_FQ`: width of one base-field coordinate in bytes. -/
def wFq : Nat := 48
/-- `W_FQ2`: width of one extension-field coordinate in bytes. -/
def wFq2 : Nat := 96
/-- `W_G1`: width of a G1 encoding in bytes. -/
def wG1 : Nat := 97
/-- `W_G2`: width of a G2 encoding in bytes. -/
def wG2 : Nat := 193
/-- `W_BOOL`: width of the verdict buffer of PAIRING_CHECK in bytes. -/
def wBool : Nat := 1
/-- `W_COUNT`: width of a list's count prefix in bytes. -/
def wCount : Nat := 4
/-- `NBITS_R`: the bit length of `r`, which is the length of the fixed scalar walk (rules R11, R231). -/
def nbitsR : Nat := 253

/-! ### The curve (rules R11 to R20) -/

/-- The BLS parameter and the Miller loop count (rules R11, R267). -/
def xSeed : Nat := 0x8508C00000000001

/-- The order of G1, G2 and GT and the modulus of Fr (rule R11). -/
def r : Nat := 0x12AB655E9A2CA55660B44D1E5C37B00159AA76FED00000010A11800000000001

/-- The base-field prime (rule R12). -/
def p : Nat :=
  0x01AE3A4617C510EAC63B05C06CA1493B1A22D9F300F5138F1EF3622FBA094800170B5D44300000008508C00000000001

/-- The coefficient `b = 1` of `E : y^2 = x^3 + 1` (rule R13). -/
def bG1 : Nat := 1

/-- The cofactor of G1 in E(Fq) (rule R14). -/
def h1 : Nat := 0x170B5D44300000000000000000000000

/-- `G.x` (rule R15). -/
def gX : Nat :=
  0x008848DEFE740A67C8FC6225BF87FF5485951E2CAA9D41BB188282C8BD37CB5CD5481512FFCD394EEAB9B16EB21BE9EF
/-- `G.y` (rule R15). -/
def gY : Nat :=
  0x01914A69C5102EFF1F674F5D30AFEEC4BD7FB348CA3E52D96D182AD44FB82305C2FE3D3634A9591AFD82DE55559C8EA6

/-- `b'.c1 = -1/5 mod p`, the only non-zero component of the twist coefficient `b' = 1/u` (rule R17). -/
def bTwistC1 : Nat :=
  0x010222F6DB0FD6F343BD03737460C589DC7B4F91CD5FD889129207B63C6BF8000DD39E5C1CCCCCCD1C9ED9999999999A

/-- The cofactor of G2 in E'(Fq2) (rule R17). -/
def h2 : Nat :=
  0x26BA558AE9562ADDD88D99A6F6A829FBB36B00E1DCC40C8C505634FAE2E189D693E8C36676BD09A0F3622FBA094800452217CC900000000000000000000001

/-- `H.x.c0` (rule R18). -/
def hXc0 : Nat :=
  0x018480BE71C785FEC89630A2A3841D01C565F071203E50317EA501F557DB6B9B71889F52BB53540274E3E48F7C005196
/-- `H.x.c1` (rule R18). -/
def hXc1 : Nat :=
  0x00EA6040E700403170DC5A51B1B140D5532777EE6651CECBE7223ECE0799C9DE5CF89984BFF76FE6B26BFEFA6EA16AFE
/-- `H.y.c0` (rule R18). -/
def hYc0 : Nat :=
  0x00690D665D446F7BD960736BCBB2EFB4DE03ED7274B49A58E458C282F832D204F2CF88886D8C7C2EF094094409FD4DDF
/-- `H.y.c1` (rule R18). -/
def hYc1 : Nat :=
  0x00F8169FD28355189E549DA3151A70AA61EF11AC3D591BF12463B01ACEE304C24279B83F5E52270BD9A1CDD185EB8F93

/-- The final exponent `FE = (p^12 - 1) / r` (rule R20). -/
def finalExp : Nat := (p ^ 12 - 1) / r

/-! ### Platform of the reset state -/

/-- `NPORT` of `State.reset`: the default of rule R8. DESIGN CHOICE (safe; assumption 4): a state may have any number. -/
def nportDefault : Nat := 1

/-- First address of the `MAP` of `State.reset`: the platform of the vectors of `95_test_vectors.md`.
DESIGN CHOICE (unsafe; assumption 3): the spec leaves `MAP` open. -/
def mapDefaultBase : Nat := 0x1000
/-- Number of addresses of the `MAP` of `State.reset` (assumption 3). -/
def mapDefaultSize : Nat := 0x4000

/-- What an address of `M` that the memory list does not name reads as.
DESIGN CHOICE (unsafe; assumption 2): the content of `M` after power-on is unspecified (rules R31, R47). -/
def unlistedByte : Byte := 0

/-! ### Free values -/

/-- FREE VALUE (assumption 5): the byte at an address of `M` after the given reset.
Rule R360: "the content of `M` is unspecified after any reset".  It has no body, so nothing can be proved of it. -/
opaque freeByte : Nat → Nat → Byte

end Sys2Proof.Config
end

