-- ==== Sys2Proof/Syntax.lean ====
section
/-! DEFINITION. The commands (one constructor of `Instr` per row of `spec/opcode_table.json`, rule R100), the kinds of
buffers a slot can hold (rules R69, R101, R113), the assembler line of rule R120 and the pseudo-instructions of
rule R121. -/

namespace Sys2Proof

/-- The 18 commands of rule R100.  A command word carries no operand (rules R91, R103), so no constructor has one. -/
inductive Instr where
  | init                                        -- unit 0, system (rule R300)
  | frOne | frAdd | frSub | frMul | frInv | frNeg   -- unit 1, Fr (rules R154 to R159)
  | g1One | g1Add | g1Neg | g1Mul | g1Msm           -- unit 2, G1 (rules R181 to R183, R235, R245)
  | g2One | g2Add | g2Neg | g2Mul | g2Msm           -- unit 3, G2 (rules R211 to R213, R236, R246)
  | pairingCheck                                -- unit 4, pairing (rule R275)
  deriving DecidableEq, Repr

/-- The element kinds of fixed width (rules R26, R69). -/
inductive Kind where
  | fr | g1 | g2 | bool
  deriving DecidableEq, Repr

/-- What a command requires of one slot (rule R101): nothing, one element, or a count-prefixed list of pairs. -/
inductive SlotKind where
  | unused
  | fixed (k : Kind)
  | list (a b : Kind)
  deriving DecidableEq, Repr

/-- The kinds of the three slots of one command: a row of rule R101's table. -/
structure Operands where
  s0 : SlotKind
  s1 : SlotKind
  d  : SlotKind
  deriving DecidableEq, Repr

/-- A buffer as a call line names it: `[pointer, length]` (rule R120). -/
structure Buffer where
  ptr : Word64
  len : Word64
  deriving DecidableEq, Repr

/-- One assembler line, `MNEMONIC d=[DP, DL] s0=[S0P, S0L] s1=[S1P, S1L]` (rule R120). -/
structure CallLine where
  instr : Instr
  d     : Option Buffer
  s0    : Option Buffer
  s1    : Option Buffer
  deriving DecidableEq, Repr

/-- The pseudo-instructions of rule R121.  The empty list of `G1_ZERO` and `G2_ZERO` is a buffer that the host has
filled with the four bytes `00 00 00 00`. -/
inductive Pseudo where
  | g1Zero (d emptyList : Buffer)
  | g2Zero (d emptyList : Buffer)
  | g1Dbl (d a : Buffer)
  | g2Dbl (d a : Buffer)
  deriving DecidableEq, Repr

/-- All commands, in the order of rule R100's table. -/
def Instr.all : List Instr :=
  [.init, .frOne, .frAdd, .frSub, .frMul, .frInv, .frNeg, .g1One, .g1Add, .g1Neg, .g1Mul, .g1Msm,
   .g2One, .g2Add, .g2Neg, .g2Mul, .g2Msm, .pairingCheck]

end Sys2Proof
end

