-- ==== Sys2Proof/Machine/Operands.lean ====
section
/-! DEFINITION. Operand forms: widths and strides of the kinds (rules R69, R113), which slots a command uses and with
which kind (rule R101), the length test of call step 4 (rules R292, R294) and the expansion of call lines and
pseudo-instructions (rules R120, R121). -/

namespace Sys2Proof.Machine

/-- `W_K`, the width of a fixed kind in bytes (rules R8, R69). -/
def kindWidth : Kind → Nat
  | .fr => Config.wFr
  | .g1 => Config.wG1
  | .g2 => Config.wG2
  | .bool => Config.wBool

/-- The stride of a list's entries (rules R112, R113). -/
def stride (a b : Kind) : Nat := kindWidth a + kindWidth b

/-- The row of rule R101's table for each command. -/
def operandsOf : Instr → Operands
  | .init => ⟨.unused, .unused, .unused⟩
  | .frOne => ⟨.unused, .unused, .fixed .fr⟩
  | .frAdd => ⟨.fixed .fr, .fixed .fr, .fixed .fr⟩
  | .frSub => ⟨.fixed .fr, .fixed .fr, .fixed .fr⟩
  | .frMul => ⟨.fixed .fr, .fixed .fr, .fixed .fr⟩
  | .frInv => ⟨.fixed .fr, .unused, .fixed .fr⟩
  | .frNeg => ⟨.fixed .fr, .unused, .fixed .fr⟩
  | .g1One => ⟨.unused, .unused, .fixed .g1⟩
  | .g1Add => ⟨.fixed .g1, .fixed .g1, .fixed .g1⟩
  | .g1Neg => ⟨.fixed .g1, .unused, .fixed .g1⟩
  | .g1Mul => ⟨.fixed .g1, .fixed .fr, .fixed .g1⟩
  | .g1Msm => ⟨.list .g1 .fr, .unused, .fixed .g1⟩
  | .g2One => ⟨.unused, .unused, .fixed .g2⟩
  | .g2Add => ⟨.fixed .g2, .fixed .g2, .fixed .g2⟩
  | .g2Neg => ⟨.fixed .g2, .unused, .fixed .g2⟩
  | .g2Mul => ⟨.fixed .g2, .fixed .fr, .fixed .g2⟩
  | .g2Msm => ⟨.list .g2 .fr, .unused, .fixed .g2⟩
  | .pairingCheck => ⟨.list .g1 .g2, .list .g1 .g2, .fixed .bool⟩

/-- Whether a command uses a slot of this kind (rule R101). -/
def slotUsed : SlotKind → Bool
  | .unused => false
  | .fixed _ => true
  | .list _ _ => true

/-- Step 4 of the call for one slot (rules R292, R294): a fixed kind needs exactly its width, a list at least the
four bytes of its count, an unused slot is not tested. -/
def lengthOk (k : SlotKind) (len : Nat) : Bool :=
  match k with
  | .unused => true
  | .fixed k => len == kindWidth k
  | .list _ _ => Config.wCount ≤ len

/-- The command and buffers a pseudo-instruction stands for (rule R121). -/
def expandPseudo : Pseudo → CallLine
  | .g1Zero d e => ⟨.g1Msm, some d, some e, none⟩
  | .g2Zero d e => ⟨.g2Msm, some d, some e, none⟩
  | .g1Dbl d a => ⟨.g1Add, some d, some a, some a⟩
  | .g2Dbl d a => ⟨.g2Add, some d, some a, some a⟩

end Sys2Proof.Machine
end

