-- ==== Sys2Proof/WellFormed.lean ====
section
/-! DEFINITION. Well-formedness.  A command has no operand of its own (rule R103), so every `Instr` is well formed; what
can be ill formed is a command WORD (rule R102) and a call LINE (rule R120, which gives "only the slots the command
uses"). -/

namespace Sys2Proof

/-- Every command is well formed: "the operands are always the slots" (rules R91, R103). -/
def Instr.wellFormed (_ : Instr) : Bool := true

/-- `CW[31:8] = 0` (rule R102). -/
def reservedZero (w : Word32) : Bool := w.extractLsb' 8 24 == 0

/-- `CW[7:0]` is one of the 18 opcodes of rule R100, listed unit by unit. -/
def opcodeAssigned (w : Word32) : Bool :=
  [0x00, 0x10, 0x11, 0x12, 0x13, 0x14, 0x15, 0x20, 0x21, 0x22, 0x23, 0x24,
   0x30, 0x31, 0x32, 0x33, 0x34, 0x40].contains (w.extractLsb' 0 8).toNat

/-- A legal command word (rule R102). -/
def legalWord (w : Word32) : Bool := reservedZero w && opcodeAssigned w

/-- A call line names slot S0 exactly when the command uses it (rules R101, R120). -/
def CallLine.s0Ok (l : CallLine) : Bool := l.s0.isSome == Machine.slotUsed (Machine.operandsOf l.instr).s0
/-- A call line names slot S1 exactly when the command uses it (rules R101, R120). -/
def CallLine.s1Ok (l : CallLine) : Bool := l.s1.isSome == Machine.slotUsed (Machine.operandsOf l.instr).s1
/-- A call line names slot D exactly when the command uses it (rules R101, R120). -/
def CallLine.dOk (l : CallLine) : Bool := l.d.isSome == Machine.slotUsed (Machine.operandsOf l.instr).d

/-- A well-formed call line (rule R120). -/
def CallLine.wellFormed (l : CallLine) : Bool := l.s0Ok && l.s1Ok && l.dOk

end Sys2Proof
end

