-- ==== Sys2Proof/Decode.lean ====
section
/-! DEFINITION. The decoder of command words, total on all 2^32 words (rules R91, R100, R102), and the encoder.  There is
one format, `C`, of 32 bits; no word is a hint and none executes as another command. -/

namespace Sys2Proof

/-- Why a word is illegal (rule R102).  All three are the one error kind `IllegalCommand` at the machine's level. -/
inductive IllegalReason where
  | reservedBits        -- `CW[31:8]` is not zero
  | unassignedUnit      -- units 5 to 15
  | unassignedFunction  -- an unassigned function of an assigned unit
  deriving DecidableEq, Repr

/-- `RSV = CW[31:8]` (rule R91). -/
def fieldRsv (w : Word32) : BitVec 24 := w.extractLsb' 8 24
/-- `UNIT = CW[7:4]` (rule R91). -/
def fieldUnit (w : Word32) : BitVec 4 := w.extractLsb' 4 4
/-- `FN = CW[3:0]` (rule R91). -/
def fieldFn (w : Word32) : BitVec 4 := w.extractLsb' 0 4

/-- The command of an engine and a function number (rule R100). -/
def decodeUnitFn (unit fn : Nat) : Except IllegalReason Instr :=
  match unit with
  | 0 => match fn with
    | 0 => .ok .init
    | _ => .error .unassignedFunction
  | 1 => match fn with
    | 0 => .ok .frOne
    | 1 => .ok .frAdd
    | 2 => .ok .frSub
    | 3 => .ok .frMul
    | 4 => .ok .frInv
    | 5 => .ok .frNeg
    | _ => .error .unassignedFunction
  | 2 => match fn with
    | 0 => .ok .g1One
    | 1 => .ok .g1Add
    | 2 => .ok .g1Neg
    | 3 => .ok .g1Mul
    | 4 => .ok .g1Msm
    | _ => .error .unassignedFunction
  | 3 => match fn with
    | 0 => .ok .g2One
    | 1 => .ok .g2Add
    | 2 => .ok .g2Neg
    | 3 => .ok .g2Mul
    | 4 => .ok .g2Msm
    | _ => .error .unassignedFunction
  | 4 => match fn with
    | 0 => .ok .pairingCheck
    | _ => .error .unassignedFunction
  | _ => .error .unassignedUnit

/-- The decoder (rule R102): the reserved bits are tested first, then unit and function. -/
def decode (w : Word32) : Except IllegalReason Instr :=
  if fieldRsv w = 0 then decodeUnitFn (fieldUnit w).toNat (fieldFn w).toNat else .error .reservedBits

/-- `(UNIT, FN)` of a command (rule R100). -/
def unitFn : Instr → BitVec 4 × BitVec 4
  | .init => (0, 0)
  | .frOne => (1, 0)
  | .frAdd => (1, 1)
  | .frSub => (1, 2)
  | .frMul => (1, 3)
  | .frInv => (1, 4)
  | .frNeg => (1, 5)
  | .g1One => (2, 0)
  | .g1Add => (2, 1)
  | .g1Neg => (2, 2)
  | .g1Mul => (2, 3)
  | .g1Msm => (2, 4)
  | .g2One => (3, 0)
  | .g2Add => (3, 1)
  | .g2Neg => (3, 2)
  | .g2Mul => (3, 3)
  | .g2Msm => (3, 4)
  | .pairingCheck => (4, 0)

/-- The command word of a command: `RSV = 0`, then `UNIT`, then `FN` (rule R91). -/
def encode (i : Instr) : Word32 := (0 : BitVec 24) ++ (unitFn i).1 ++ (unitFn i).2

/-- The decoder on a row of `spec/opcode_table.json`: a command is one 32-bit word (rule R90), bit 0 its least
significant bit, and the bits above `nbits` are zero. -/
def decodeTableWord (nbits w : Nat) : Option Instr :=
  if nbits ≤ 32 then (decode (BitVec.ofNat 32 (w % 2 ^ nbits))).toOption else none

end Sys2Proof
end

