-- ==== Sys2Proof/Machine/State.lean ====
section
/-! DEFINITION. The state of the machine as plain data (rules R30 to R50): command ports, the shared initialisation bit,
`TABLES`, the buffer memory, and the model's own fields (the host's pending actions, the port of the current call, the
count of resets); the reasons to stop; and the state after reset. -/

namespace Sys2Proof.Machine

/-! ### Elements -/

/-- An element `c0 + c1*u` of Fq2, `u^2 = -5` (rules R16, R200). -/
structure Fq2 where
  c0 : Nat
  c1 : Nat
  deriving DecidableEq, Repr

/-- An element `a0 + a1*w + ... + a5*w^5` of Fq12, `w^6 = u` (rules R19, R264). -/
structure Fq12 where
  a0 : Fq2
  a1 : Fq2
  a2 : Fq2
  a3 : Fq2
  a4 : Fq2
  a5 : Fq2
  deriving DecidableEq, Repr

/-- A point of a curve over F: the identity `O` or an affine pair (rule R24). -/
inductive Point (F : Type) where
  | infinity
  | affine (x y : F)
  deriving DecidableEq, Repr

/-- `TABLES`, the "precomputed curve/pairing parameter tables" that INIT creates and every engine reads
(rules R31, R43, R304). -/
structure Tables where
  r        : Nat
  p        : Nat
  xSeed    : Nat
  finalExp : Nat
  bG1      : Nat
  bG2      : Fq2
  genG1    : Point Nat
  genG2    : Point Fq2
  deriving DecidableEq, Repr

/-! ### Reasons -/

/-- The error taxonomy of rule R321.  A kind lives at engine level only: `fail` drops it (rules R298, R325), and it is
stored in no register (rule R324). -/
inductive ErrorKind where
  | uninitialized    -- 1: a legal command other than INIT while `INIT_DONE = 0`
  | invalidLength    -- 2: a buffer size mismatch
  | outOfRange       -- 3: an Fr value `>= r`, or a coordinate `>= p`
  | notOnCurve       -- 4: the curve equation, the flag byte, or a non-canonical identity
  | notInSubgroup    -- 5: on the curve with `r * P != O`
  | internalFailure  -- 6: a violated internal invariant; unreachable (rule R328)
  | illegalCommand   -- 7: not a legal command word
  | badAddress       -- 8: a used buffer that is not admitted
  | notInvertible    -- 9: FR_INV of 0
  deriving DecidableEq, Repr

/-- The reasons a step can stop.  No COMMAND raises one in a state whose call port exists: a failing call is a next state
with `OK = 0` (rules R302, R320).  Both say that the HOST did something this platform has no place for. -/
inductive Fault where
  /-- Raised by a host action that names a port the platform does not have (ports are numbered 0 to `NPORT - 1`, rule R343),
  and by `exec` in a state whose `callPort` is no port.  Safe: the model stops where nothing is said to happen. -/
  | noSuchPort
  /-- Raised by a host action on an address outside `MAP` (the domain of `M`, rule R47).  Safe: the model stops where the
  spec says that no byte exists. -/
  | noSuchAddress
  deriving DecidableEq, Repr

/-- The refusals. -/
inductive Refusal where
  /-- Raised by an arm of `exec` whose command has no meaning yet; no arm does.  Safe. -/
  | notModelled (mnemonic : String)
  deriving DecidableEq, Repr

/-! ### Registers and memory -/

/-- The six slot registers of a port (rule R32). -/
inductive Slot where
  | s0p | s0l | s1p | s1l | dp | dl
  deriving DecidableEq, Repr

/-- The eight registers of a port block (rules R32, R40, R41, R46). -/
inductive PortReg where
  | cw
  | status
  | slot (x : Slot)
  deriving DecidableEq, Repr

/-- One command port (rules R31, R343).  `STATUS` is not stored whole: its `OK` bit is the port's, its `INIT` bit mirrors
the shared bit and the rest reads as 0 (rule R41). -/
structure Port where
  cw  : Word32
  ok  : Bool
  s0p : Word64
  s0l : Word64
  s1p : Word64
  s1l : Word64
  dp  : Word64
  dl  : Word64
  deriving DecidableEq, Repr

/-- A port after reset (rule R50). -/
def Port.reset : Port := ⟨0, false, 0, 0, 0, 0, 0, 0⟩

/-- A run of `size` byte addresses from `base`; `MAP` is a union of such runs. -/
structure Region where
  base : Nat
  size : Nat
  deriving DecidableEq, Repr

/-- The buffer memory `M` (rules R46, R47): address and byte pairs. -/
abbrev Memory := List Host.Cell

/-- The canonical form: addresses strictly rising, and no entry equal to what an unlisted address reads as. -/
abbrev Memory.wf (m : Memory) : Prop :=
  m.Pairwise (fun a b => a.1 < b.1) ∧ ∀ c ∈ m, c.2 ≠ Config.unlistedByte

/-- What the host can do to the machine (rules R30, R302, R360): write and read the registers of a port, write and read a
byte of `M`, reset the core. -/
inductive HostAction where
  | writeCw (port : Nat) (w : Word32)
  | writeStatus (port : Nat) (w : Word32)
  | writeSlot (port : Nat) (x : Slot) (v : Word64)
  | readReg (port : Nat) (reg : PortReg)
  | storeByte (addr : Nat) (b : Byte)
  | loadByte (addr : Nat)
  | reset
  deriving DecidableEq, Repr

/-- The state.  `map` and the length of `ports` are the platform parameters `MAP` and `NPORT` (rule R8): no step changes
them.  `pending`, `callPort` and `resets` are the model's own. -/
structure State where
  /-- `INIT_DONE`, shared by all ports (rule R42). -/
  initDone : Bool
  /-- `TABLES`; no value until INIT (rule R43). -/
  tables : Option Tables
  /-- The command ports, number 0 first (rules R31, R343). -/
  ports : List Port
  /-- The buffer memory `M`. -/
  mem : Memory
  /-- `MAP`: the addresses of `M` that exist (rules R8, R72). -/
  map : List Region
  /-- MODEL'S OWN (assumption 1): the port whose `CW` was written last, on which `exec` runs its call. -/
  callPort : Nat
  /-- MODEL'S OWN (assumption 1): what the hosts are going to do, in the one total order of rule R75. -/
  pending : List HostAction
  /-- MODEL'S OWN (assumption 5): how many resets have happened; it picks the free content of `M` after each. -/
  resets : Nat
  deriving DecidableEq, Repr

/-- The state after reset on a platform with `nport` ports and the given `MAP`, whatever `M` holds (rules R50, R361). -/
def State.resetOn (nport : Nat) (map : List Region) (mem : Memory) : State where
  initDone := false
  tables := none
  ports := List.replicate nport Port.reset
  mem := mem
  map := map
  callPort := 0
  pending := []
  resets := 0

/-- The state right after power-on reset (rules R50, R361), on the platform of the vectors of `95_test_vectors.md`
(`NPORT = 1`, `MAP` from 0x1000 to 0x4FFF) with nothing listed in `M` (assumptions 2, 3 and 4). -/
def State.reset : State :=
  State.resetOn Config.nportDefault [⟨Config.mapDefaultBase, Config.mapDefaultSize⟩] []

end Sys2Proof.Machine
end

