-- ==== Sys2Proof/Machine/Field.lean ====
section
/-! DEFINITION. The fields of the core: integers modulo r (rules R150, R151) and modulo p (rule R170), and the quadratic
extension Fq2 (rules R16, R200).  Every operation computes on unbounded integers and reduces once. -/

namespace Sys2Proof.Machine

/-! ### Integers modulo m -/

/-- `(a + b) mod m`. -/
def addMod (m a b : Nat) : Nat := (a + b) % m

/-- `(a - b) mod m`, the least non-negative residue. -/
def subMod (m a b : Nat) : Nat := (a + (m - b % m)) % m

/-- `(a * b) mod m`. -/
def mulMod (m a b : Nat) : Nat := (a * b) % m

/-- `(m - a) mod m`: 0 for 0, never `m` (rules R159, R173). -/
def negMod (m a : Nat) : Nat := (m - a % m) % m

/-- Square-and-multiply on `n` bits of `e`, least significant first: `acc * a^e mod m`. -/
def powModBits (m : Nat) : Nat → Nat → Nat → Nat → Nat
  | 0, _, _, acc => acc
  | n + 1, a, e, acc => powModBits m n (a * a % m) (e / 2) (if e % 2 = 1 then acc * a % m else acc)

/-- `a^e mod m`. -/
def powMod (m a e : Nat) : Nat := powModBits m (e.log2 + 1) (a % m) e (1 % m)

/-- The inverse modulo a prime `m`, as `a^(m-2) mod m` (rules R158, R170). -/
def invMod (m a : Nat) : Nat := powMod m a (m - 2)

/-! ### A field as a record of operations

The group law of rule R176 is stated once over a field F and used over Fq and Fq2. -/

/-- The operations of a field F that the curve formulas use. -/
structure FieldOps (F : Type) where
  zero  : F
  small : Nat → F
  add   : F → F → F
  sub   : F → F → F
  mul   : F → F → F
  neg   : F → F
  inv   : F → F

/-- Fq (rule R170): integers in `[0, p)`. -/
def fqOps (p : Nat) : FieldOps Nat where
  zero := 0
  small k := k % p
  add := addMod p
  sub := subMod p
  mul := mulMod p
  neg := negMod p
  inv := invMod p

/-! ### Fq2 -/

/-- `(a0,a1) + (b0,b1)` (rule R16). -/
def fq2Add (p : Nat) (a b : Fq2) : Fq2 := ⟨addMod p a.c0 b.c0, addMod p a.c1 b.c1⟩

/-- `(a0,a1) - (b0,b1)`. -/
def fq2Sub (p : Nat) (a b : Fq2) : Fq2 := ⟨subMod p a.c0 b.c0, subMod p a.c1 b.c1⟩

/-- `(a0,a1) * (b0,b1) = (a0*b0 - 5*a1*b1, a0*b1 + a1*b0)` (rule R16). -/
def fq2Mul (p : Nat) (a b : Fq2) : Fq2 :=
  ⟨subMod p (a.c0 * b.c0) (5 * (a.c1 * b.c1)), addMod p (a.c0 * b.c1) (a.c1 * b.c0)⟩

/-- `-(a0,a1)` (rule R200). -/
def fq2Neg (p : Nat) (a : Fq2) : Fq2 := ⟨negMod p a.c0, negMod p a.c1⟩

/-- `(a0,a1)^-1 = (a0*n, -a1*n)` with `n = (a0^2 + 5*a1^2)^-1` in Fq (rule R16). -/
def fq2Inv (p : Nat) (a : Fq2) : Fq2 :=
  let n := invMod p ((a.c0 * a.c0 + 5 * (a.c1 * a.c1)) % p)
  ⟨mulMod p a.c0 n, negMod p (mulMod p a.c1 n)⟩

/-- Fq2 (rules R16, R200); the small constants are `(k, 0)`. -/
def fq2Ops (p : Nat) : FieldOps Fq2 where
  zero := ⟨0, 0⟩
  small k := ⟨k % p, 0⟩
  add := fq2Add p
  sub := fq2Sub p
  mul := fq2Mul p
  neg := fq2Neg p
  inv := fq2Inv p

/-- Multiplication by u: `x * u = (-5 * x.c1, x.c0)` (rule R264). -/
def fq2MulU (p : Nat) (a : Fq2) : Fq2 := ⟨negMod p (5 * a.c1), a.c0⟩

/-- Multiplication of both components by an Fq element (rule R266). -/
def fq2Scale (p : Nat) (a : Fq2) (k : Nat) : Fq2 := ⟨mulMod p a.c0 k, mulMod p a.c1 k⟩

/-! ### The one value of TABLES -/

/-- The value INIT gives `TABLES`: the constants of rules R11 to R20 (rule R43). -/
def curveTables : Tables where
  r := Config.r
  p := Config.p
  xSeed := Config.xSeed
  finalExp := Config.finalExp
  bG1 := Config.bG1
  bG2 := ⟨0, Config.bTwistC1⟩
  genG1 := .affine Config.gX Config.gY
  genG2 := .affine ⟨Config.hXc0, Config.hXc1⟩ ⟨Config.hYc0, Config.hYc1⟩

end Sys2Proof.Machine
end

