-- ==== Sys2Proof/Machine/Flags.lean ====
section
/-! DEFINITION. The one flag of the core, `STATUS.OK`, and the `STATUS` word (rules R38, R41). -/

namespace Sys2Proof.Machine

/-- `STATUS` as it is read: bit 0 `OK`, bit 1 `INIT` (the shared bit), bits 31:2 zero (rule R41). -/
def statusWord (ok initDone : Bool) : Word32 :=
  (0 : BitVec 30) ++ BitVec.ofBool initDone ++ BitVec.ofBool ok

/-- `port.STATUS.OK <- b`. -/
def withOk (b : Bool) (pt : Port) : Port := { pt with ok := b }

/-- `STATUS.OK <- b` on the port of the current call, and nothing else (rules R38, R297). -/
def setOk (b : Bool) (s : State) : State := { s with ports := s.ports.modify s.callPort (withOk b) }

end Sys2Proof.Machine
end

