-- ==== Sys2Proof/Machine/Ops.lean ====
section
/-! DEFINITION. The named operations over memory and registers (rules R60 to R64), the core's one exception
(`failCall`, rules R297, R320, R332) with the success beside it (rule R296), and the call algorithm of rule R292 that
every command but INIT runs. -/

namespace Sys2Proof.Machine

/-- What a command, and a step, answers. -/
abbrev Outcome := Host.Outcome State Fault Refusal

/-! ### Bytes of the buffer memory -/

/-- `M[a]`. -/
def Memory.read : Memory → Nat → Byte
  | [], _ => Config.unlistedByte
  | (k, v) :: rest, a => if k = a then v else Memory.read rest a

/-- `M[a] <- b`, keeping the canonical form. -/
def Memory.write : Memory → Nat → Byte → Memory
  | [], a, b => if b = Config.unlistedByte then [] else [(a, b)]
  | (k, v) :: rest, a, b =>
    if k < a then (k, v) :: Memory.write rest a b
    else
      let tail := if k = a then rest else (k, v) :: rest
      if b = Config.unlistedByte then tail else (a, b) :: tail

/-- `MemRead(P, L)` (rule R62): the bytes at `P .. P+L-1`, lowest address first. -/
def memRead (m : Memory) (ptr len : Nat) : Bytes :=
  (List.range len).map fun i => m.read (ptr + i)

/-- `MemWrite(P, L, v)` (rule R63): byte `i` of `v` goes to `P + i`. -/
def memWrite (m : Memory) (ptr : Nat) : Bytes → Memory
  | [] => m
  | b :: bs => memWrite (m.write ptr b) (ptr + 1) bs

/-- `a` is in `MAP`. -/
def inMap (map : List Region) (a : Nat) : Bool :=
  map.any fun g => g.base ≤ a && a < g.base + g.size

/-- Every address `ptr .. ptr+len-1` is in `MAP`. -/
def allInMap (map : List Region) : Nat → Nat → Bool
  | _, 0 => true
  | ptr, n + 1 => inMap map ptr && allInMap map (ptr + 1) n

/-- A buffer `(P, L)` is admitted (rule R61): it does not pass 2^64, never wrapping (rules R33, R64), and it lies in
`MAP` whole.  A buffer of length 0 is admitted at any pointer. -/
def admitted (map : List Region) (ptr len : Nat) : Bool :=
  ptr + len ≤ 2 ^ 64 && allInMap map ptr len

/-- The free bytes of one region after reset number `n`. -/
def freeRegion (n : Nat) (m : Memory) (base : Nat) : Nat → Memory
  | 0 => m
  | k + 1 => freeRegion n (m.write base (Config.freeByte n base)) (base + 1) k

/-- The content of `M` after reset number `n`: a free byte at every address of `MAP` (rule R360; assumption 5). -/
def unspecifiedMemory (map : List Region) (n : Nat) : Memory :=
  map.foldl (fun m g => freeRegion n m g.base g.size) []

/-! ### Registers of a port -/

/-- The value of a slot register (rule R32). -/
def readSlot (pt : Port) : Slot → Word64
  | .s0p => pt.s0p
  | .s0l => pt.s0l
  | .s1p => pt.s1p
  | .s1l => pt.s1l
  | .dp => pt.dp
  | .dl => pt.dl

/-- Write a slot register (rule R32). -/
def writeSlot (x : Slot) (v : Word64) (pt : Port) : Port :=
  match x with
  | .s0p => { pt with s0p := v }
  | .s0l => { pt with s0l := v }
  | .s1p => { pt with s1p := v }
  | .s1l => { pt with s1l := v }
  | .dp => { pt with dp := v }
  | .dl => { pt with dl := v }

/-- What a host read of a register returns (rules R32, R40, R41), the 32-bit registers extended with zeros. -/
def readReg (s : State) (pt : Port) : PortReg → Word64
  | .cw => pt.cw.setWidth 64
  | .status => (statusWord pt.ok s.initDone).setWidth 64
  | .slot x => readSlot pt x

/-- The index of a register within its port block (rules R32, R40, R41, R44). -/
def regIndex : PortReg → Nat
  | .cw => 0
  | .status => 1
  | .slot .s0p => 2
  | .slot .s0l => 3
  | .slot .s1p => 4
  | .slot .s1l => 5
  | .slot .dp => 6
  | .slot .dl => 7

/-- The byte offset of a register within its port block; informative (rules R32, R40, R41, R44). -/
def regOffset : PortReg → Nat
  | .cw => 0x00
  | .status => 0x04
  | .slot .s0p => 0x08
  | .slot .s0l => 0x10
  | .slot .s1p => 0x18
  | .slot .s1l => 0x20
  | .slot .dp => 0x28
  | .slot .dl => 0x30

/-! ### The two ends of a call -/

/-- The code of an error kind, for engine-level results only (rule R321). -/
def errorCode : ErrorKind → Nat
  | .uninitialized => 1
  | .invalidLength => 2
  | .outOfRange => 3
  | .notOnCurve => 4
  | .notInSubgroup => 5
  | .internalFailure => 6
  | .illegalCommand => 7
  | .badAddress => 8
  | .notInvertible => 9

/-- The code of an engine-level result (rule R321's table): 0 when the call succeeded, else the code of the kind. -/
def resultCode {α : Type} : Except ErrorKind α → Nat
  | .ok _ => 0
  | .error k => errorCode k

/-- `fail(kind)`: TAKING THE CORE'S ONE EXCEPTION (rules R292, R297, R298, R320, R332).  It saves nothing and transfers
control nowhere: `STATUS.OK <- 0` on the calling port, the kind is dropped, nothing else changes.  There is no return from
it (rule R333): the port takes its next command word at once. -/
def failCall (_kind : ErrorKind) (s : State) : Outcome := .next (setOk false s)

/-- The end of a successful call with a destination (rule R292 step 9, rule R296): the encoded result goes to the
destination buffer, then `STATUS.OK <- 1`. -/
def succeedCall (ptr : Nat) (bytes : Bytes) (s : State) : Outcome :=
  .next (setOk true { s with mem := memWrite s.mem ptr bytes })

/-! ### The call algorithm (rule R292) -/

/-- Step 4: the lengths of the used slots, in the order S0, S1, D. -/
def lengthsOk (ops : Operands) (pt : Port) : Bool :=
  lengthOk ops.s0 pt.s0l.toNat && lengthOk ops.s1 pt.s1l.toNat && lengthOk ops.d pt.dl.toNat

/-- Step 5 for one slot: a used buffer must be admitted. -/
def addressOk (map : List Region) (k : SlotKind) (ptr len : Nat) : Bool :=
  !slotUsed k || admitted map ptr len

/-- Step 5: the buffers of the used slots, in the order S0, S1, D. -/
def addressesOk (ops : Operands) (map : List Region) (pt : Port) : Bool :=
  addressOk map ops.s0 pt.s0p.toNat pt.s0l.toNat && addressOk map ops.s1 pt.s1p.toNat pt.s1l.toNat &&
    addressOk map ops.d pt.dp.toNat pt.dl.toNat

/-- Step 6 for one slot: the whole source buffer if the slot is used, nothing otherwise. -/
def sourceBytes (m : Memory) (k : SlotKind) (ptr len : Nat) : Bytes :=
  if slotUsed k then memRead m ptr len else []

/-- Steps 3 to 5: initialised, lengths, addresses. -/
def precheck (ops : Operands) (s : State) (pt : Port) : Except ErrorKind Unit :=
  if s.initDone = false then .error .uninitialized
  else if lengthsOk ops pt = false then .error .invalidLength
  else if addressesOk ops s.map pt = false then .error .badAddress
  else .ok ()

/-- Steps 7 to 9 of a command at engine level: from `TABLES` and the bytes of the two sources to the bytes of the result
or an error kind (rule R325). -/
abbrev Engine := Option Tables → Bytes → Bytes → Except ErrorKind Bytes

/-- The engine-level result of a call: "success-with-value vs. failure-with-kind" (rules R298, R325). -/
def callResult (ops : Operands) (engine : Engine) (s : State) (pt : Port) : Except ErrorKind Bytes :=
  match precheck ops s pt with
  | .error k => .error k
  | .ok _ => engine s.tables (sourceBytes s.mem ops.s0 pt.s0p.toNat pt.s0l.toNat)
      (sourceBytes s.mem ops.s1 pt.s1p.toNat pt.s1l.toNat)

/-- The call of a command other than INIT on the current port (rule R292 steps 3 to 9): the adapter, the single place
where error kinds collapse into the boolean (rule R298). -/
def runCall (ops : Operands) (engine : Engine) (s : State) : Outcome :=
  match s.ports[s.callPort]? with
  | none => .fault .noSuchPort
  | some pt =>
    match callResult ops engine s pt with
    | .error k => failCall k s
    | .ok bytes => succeedCall pt.dp.toNat bytes s

/-! ### Engines from a decoder, a function and an encoder (rule R290)

The codec decodes against the constants themselves (rule R43: a model "may take the constants as definitions"); the
command's function reads `TABLES`. -/

/-- Step 8 and the encoding of step 9.  Once initialised the tables are there (rule R303); a state where they are not is a
violated internal invariant (rules R321, R328). -/
def computeResult {γ : Type} (enc : γ → Bytes) (f : Tables → Except ErrorKind γ) : Option Tables → Except ErrorKind Bytes
  | none => .error .internalFailure
  | some T => (f T).map enc

/-- A command without a source. -/
def engine0 {γ : Type} (enc : γ → Bytes) (f : Tables → γ) : Engine :=
  fun tables _ _ => computeResult enc (fun T => .ok (f T)) tables

/-- A command with one source: decode S0, compute, encode. -/
def engine1 {α γ : Type} (dec : Tables → Bytes → Except ErrorKind α) (enc : γ → Bytes)
    (f : Tables → α → Except ErrorKind γ) : Engine :=
  fun tables b0 _ =>
    match dec curveTables b0 with
    | .error k => .error k
    | .ok a => computeResult enc (fun T => f T a) tables

/-- A command with two sources: decode S0, then S1, compute, encode (rule R292 step 7: S0 before S1). -/
def engine2 {α β γ : Type} (decA : Tables → Bytes → Except ErrorKind α) (decB : Tables → Bytes → Except ErrorKind β)
    (enc : γ → Bytes) (f : Tables → α → β → Except ErrorKind γ) : Engine :=
  fun tables b0 b1 =>
    match decA curveTables b0 with
    | .error k => .error k
    | .ok a =>
      match decB curveTables b1 with
      | .error k => .error k
      | .ok b => computeResult enc (fun T => f T a b) tables

end Sys2Proof.Machine
end

