-- ==== Sys2Proof/Machine/Curve.lean ====
section
/-! DEFINITION. The group law of `y^2 = x^3 + b` over a field F, stated once and used for G1 (F = Fq, rules R170 to R178)
and G2 (F = Fq2, rules R200 to R207), and the complete projective addition of rule R180 as a reference datapath. -/

namespace Sys2Proof.Machine

/-- `-O = O`, `-(x, y) = (x, -y)` (rules R173, R204). -/
def pointNeg {F : Type} (K : FieldOps F) : Point F → Point F
  | .infinity => .infinity
  | .affine x y => .affine x (K.neg y)

/-- The third point of a line of slope `lam` through `(x1, y1)` and a point with abscissa `x2`, negated (rule R176):
`x3 = lam^2 - x1 - x2`, `y3 = lam * (x1 - x3) - y1`. -/
def pointOfSlope {F : Type} (K : FieldOps F) (lam x1 y1 x2 : F) : F × F :=
  let x3 := K.sub (K.sub (K.mul lam lam) x1) x2
  (x3, K.sub (K.mul lam (K.sub x1 x3)) y1)

/-- The tangent's slope, `3 * x1^2 / (2 * y1)` (rule R176). -/
def slopeTangent {F : Type} (K : FieldOps F) (x1 y1 : F) : F :=
  K.mul (K.mul (K.small 3) (K.mul x1 x1)) (K.inv (K.mul (K.small 2) y1))

/-- The chord's slope, `(y2 - y1) / (x2 - x1)` (rule R176). -/
def slopeChord {F : Type} (K : FieldOps F) (x1 y1 x2 y2 : F) : F :=
  K.mul (K.sub y2 y1) (K.inv (K.sub x2 x1))

/-- `P + Q`, the chord-and-tangent law on all points of the curve (rules R176, R206). -/
def pointAdd {F : Type} [DecidableEq F] (K : FieldOps F) : Point F → Point F → Point F
  | .infinity, Q => Q
  | .affine x1 y1, .infinity => .affine x1 y1
  | .affine x1 y1, .affine x2 y2 =>
    if x1 = x2 then
      if K.add y1 y2 = K.zero then .infinity
      else
        let t := pointOfSlope K (slopeTangent K x1 y1) x1 y1 x2
        .affine t.1 t.2
    else
      let t := pointOfSlope K (slopeChord K x1 y1 x2 y2) x1 y1 x2
      .affine t.1 t.2

/-- The curve equation `y^2 = x^3 + b` (rules R13, R17, R171, R202); `O` is on the curve. -/
def onCurve {F : Type} [DecidableEq F] (K : FieldOps F) (b : F) : Point F → Bool
  | .infinity => true
  | .affine x y => decide (K.mul y y = K.add (K.mul (K.mul x x) x) b)

/-! ### The reference datapath of rule R180 (no command uses it) -/

/-- Projective coordinates `(X : Y : Z)`, with `O = (0 : 1 : 0)` (rule R180). -/
structure ProjPoint (F : Type) where
  X : F
  Y : F
  Z : F
  deriving DecidableEq, Repr

/-- Affine to projective (rule R180). -/
def toProj {F : Type} (K : FieldOps F) : Point F → ProjPoint F
  | .infinity => ⟨K.zero, K.small 1, K.zero⟩
  | .affine x y => ⟨x, y, K.small 1⟩

/-- Projective to affine: `O` when `Z = 0`, else `(X/Z, Y/Z)` (rule R180). -/
def fromProj {F : Type} [DecidableEq F] (K : FieldOps F) (P : ProjPoint F) : Point F :=
  if P.Z = K.zero then .infinity
  else .affine (K.mul P.X (K.inv P.Z)) (K.mul P.Y (K.inv P.Z))

/-- The complete projective addition for a = 0 curves, `b3 = 3 * b`, step by step as rule R180 lists it. -/
def completeAdd {F : Type} (K : FieldOps F) (b3 : F) (P Q : ProjPoint F) : ProjPoint F :=
  let t0 := K.mul P.X Q.X
  let t1 := K.mul P.Y Q.Y
  let t2 := K.mul P.Z Q.Z
  let t3 := K.mul (K.add P.X P.Y) (K.add Q.X Q.Y)
  let t3 := K.sub t3 (K.add t0 t1)
  let t4 := K.mul (K.add P.Y P.Z) (K.add Q.Y Q.Z)
  let t4 := K.sub t4 (K.add t1 t2)
  let y3 := K.mul (K.add P.X P.Z) (K.add Q.X Q.Z)
  let y3 := K.sub y3 (K.add t0 t2)
  let t0 := K.add (K.add t0 t0) t0
  let t2 := K.mul b3 t2
  let z3 := K.add t1 t2
  let t1 := K.sub t1 t2
  let y3 := K.mul b3 y3
  let x3 := K.mul t4 y3
  let x3 := K.sub (K.mul t3 t1) x3
  let y3 := K.add (K.mul t1 z3) (K.mul y3 t0)
  let z3 := K.add (K.mul z3 t4) (K.mul t0 t3)
  ⟨x3, y3, z3⟩

end Sys2Proof.Machine
end

