-- ==== Sys2Proof/Machine/Scalar.lean ====
section
/-! DEFINITION. The scalar multiplication engine (rules R177, R230 to R233, R240 to R243), over an addition and an identity,
so that one definition serves G1 and G2. -/

namespace Sys2Proof.Machine

/-! ### One point -/

/-- `k * P` as rule R177 defines it: `0 * P = O`, `(k + 1) * P = (k * P) + P`. -/
def foldMul {G : Type} (add : G → G → G) (zero : G) (P : G) : Nat → G
  | 0 => zero
  | k + 1 => add (foldMul add zero P k) P

/-- A group operation, as the trace of rule R233 records it. -/
inductive GroupOp where
  | double
  | addPoint
  deriving DecidableEq, Repr

/-- A value with the trace of the group operations that produced it (rule R233). -/
structure Traced (G : Type) where
  val   : G
  trace : List GroupOp
  deriving DecidableEq, Repr

/-- The fixed-pattern walk of rule R232 over the low `n` bits of `k`, most significant first: every iteration doubles,
adds, and selects. -/
def walk {G : Type} (add : G → G → G) (P : G) (k : Nat) : Nat → Traced G → Traced G
  | 0, acc => acc
  | n + 1, acc =>
    let dbl := add acc.val acc.val
    let sum := add dbl P
    walk add P k n ⟨if k.testBit n then sum else dbl, acc.trace ++ [.double, .addPoint]⟩

/-- `smul_fixed(P, k)` of rule R232: 253 iterations from `O`. -/
def smulTraced {G : Type} (add : G → G → G) (zero P : G) (k : Nat) : Traced G :=
  walk add P k Config.nbitsR ⟨zero, []⟩

/-- `smul(P, k) = k * P` (rules R230, R232), for `k < 2^253`. -/
def smul {G : Type} (add : G → G → G) (zero P : G) (k : Nat) : G := (smulTraced add zero P k).val

/-! ### Many points -/

/-- `msm`: the sequential fold that DEFINES the result (rule R240). -/
def msm {G : Type} (add : G → G → G) (zero : G) (pairs : List (G × Nat)) : G :=
  pairs.foldl (fun acc pk => add acc (smul add zero pk.1 pk.2)) zero

/-- `add` a point `w` times to itself, doubling: "repeat w times: total = add(total, total)" (rule R241). -/
def doubleTimes {G : Type} (add : G → G → G) : Nat → G → G
  | 0, t => t
  | w + 1, t => doubleTimes add w (add t t)

/-- The bucket of digit `d` in window `j`: the sum of the points whose scalar has that digit there, in list order
(rule R241). -/
def bucket {G : Type} (add : G → G → G) (zero : G) (pairs : List (G × Nat)) (w j d : Nat) : G :=
  pairs.foldl (fun b pk => if (pk.2 >>> (j * w)) % 2 ^ w = d then add b pk.1 else b) zero

/-- The weighted accumulation pass for the digits `d, d-1, ..., 1` (rule R241): `(run, part)` to `part`. -/
def accumulate {G : Type} (add : G → G → G) (buckets : Nat → G) : Nat → G → G → G
  | 0, _, part => part
  | d + 1, run, part =>
    let run' := add run (buckets (d + 1))
    accumulate add buckets d run' (add part run')

/-- The windows `n-1, n-2, ..., 0` of `msm_bucket` (rule R241). -/
def bucketWindows {G : Type} (add : G → G → G) (zero : G) (pairs : List (G × Nat)) (w : Nat) : Nat → G → G
  | 0, total => total
  | j + 1, total =>
    let part := accumulate add (bucket add zero pairs w j) (2 ^ w - 1) zero zero
    bucketWindows add zero pairs w j (add (doubleTimes add w total) part)

/-- `msm_bucket(pairs, w)`, Pippenger's bucket method (rule R241), for `w >= 1`: an implementation of `msm`, which no
command uses. -/
def msmBucket {G : Type} (add : G → G → G) (zero : G) (pairs : List (G × Nat)) (w : Nat) : G :=
  bucketWindows add zero pairs w ((Config.nbitsR + w - 1) / w) zero

/-- The spec's default for the open parameter `MSM_WINDOW` (rules R8, R243): no result depends on it. -/
def msmWindowDefault (n : Nat) : Nat := if n < 8 then 1 else min 16 (n.log2 + 1 - 2)

/-! ### The two groups -/

/-- `P + Q` on E (rules R176, R182). -/
def g1Add (T : Tables) : Point Nat → Point Nat → Point Nat := pointAdd (fqOps T.p)

/-- `P + Q` on E' (rules R206, R212). -/
def g2Add (T : Tables) : Point Fq2 → Point Fq2 → Point Fq2 := pointAdd (fq2Ops T.p)

/-- `k * P` on E. -/
def g1Smul (T : Tables) (P : Point Nat) (k : Nat) : Point Nat := smul (g1Add T) .infinity P k

/-- `k * Q` on E'. -/
def g2Smul (T : Tables) (Q : Point Fq2) (k : Nat) : Point Fq2 := smul (g2Add T) .infinity Q k

end Sys2Proof.Machine
end

