-- ==== Sys2Proof/Machine/Codec.lean ====
section
/-! DEFINITION. The canonical codec (rules R105 to R113, R130 to R141): big-endian byte strings to elements and back.  The
tests of each decoder stand in the order of its rule, so a buffer with several defects reports the first. -/

namespace Sys2Proof.Machine

/-! ### Big-endian integers (rules R21, R65) -/

/-- `be(b)`. -/
def beNat (b : Bytes) : Nat := b.foldl (fun acc x => acc * 256 + x.toNat) 0

/-- `be_n(v)` for `v < 256^n`. -/
def beBytes : Nat → Nat → Bytes
  | 0, _ => []
  | n + 1, v => BitVec.ofNat 8 (v / 256 ^ n) :: beBytes n v

/-- `b[i:j]` (rule R21). -/
def sliceBytes (b : Bytes) (i j : Nat) : Bytes := (b.drop i).take (j - i)

/-- The flag byte of a point's encoding, `b[0]`. -/
def flagByte (b : Bytes) : Byte := b.headD 0

/-! ### Fr -/

/-- `decode_FR` (rule R133): values `>= r` are rejected, not reduced. -/
def decodeFr (T : Tables) (b : Bytes) : Except ErrorKind Nat :=
  if b.length ≠ Config.wFr then .error .invalidLength
  else if T.r ≤ beNat b then .error .outOfRange
  else .ok (beNat b)

/-- `encode_FR` (rule R136). -/
def encodeFr (a : Nat) : Bytes := beBytes Config.wFr a

/-! ### G1 -/

/-- The subgroup test `r * P = O` on E (rule R139). -/
def inG1 (T : Tables) (P : Point Nat) : Bool := decide (g1Smul T P T.r = .infinity)

/-- `decode_G1` (rule R134): length, range, flag and canonical identity, curve equation, subgroup. -/
def decodeG1 (T : Tables) (b : Bytes) : Except ErrorKind (Point Nat) :=
  if b.length ≠ Config.wG1 then .error .invalidLength
  else
    let x := beNat (sliceBytes b 1 49)
    let y := beNat (sliceBytes b 49 97)
    if T.p ≤ x ∨ T.p ≤ y then .error .outOfRange
    else if flagByte b = 1 then
      if x ≠ 0 ∨ y ≠ 0 then .error .notOnCurve else .ok .infinity
    else if flagByte b ≠ 0 then .error .notOnCurve
    else if onCurve (fqOps T.p) T.bG1 (.affine x y) = false then .error .notOnCurve
    else if inG1 T (.affine x y) = false then .error .notInSubgroup
    else .ok (.affine x y)

/-- `encode_G1` (rules R107, R137). -/
def encodeG1 : Point Nat → Bytes
  | .infinity => 1 :: List.replicate 96 0
  | .affine x y => 0 :: (beBytes Config.wFq x ++ beBytes Config.wFq y)

/-! ### G2 -/

/-- The subgroup test `r * Q = O` on E' (rule R139). -/
def inG2 (T : Tables) (Q : Point Fq2) : Bool := decide (g2Smul T Q T.r = .infinity)

/-- `decode_G2` (rule R135): as `decodeG1`, over Fq2. -/
def decodeG2 (T : Tables) (b : Bytes) : Except ErrorKind (Point Fq2) :=
  if b.length ≠ Config.wG2 then .error .invalidLength
  else
    let x0 := beNat (sliceBytes b 1 49)
    let x1 := beNat (sliceBytes b 49 97)
    let y0 := beNat (sliceBytes b 97 145)
    let y1 := beNat (sliceBytes b 145 193)
    if T.p ≤ x0 ∨ T.p ≤ x1 ∨ T.p ≤ y0 ∨ T.p ≤ y1 then .error .outOfRange
    else if flagByte b = 1 then
      if x0 ≠ 0 ∨ x1 ≠ 0 ∨ y0 ≠ 0 ∨ y1 ≠ 0 then .error .notOnCurve else .ok .infinity
    else if flagByte b ≠ 0 then .error .notOnCurve
    else if onCurve (fq2Ops T.p) T.bG2 (.affine ⟨x0, x1⟩ ⟨y0, y1⟩) = false then .error .notOnCurve
    else if inG2 T (.affine ⟨x0, x1⟩ ⟨y0, y1⟩) = false then .error .notInSubgroup
    else .ok (.affine ⟨x0, x1⟩ ⟨y0, y1⟩)

/-- An Fq2 coordinate: the coefficient of 1 first, the coefficient of u second (rule R106). -/
def encodeFq2 (a : Fq2) : Bytes := beBytes Config.wFq a.c0 ++ beBytes Config.wFq a.c1

/-- `encode_G2` (rules R108, R138). -/
def encodeG2 : Point Fq2 → Bytes
  | .infinity => 1 :: List.replicate 192 0
  | .affine x y => 0 :: (encodeFq2 x ++ encodeFq2 y)

/-! ### BOOL and lists -/

/-- `encode_BOOL` (rules R110, R140). -/
def encodeBool (v : Bool) : Bytes := [if v then 1 else 0]

/-- The entries of a list, each of `wA + wB` bytes, decoded in the order a_0, b_0, a_1, b_1, ...; the first failing
element decides (rule R141). -/
def decodeEntries {α β : Type} (decA : Bytes → Except ErrorKind α) (decB : Bytes → Except ErrorKind β) (wA wB : Nat) :
    Nat → Bytes → Except ErrorKind (List (α × β))
  | 0, _ => .ok []
  | n + 1, b =>
    match decA (b.take wA) with
    | .error k => .error k
    | .ok x =>
      match decB ((b.drop wA).take wB) with
      | .error k => .error k
      | .ok y =>
        match decodeEntries decA decB wA wB n (b.drop (wA + wB)) with
        | .error k => .error k
        | .ok rest => .ok ((x, y) :: rest)

/-- `decode_LIST(A, B)` (rules R112, R141): the count against the length first, then the entries. -/
def decodeList {α β : Type} (decA : Bytes → Except ErrorKind α) (decB : Bytes → Except ErrorKind β) (wA wB : Nat)
    (b : Bytes) : Except ErrorKind (List (α × β)) :=
  if b.length < Config.wCount then .error .invalidLength
  else
    let n := beNat (b.take Config.wCount)
    if b.length ≠ Config.wCount + n * (wA + wB) then .error .invalidLength
    else decodeEntries decA decB wA wB n (b.drop Config.wCount)

/-- The encoding of a list (rule R112): the count in 4 bytes, then the entries.  The host builds lists; the core never
writes one. -/
def encodeList {α β : Type} (encA : α → Bytes) (encB : β → Bytes) (l : List (α × β)) : Bytes :=
  beBytes Config.wCount l.length ++ l.flatMap fun e => encA e.1 ++ encB e.2

/-- `decode_LIST(G1, FR)` (rule R113). -/
def decodeG1FrList (T : Tables) : Bytes → Except ErrorKind (List (Point Nat × Nat)) :=
  decodeList (decodeG1 T) (decodeFr T) Config.wG1 Config.wFr

/-- `decode_LIST(G2, FR)` (rule R113). -/
def decodeG2FrList (T : Tables) : Bytes → Except ErrorKind (List (Point Fq2 × Nat)) :=
  decodeList (decodeG2 T) (decodeFr T) Config.wG2 Config.wFr

/-- `decode_LIST(G1, G2)` (rule R113). -/
def decodeG1G2List (T : Tables) : Bytes → Except ErrorKind (List (Point Nat × Point Fq2)) :=
  decodeList (decodeG1 T) (decodeG2 T) Config.wG1 Config.wG2

end Sys2Proof.Machine
end

