-- ==== Sys2Proof/Machine/Fr.lean ====
section
/-! DEFINITION. The scalar field engine Fr (rules R150 to R159). -/

namespace Sys2Proof.Machine

/-- FR_ONE's engine (rule R154): the multiplicative identity. -/
def frOneEngine : Engine := engine0 encodeFr fun _ => 1

/-- FR_ADD's engine (rule R155): `(a + b) mod r`. -/
def frAddEngine : Engine := engine2 decodeFr decodeFr encodeFr fun T a b => .ok (addMod T.r a b)

/-- FR_SUB's engine (rule R156): `(a - b) mod r`. -/
def frSubEngine : Engine := engine2 decodeFr decodeFr encodeFr fun T a b => .ok (subMod T.r a b)

/-- FR_MUL's engine (rule R157): `(a * b) mod r`. -/
def frMulEngine : Engine := engine2 decodeFr decodeFr encodeFr fun T a b => .ok (mulMod T.r a b)

/-- FR_INV's engine (rule R158): the inverse, `a^(r-2) mod r`; zero has none. -/
def frInvEngine : Engine :=
  engine1 decodeFr encodeFr fun T a => if a = 0 then .error .notInvertible else .ok (invMod T.r a)

/-- FR_NEG's engine (rule R159): `(r - a) mod r`. -/
def frNegEngine : Engine := engine1 decodeFr encodeFr fun T a => .ok (negMod T.r a)

/-- FR_ONE (rule R154). -/
def execFrOne (s : State) : Outcome := runCall (operandsOf .frOne) frOneEngine s
/-- FR_ADD (rule R155). -/
def execFrAdd (s : State) : Outcome := runCall (operandsOf .frAdd) frAddEngine s
/-- FR_SUB (rule R156). -/
def execFrSub (s : State) : Outcome := runCall (operandsOf .frSub) frSubEngine s
/-- FR_MUL (rule R157). -/
def execFrMul (s : State) : Outcome := runCall (operandsOf .frMul) frMulEngine s
/-- FR_INV (rule R158). -/
def execFrInv (s : State) : Outcome := runCall (operandsOf .frInv) frInvEngine s
/-- FR_NEG (rule R159). -/
def execFrNeg (s : State) : Outcome := runCall (operandsOf .frNeg) frNegEngine s

end Sys2Proof.Machine
end

