-- ==== Sys2Proof/Machine/G1.lean ====
section
/-! DEFINITION. The group engine G1 and its scalar multiplications (rules R181 to R183, R235, R245). -/

namespace Sys2Proof.Machine

/-- G1_ONE's engine (rule R181): the generator G, not the identity. -/
def g1OneEngine : Engine := engine0 encodeG1 fun T => T.genG1

/-- G1_ADD's engine (rule R182). -/
def g1AddEngine : Engine := engine2 decodeG1 decodeG1 encodeG1 fun T a b => .ok (g1Add T a b)

/-- G1_NEG's engine (rule R183). -/
def g1NegEngine : Engine := engine1 decodeG1 encodeG1 fun T a => .ok (pointNeg (fqOps T.p) a)

/-- G1_MUL's engine (rule R235): the point is decoded first, then the scalar. -/
def g1MulEngine : Engine := engine2 decodeG1 decodeFr encodeG1 fun T P k => .ok (g1Smul T P k)

/-- G1_MSM's engine (rules R240, R245). -/
def g1MsmEngine : Engine := engine1 decodeG1FrList encodeG1 fun T l => .ok (msm (g1Add T) .infinity l)

/-- G1_ONE (rule R181). -/
def execG1One (s : State) : Outcome := runCall (operandsOf .g1One) g1OneEngine s
/-- G1_ADD (rule R182). -/
def execG1Add (s : State) : Outcome := runCall (operandsOf .g1Add) g1AddEngine s
/-- G1_NEG (rule R183). -/
def execG1Neg (s : State) : Outcome := runCall (operandsOf .g1Neg) g1NegEngine s
/-- G1_MUL (rule R235). -/
def execG1Mul (s : State) : Outcome := runCall (operandsOf .g1Mul) g1MulEngine s
/-- G1_MSM (rule R245). -/
def execG1Msm (s : State) : Outcome := runCall (operandsOf .g1Msm) g1MsmEngine s

end Sys2Proof.Machine
end

