-- ==== Sys2Proof/Machine/G2.lean ====
section
/-! DEFINITION. The group engine G2 and its scalar multiplications (rules R211 to R213, R236, R246). -/

namespace Sys2Proof.Machine

/-- G2_ONE's engine (rule R211): the generator H. -/
def g2OneEngine : Engine := engine0 encodeG2 fun T => T.genG2

/-- G2_ADD's engine (rule R212). -/
def g2AddEngine : Engine := engine2 decodeG2 decodeG2 encodeG2 fun T a b => .ok (g2Add T a b)

/-- G2_NEG's engine (rule R213). -/
def g2NegEngine : Engine := engine1 decodeG2 encodeG2 fun T a => .ok (pointNeg (fq2Ops T.p) a)

/-- G2_MUL's engine (rule R236): the point is decoded first, then the scalar. -/
def g2MulEngine : Engine := engine2 decodeG2 decodeFr encodeG2 fun T Q k => .ok (g2Smul T Q k)

/-- G2_MSM's engine (rules R240, R246). -/
def g2MsmEngine : Engine := engine1 decodeG2FrList encodeG2 fun T l => .ok (msm (g2Add T) .infinity l)

/-- G2_ONE (rule R211). -/
def execG2One (s : State) : Outcome := runCall (operandsOf .g2One) g2OneEngine s
/-- G2_ADD (rule R212). -/
def execG2Add (s : State) : Outcome := runCall (operandsOf .g2Add) g2AddEngine s
/-- G2_NEG (rule R213). -/
def execG2Neg (s : State) : Outcome := runCall (operandsOf .g2Neg) g2NegEngine s
/-- G2_MUL (rule R236). -/
def execG2Mul (s : State) : Outcome := runCall (operandsOf .g2Mul) g2MulEngine s
/-- G2_MSM (rule R246). -/
def execG2Msm (s : State) : Outcome := runCall (operandsOf .g2Msm) g2MsmEngine s

end Sys2Proof.Machine
end

