-- ==== Sys2Proof/Machine/Pairing.lean ====
section
/-! DEFINITION. The pairing engine: Fq12, the line function, the ate Miller loop, the final exponentiation and the
multi-pairing product check (rules R264 to R273).  No GT value is ever part of the state (rule R261). -/

namespace Sys2Proof.Machine

/-! ### Fq12 (rule R264) -/

/-- Zero of Fq2. -/
def fq2Zero : Fq2 := ⟨0, 0⟩

/-- The zero of Fq12: six zeros. -/
def fq12Zero : Fq12 := ⟨fq2Zero, fq2Zero, fq2Zero, fq2Zero, fq2Zero, fq2Zero⟩

/-- The one of Fq12. -/
def fq12One : Fq12 := ⟨⟨1, 0⟩, fq2Zero, fq2Zero, fq2Zero, fq2Zero, fq2Zero⟩

/-- Addition in Fq12, coefficient by coefficient; with `fq12Sub` it completes rule R264, and no command needs either. -/
def fq12Add (p : Nat) (a b : Fq12) : Fq12 :=
  ⟨fq2Add p a.a0 b.a0, fq2Add p a.a1 b.a1, fq2Add p a.a2 b.a2, fq2Add p a.a3 b.a3, fq2Add p a.a4 b.a4,
    fq2Add p a.a5 b.a5⟩

/-- Subtraction in Fq12, coefficient by coefficient. -/
def fq12Sub (p : Nat) (a b : Fq12) : Fq12 :=
  ⟨fq2Sub p a.a0 b.a0, fq2Sub p a.a1 b.a1, fq2Sub p a.a2 b.a2, fq2Sub p a.a3 b.a3, fq2Sub p a.a4 b.a4,
    fq2Sub p a.a5 b.a5⟩

/-- A sum of Fq2 values. -/
def fq2Sum (p : Nat) (l : List Fq2) : Fq2 := l.foldl (fq2Add p) fq2Zero

/-- `mul12(a, b)`: `t[k]` is the sum of `a_i * b_j` over `i + j = k`, and `w^6 = u` folds `t[6..10]` back. -/
def mul12 (p : Nat) (a b : Fq12) : Fq12 :=
  let m := fq2Mul p
  let t0 := fq2Sum p [m a.a0 b.a0]
  let t1 := fq2Sum p [m a.a0 b.a1, m a.a1 b.a0]
  let t2 := fq2Sum p [m a.a0 b.a2, m a.a1 b.a1, m a.a2 b.a0]
  let t3 := fq2Sum p [m a.a0 b.a3, m a.a1 b.a2, m a.a2 b.a1, m a.a3 b.a0]
  let t4 := fq2Sum p [m a.a0 b.a4, m a.a1 b.a3, m a.a2 b.a2, m a.a3 b.a1, m a.a4 b.a0]
  let t5 := fq2Sum p [m a.a0 b.a5, m a.a1 b.a4, m a.a2 b.a3, m a.a3 b.a2, m a.a4 b.a1, m a.a5 b.a0]
  let t6 := fq2Sum p [m a.a1 b.a5, m a.a2 b.a4, m a.a3 b.a3, m a.a4 b.a2, m a.a5 b.a1]
  let t7 := fq2Sum p [m a.a2 b.a5, m a.a3 b.a4, m a.a4 b.a3, m a.a5 b.a2]
  let t8 := fq2Sum p [m a.a3 b.a5, m a.a4 b.a4, m a.a5 b.a3]
  let t9 := fq2Sum p [m a.a4 b.a5, m a.a5 b.a4]
  let t10 := fq2Sum p [m a.a5 b.a5]
  ⟨fq2Add p t0 (fq2MulU p t6), fq2Add p t1 (fq2MulU p t7), fq2Add p t2 (fq2MulU p t8),
   fq2Add p t3 (fq2MulU p t9), fq2Add p t4 (fq2MulU p t10), t5⟩

/-- Square-and-multiply on `n` bits of `e`, least significant first: `acc * a^e`. -/
def pow12Bits (p : Nat) : Nat → Fq12 → Nat → Fq12 → Fq12
  | 0, _, _, acc => acc
  | n + 1, a, e, acc => pow12Bits p n (mul12 p a a) (e / 2) (if e % 2 = 1 then mul12 p acc a else acc)

/-- `pow12(a, e)`. -/
def pow12 (p : Nat) (a : Fq12) (e : Nat) : Fq12 := pow12Bits p (e.log2 + 1) a e fq12One

/-- The untwisting map `(x', y') -> (x' * w^2, y' * w^3)` (rule R265); the reference pairing never forms its image. -/
def untwist (Q : Fq2 × Fq2) : Fq12 × Fq12 :=
  (⟨fq2Zero, fq2Zero, Q.1, fq2Zero, fq2Zero, fq2Zero⟩, ⟨fq2Zero, fq2Zero, fq2Zero, Q.2, fq2Zero, fq2Zero⟩)

/-! ### The Miller loop -/

/-- `line(T, S, P)` (rule R266): the line through the untwisted T and S at `P = (xP, yP)`, and the point `T + S`. -/
def line (p : Nat) (T S : Fq2 × Fq2) (xP yP : Nat) : Fq12 × (Fq2 × Fq2) :=
  let K := fq2Ops p
  let lam := if T = S then slopeTangent K T.1 T.2 else slopeChord K T.1 T.2 S.1 S.2
  (⟨⟨yP, 0⟩, fq2Neg p (fq2Scale p lam xP), fq2Zero, fq2Sub p (fq2Mul p lam T.1) T.2, fq2Zero, fq2Zero⟩,
   pointOfSlope K lam T.1 T.2 S.1)

/-- The Miller loop over the low `n` bits of the loop count, most significant first (rule R267). -/
def millerBits (p count : Nat) (Q : Fq2 × Fq2) (xP yP : Nat) : Nat → Fq12 → Fq2 × Fq2 → Fq12
  | 0, f, _ => f
  | n + 1, f, T =>
    let d := line p T T xP yP
    let f2 := mul12 p (mul12 p f f) d.1
    if count.testBit n then
      let a := line p d.2 Q xP yP
      millerBits p count Q xP yP n (mul12 p f2 a.1) a.2
    else millerBits p count Q xP yP n f2 d.2

/-- `miller(P, Q)` (rule R267): 1 if either operand is the identity (rule R270), else the loop over the bits of `x_seed`
below its top one. -/
def miller (T : Tables) (P : Point Nat) (Q : Point Fq2) : Fq12 :=
  match P with
  | .infinity => fq12One
  | .affine xP yP =>
    match Q with
    | .infinity => fq12One
    | .affine xQ yQ => millerBits T.p T.xSeed (xQ, yQ) xP yP T.xSeed.log2 fq12One (xQ, yQ)

/-- `final_exp(f)` (rule R268). -/
def finalExponentiation (T : Tables) (f : Fq12) : Fq12 := pow12 T.p f T.finalExp

/-- The reference pairing `e(P, Q)` (rule R269); no command computes one (rule R260). -/
def pairing (T : Tables) (P : Point Nat) (Q : Point Fq2) : Fq12 := finalExponentiation T (miller T P Q)

/-- The running product of the Miller values of a list of pairs (rule R273). -/
def millerProduct (T : Tables) (f : Fq12) (pairs : List (Point Nat × Point Fq2)) : Fq12 :=
  pairs.foldl (fun f pq => mul12 T.p f (miller T pq.1 pq.2)) f

/-- The pairs of the right side with their G1 points negated (rule R273). -/
def negateG1 (T : Tables) (pairs : List (Point Nat × Point Fq2)) : List (Point Nat × Point Fq2) :=
  pairs.map fun pq => (pointNeg (fqOps T.p) pq.1, pq.2)

/-- `check(left, right)` (rules R272, R273): one running product over the left pairs and the negated right pairs, exactly
one final exponentiation, and a comparison with 1. -/
def pairingCheck (T : Tables) (left right : List (Point Nat × Point Fq2)) : Bool :=
  decide (finalExponentiation T (millerProduct T (millerProduct T fq12One left) (negateG1 T right)) = fq12One)

end Sys2Proof.Machine
end

