-- ==== Sys2Proof/Machine/PairingUnit.lean ====
section
/-! DEFINITION. The multi-pairing product verifier PAIRING_CHECK (rule R275). -/

namespace Sys2Proof.Machine

/-- PAIRING_CHECK's engine (rule R275): both lists are decoded, the left one completely first, and the verdict is a byte,
not the flag (rule R39). -/
def pairingCheckEngine : Engine :=
  engine2 decodeG1G2List decodeG1G2List encodeBool fun T l r => .ok (pairingCheck T l r)

/-- PAIRING_CHECK (rule R275). -/
def execPairingCheck (s : State) : Outcome := runCall (operandsOf .pairingCheck) pairingCheckEngine s

end Sys2Proof.Machine
end

