-- ==== Sys2Proof/Machine/System.lean ====
section
/-! DEFINITION. The system command INIT (rule R300). -/

namespace Sys2Proof.Machine

/-- INIT's effect on the shared state (rules R300, R303): the first one gives `TABLES` its value and sets `INIT_DONE`,
a later one does nothing. -/
def initShared (s : State) : State :=
  if s.initDone then s else { s with initDone := true, tables := some curveTables }

/-- INIT (rule R300): all slots are ignored, `STATUS.OK <- 1` always. -/
def execInit (s : State) : Outcome :=
  match s.ports[s.callPort]? with
  | none => .fault .noSuchPort
  | some _ => .next (setOk true (initShared s))

end Sys2Proof.Machine
end

