-- ==== Sys2Proof/Machine/Dispatch.lean ====
section
/-! DEFINITION. One arm per command, in the order of rule R100's table. -/

namespace Sys2Proof.Machine

/-- The effect of a legal command on the port `callPort` (rule R292 steps 2 to 9). -/
def exec (i : Instr) (s : State) : Host.Outcome State Fault Refusal :=
  match i with
  | .init => Sys2Proof.Machine.execInit s
  | .frOne => Sys2Proof.Machine.execFrOne s
  | .frAdd => Sys2Proof.Machine.execFrAdd s
  | .frSub => Sys2Proof.Machine.execFrSub s
  | .frMul => Sys2Proof.Machine.execFrMul s
  | .frInv => Sys2Proof.Machine.execFrInv s
  | .frNeg => Sys2Proof.Machine.execFrNeg s
  | .g1One => Sys2Proof.Machine.execG1One s
  | .g1Add => Sys2Proof.Machine.execG1Add s
  | .g1Neg => Sys2Proof.Machine.execG1Neg s
  | .g1Mul => Sys2Proof.Machine.execG1Mul s
  | .g1Msm => Sys2Proof.Machine.execG1Msm s
  | .g2One => Sys2Proof.Machine.execG2One s
  | .g2Add => Sys2Proof.Machine.execG2Add s
  | .g2Neg => Sys2Proof.Machine.execG2Neg s
  | .g2Mul => Sys2Proof.Machine.execG2Mul s
  | .g2Msm => Sys2Proof.Machine.execG2Msm s
  | .pairingCheck => Sys2Proof.Machine.execPairingCheck s

end Sys2Proof.Machine
end

