-- ==== Sys2Proof/Machine/HostBus.lean ====
section
/-! DEFINITION. What a host action does (rules R30, R40, R41, R302, R360): the register interface of the ports, the start
of a call by a write of `CW`, the host's own accesses to `M`, and reset.  Also the host actions a call line stands for
(rules R120, R364). -/

namespace Sys2Proof.Machine

/-- A host write of `CW` up to the start of the call (rules R40, R291): the value is stored and the port is the one the
call runs on. -/
def storeCw (port : Nat) (w : Word32) (s : State) : State :=
  { s with ports := s.ports.modify port (fun pt => { pt with cw := w }), callPort := port }

/-- A call (rule R292 step 1, then the command): an illegal word fails closed whatever `INIT_DONE` is (rule R102). -/
def startCall (w : Word32) (s : State) : Outcome :=
  match decode w with
  | .error _ => failCall .illegalCommand s
  | .ok i => exec i s

/-- Reset (rules R50, R360, R361): every register of every port is 0, `INIT_DONE` is 0, `TABLES` holds no value, the
content of `M` is unspecified; reset starts no call.  The platform and what the hosts do next are not the core's. -/
def resetCore (s : State) : State :=
  { State.resetOn s.ports.length s.map (unspecifiedMemory s.map (s.resets + 1)) with
    pending := s.pending, resets := s.resets + 1 }

/-- One host action.  A port or an address the platform does not have stops the machine (rules R47, R343). -/
def hostAct (a : HostAction) (s : State) : Outcome :=
  match a with
  | .writeCw port w =>
    if port < s.ports.length then startCall w (storeCw port w s) else .fault .noSuchPort
  | .writeStatus port _ =>            -- "a host write is ignored" (rule R41)
    if port < s.ports.length then .next s else .fault .noSuchPort
  | .writeSlot port x v =>
    if port < s.ports.length then .next { s with ports := s.ports.modify port (writeSlot x v) }
    else .fault .noSuchPort
  | .readReg port _ =>                -- "starts nothing" (rule R40); the value is `hostReadReg`
    if port < s.ports.length then .next s else .fault .noSuchPort
  | .storeByte addr b =>
    if inMap s.map addr then .next { s with mem := s.mem.write addr b } else .fault .noSuchAddress
  | .loadByte addr =>                 -- no side effect (rule R62); the value is `hostLoadByte`
    if inMap s.map addr then .next s else .fault .noSuchAddress
  | .reset => .next (resetCore s)

/-- The value a host read of a register returns, if the port exists (rules R32, R40, R41). -/
def hostReadReg (s : State) (port : Nat) (reg : PortReg) : Option Word64 :=
  (s.ports[port]?).map fun pt => readReg s pt reg

/-- The value a host read of a byte of `M` returns, if the address exists. -/
def hostLoadByte (s : State) (addr : Nat) : Option Byte :=
  if inMap s.map addr then some (s.mem.read addr) else none

/-- The two slot writes for one buffer of a call line. -/
def bufferActions (port : Nat) (ptrReg lenReg : Slot) : Option Buffer → List HostAction
  | none => []
  | some b => [.writeSlot port ptrReg b.ptr, .writeSlot port lenReg b.len]

/-- "The line stands for the host's writes of the named slot registers followed by its write of the command word to
`CW`" (rule R120). -/
def callLineActions (port : Nat) (l : CallLine) : List HostAction :=
  bufferActions port .s0p .s0l l.s0 ++ bufferActions port .s1p .s1l l.s1 ++ bufferActions port .dp .dl l.d ++
    [.writeCw port (encode l.instr)]

/-- The host's stores of a byte string to `M`, first byte at `addr` (rule R364 step 1). -/
def storeBytesActions : Nat → Bytes → List HostAction
  | _, [] => []
  | addr, b :: bs => .storeByte addr b :: storeBytesActions (addr + 1) bs

end Sys2Proof.Machine
end

