-- ==== Sys2Proof/Machine/Step.lean ====
section
/-! DEFINITION. One step: the next host action in the one total order of rule R75, with the call it starts, if any.  The
core fetches nothing (rule R37): "what the core executes next" is the next word a host writes to a port's `CW`. -/

namespace Sys2Proof.Machine

/-- One step.  With no host action pending the core is idle and holds its state (rule R345). -/
def step (s : State) : Host.Outcome State Fault Refusal :=
  match s.pending with
  | [] => .next s
  | a :: rest => hostAct a { s with pending := rest }

/-- The state in which the very next step is the host's write of the word `w` (its bits above `nbits` zero) to port 0's
`CW`, ahead of everything else pending (assumption 6). -/
def State.withFetchWord (s : State) (nbits w : Nat) : State :=
  { s with pending := .writeCw 0 (BitVec.ofNat 32 (w % 2 ^ nbits)) :: s.pending }

end Sys2Proof.Machine
end

