-- ==== Sys2Proof/Machine/Result.lean ====
section
/-! DEFINITION. Views of a call that claims are stated with: the engine behind each command, the engine-level result of a
call and the error kinds a command can produce (rules R321, R323, R325). -/

namespace Sys2Proof.Machine

/-- The engine behind a command (rule R292 steps 7 to 9).  INIT has none: it ends at step 2. -/
def engineOf : Instr → Engine
  | .init => fun _ _ _ => .ok []
  | .frOne => frOneEngine
  | .frAdd => frAddEngine
  | .frSub => frSubEngine
  | .frMul => frMulEngine
  | .frInv => frInvEngine
  | .frNeg => frNegEngine
  | .g1One => g1OneEngine
  | .g1Add => g1AddEngine
  | .g1Neg => g1NegEngine
  | .g1Mul => g1MulEngine
  | .g1Msm => g1MsmEngine
  | .g2One => g2OneEngine
  | .g2Add => g2AddEngine
  | .g2Neg => g2NegEngine
  | .g2Mul => g2MulEngine
  | .g2Msm => g2MsmEngine
  | .pairingCheck => pairingCheckEngine

/-- The engine-level result of a command other than INIT on the given port (rules R298, R325): the bytes of the result,
or the error kind that the adapter drops. -/
def commandResult (i : Instr) (s : State) (pt : Port) : Except ErrorKind Bytes :=
  callResult (operandsOf i) (engineOf i) s pt

/-- The engine-level result of the call that any command word starts on the given port (rule R292): an illegal word ends at
step 1, INIT at step 2 with a success that has no bytes. -/
def wordResult (w : Word32) (s : State) (pt : Port) : Except ErrorKind Bytes :=
  match decode w with
  | .error _ => .error .illegalCommand
  | .ok i => if i = .init then .ok [] else commandResult i s pt

/-- A command with at least one source (rule R321: all but INIT, FR_ONE, G1_ONE and G2_ONE). -/
def hasSource (i : Instr) : Bool := slotUsed (operandsOf i).s0

/-- A command with a G1 or G2 source (rule R321's "the same nine"). -/
def hasPointSource : Instr → Bool
  | .g1Add | .g1Neg | .g1Mul | .g1Msm | .g2Add | .g2Neg | .g2Mul | .g2Msm | .pairingCheck => true
  | .init | .frOne | .frAdd | .frSub | .frMul | .frInv | .frNeg | .g1One | .g2One => false

/-- Rule R323's table: whether a command can produce an error kind. -/
def canProduce (i : Instr) (k : ErrorKind) : Bool :=
  match k with
  | .uninitialized => i != .init
  | .invalidLength => i != .init
  | .badAddress => i != .init
  | .outOfRange => hasSource i
  | .notOnCurve => hasPointSource i
  | .notInSubgroup => hasPointSource i
  | .notInvertible => i == .frInv
  | .illegalCommand => false
  | .internalFailure => false

end Sys2Proof.Machine
end

