-- ==== Sys2Proof/Safety.lean ====
section
/-! DEFINITION. What claims are stated in terms of: the values of the kinds (rules R132, R150, R171, R172, R202, R203), the
invariant of the machine, the readiness of a call, and the host actions this platform has a place for. -/

namespace Sys2Proof.Machine

/-! ### The values of the kinds -/

/-- A point of E over Fq with reduced coordinates, or `O` (rule R171). -/
def onE : Point Nat → Bool
  | .infinity => true
  | .affine x y =>
    decide (x < curveTables.p) && decide (y < curveTables.p) &&
      onCurve (fqOps curveTables.p) curveTables.bG1 (.affine x y)

/-- A point of E' over Fq2 with reduced coordinates, or `O` (rule R202). -/
def onTwist : Point Fq2 → Bool
  | .infinity => true
  | .affine x y =>
    decide (x.c0 < curveTables.p) && decide (x.c1 < curveTables.p) && decide (y.c0 < curveTables.p) &&
      decide (y.c1 < curveTables.p) && onCurve (fq2Ops curveTables.p) curveTables.bG2 (.affine x y)

/-- A value of kind FR (rule R150). -/
def isFr (a : Nat) : Bool := decide (a < Config.r)

/-- A value of kind G1: a point of E with `r * P = O` (rule R172). -/
def isG1 (P : Point Nat) : Bool := onE P && inG1 curveTables P

/-- A value of kind G2: a point of E' with `r * Q = O` (rule R203). -/
def isG2 (Q : Point Fq2) : Bool := onTwist Q && inG2 curveTables Q

/-! ### Negation, written out -/

/-- `-O = O`, `-(x, y) = (x, (p - y) mod p)` (rule R173). -/
def g1Minus : Point Nat → Point Nat
  | .infinity => .infinity
  | .affine x y => .affine x ((Config.p - y) % Config.p)

/-- `-O = O`, `-(x, y) = (x, -y)` with `-(c0, c1) = (-c0 mod p, -c1 mod p)` (rules R200, R204). -/
def g2Minus : Point Fq2 → Point Fq2
  | .infinity => .infinity
  | .affine x y => .affine x ⟨(Config.p - y.c0) % Config.p, (Config.p - y.c1) % Config.p⟩

/-! ### Multiples and sums as the spec defines them, and the valid lists -/

/-- `k * P` on E, P added to itself k times (rule R177); not the engine's walk. -/
def g1Times (P : Point Nat) (k : Nat) : Point Nat := foldMul (g1Add curveTables) .infinity P k

/-- `k * Q` on E' (rules R177, R206). -/
def g2Times (Q : Point Fq2) (k : Nat) : Point Fq2 := foldMul (g2Add curveTables) .infinity Q k

/-- The sum of `k_i * P_i` over a list, folded from `O` (rule R240). -/
def g1Sum (l : List (Point Nat × Nat)) : Point Nat :=
  l.foldl (fun acc pk => g1Add curveTables acc (g1Times pk.1 pk.2)) .infinity

/-- The sum of `k_i * Q_i` over a list (rules R240, R246). -/
def g2Sum (l : List (Point Fq2 × Nat)) : Point Fq2 :=
  l.foldl (fun acc pk => g2Add curveTables acc (g2Times pk.1 pk.2)) .infinity

/-- A value of kind LIST(G1, FR): its count fits 4 bytes and each entry is a value of its kinds (rule R112). -/
def isG1FrList (l : List (Point Nat × Nat)) : Bool :=
  decide (l.length < 2 ^ 32) && l.all fun e => isG1 e.1 && isFr e.2

/-- A value of kind LIST(G2, FR). -/
def isG2FrList (l : List (Point Fq2 × Nat)) : Bool :=
  decide (l.length < 2 ^ 32) && l.all fun e => isG2 e.1 && isFr e.2

/-- A value of kind LIST(G1, G2). -/
def isG1G2List (l : List (Point Nat × Point Fq2)) : Bool :=
  decide (l.length < 2 ^ 32) && l.all fun e => isG1 e.1 && isG2 e.2

/-! ### Invariant and readiness -/

/-- The invariant of the machine: `M` is in canonical form and names only addresses of `MAP` (rule R47); `TABLES` has its
one value exactly when `INIT_DONE` is 1 (rules R43, R303); the call port exists (rule R343: ports 0 to `NPORT - 1`). -/
abbrev Invariant (s : State) : Prop :=
  s.mem.wf ∧ (∀ c ∈ s.mem, inMap s.map c.1 = true) ∧
    s.tables = (if s.initDone then some curveTables else none) ∧ s.callPort < s.ports.length

/-- The tests of a call up to step 5 pass (rule R292): the calling port is `pt`, the core is initialised, every used slot
has a good length and an admitted buffer. -/
abbrev Ready (i : Instr) (s : State) (pt : Port) : Prop :=
  s.ports[s.callPort]? = some pt ∧ s.initDone = true ∧ s.tables = some curveTables ∧
    lengthsOk (operandsOf i) pt = true ∧ addressesOk (operandsOf i) s.map pt = true

/-- The bytes of source buffer 0. -/
def source0 (s : State) (pt : Port) : Bytes := memRead s.mem pt.s0p.toNat pt.s0l.toNat

/-- The bytes of source buffer 1. -/
def source1 (s : State) (pt : Port) : Bytes := memRead s.mem pt.s1p.toNat pt.s1l.toNat

/-- The state after a successful call with a destination: the bytes are in the destination buffer, `STATUS.OK` is 1, and
nothing else has changed (rule R296). -/
def afterSuccess (s : State) (pt : Port) (bytes : Bytes) : State :=
  setOk true { s with mem := memWrite s.mem pt.dp.toNat bytes }

/-- The state after a failed call: `STATUS.OK` is 0 and nothing else has changed (rule R297). -/
def afterFailure (s : State) : State := setOk false s

/-! ### The order of decoding -/

/-- A ready call of a command with two sources decodes S0 before S1 (rules R292 step 7, R330 item 5): a first source that
does not decode decides the kind whatever the second holds, and the second decides it when the first decodes. -/
def DecodesInOrder {α β : Type} (i : Instr) (decA : Bytes → Except ErrorKind α) (decB : Bytes → Except ErrorKind β) :
    Prop :=
  ∀ (s : State) (pt : Port) (k : ErrorKind), Ready i s pt →
    (decA (source0 s pt) = .error k → commandResult i s pt = .error k) ∧
    ∀ a, decA (source0 s pt) = .ok a → decB (source1 s pt) = .error k → commandResult i s pt = .error k

/-- A list of `n` entries whose entries before one all decode: the first failing element, in the order
a_0, b_0, a_1, b_1, ..., decides the kind, whatever bytes follow it (rule R141). -/
def FirstFailureDecides {α β : Type} (decA : Bytes → Except ErrorKind α) (decB : Bytes → Except ErrorKind β) (wA wB : Nat)
    (decList : Bytes → Except ErrorKind (List (α × β))) : Prop :=
  ∀ (good : List (Bytes × Bytes)) (a b rest : Bytes) (n : Nat) (k : ErrorKind),
    (∀ e ∈ good, e.1.length = wA ∧ e.2.length = wB ∧ (∃ x, decA e.1 = .ok x) ∧ ∃ y, decB e.2 = .ok y) →
    a.length = wA → b.length = wB → n < 2 ^ 32 → good.length < n →
    rest.length = (n - good.length - 1) * (wA + wB) →
    let buffer := beBytes 4 n ++ good.flatMap (fun e => e.1 ++ e.2) ++ a ++ b ++ rest
    (decA a = .error k → decList buffer = .error k) ∧
    ∀ x, decA a = .ok x → decB b = .error k → decList buffer = .error k

/-! ### Safe runs -/

/-- The platform has the port or the address that a host action names. -/
def actionPlaced (s : State) : HostAction → Bool
  | .writeCw port _ => decide (port < s.ports.length)
  | .writeStatus port _ => decide (port < s.ports.length)
  | .writeSlot port _ _ => decide (port < s.ports.length)
  | .readReg port _ => decide (port < s.ports.length)
  | .storeByte addr _ => inMap s.map addr
  | .loadByte addr => inMap s.map addr
  | .reset => true

/-- A run is safe from here: every pending host action names a port and an address that exist. -/
def pendingPlaced (s : State) : Bool := s.pending.all (actionPlaced s)

end Sys2Proof.Machine
end

