-- ==== Sys2Proof/Certificates/Slice0/Obligations.lean ====
section
/-! DEFINITION. The statements for the provers.  Each docstring names the rules it comes from.  `T` in the prose is
`curveTables`, the one value of `TABLES`. -/

open Sys2Proof Sys2Proof.Machine

/-! ### Encoding -/

/-- The 18 words of rule R100's table decode to their commands. -/
def Obligations.OpcodeTableDecodes : Prop :=
  decode 0x00000000#32 = .ok .init ∧ decode 0x00000010#32 = .ok .frOne ∧ decode 0x00000011#32 = .ok .frAdd ∧
  decode 0x00000012#32 = .ok .frSub ∧ decode 0x00000013#32 = .ok .frMul ∧ decode 0x00000014#32 = .ok .frInv ∧
  decode 0x00000015#32 = .ok .frNeg ∧ decode 0x00000020#32 = .ok .g1One ∧ decode 0x00000021#32 = .ok .g1Add ∧
  decode 0x00000022#32 = .ok .g1Neg ∧ decode 0x00000023#32 = .ok .g1Mul ∧ decode 0x00000024#32 = .ok .g1Msm ∧
  decode 0x00000030#32 = .ok .g2One ∧ decode 0x00000031#32 = .ok .g2Add ∧ decode 0x00000032#32 = .ok .g2Neg ∧
  decode 0x00000033#32 = .ok .g2Mul ∧ decode 0x00000034#32 = .ok .g2Msm ∧ decode 0x00000040#32 = .ok .pairingCheck

/-- A word decodes to a command exactly when it is the encoding of that command: decode and encode agree on all 18 commands
and no other of the 2^32 words decodes (rules R91, R100, R102). -/
def Obligations.DecodeEncodeAgree : Prop :=
  ∀ (w : Word32) (i : Instr), decode w = .ok i ↔ w = encode i

/-- Rule R102: the legal words are those with `CW[31:8] = 0` and one of the 18 opcodes in `CW[7:0]`; the call any other word
starts fails closed, whatever `INIT_DONE` is. -/
def Obligations.IllegalWordFailsClosed : Prop :=
  (∀ w : Word32, (∃ i, decode w = .ok i) ↔
    w.extractLsb' 8 24 = 0#24 ∧ (w.extractLsb' 0 8).toNat ∈
      [0x00, 0x10, 0x11, 0x12, 0x13, 0x14, 0x15, 0x20, 0x21, 0x22, 0x23, 0x24, 0x30, 0x31, 0x32, 0x33, 0x34, 0x40]) ∧
  ∀ (s : State) (port : Nat) (w : Word32), port < s.ports.length → (∀ i, decode w ≠ .ok i) →
    hostAct (.writeCw port w) s = .next (afterFailure (storeCw port w s))

/-! ### The step and the registers -/

/-- A step whose next host action is the write of a legal word to a port's `CW` runs that command, on the state in which
the word is stored and the port is the calling one (rules R37, R40, R291).  The pending actions are the model's rendering of
the order of rule R75 (assumptions 1 and 6). -/
def Obligations.StepRunsDecodedCommand : Prop :=
  (∀ (s : State) (port : Nat) (w : Word32) (rest : List HostAction) (i : Instr),
    s.pending = .writeCw port w :: rest → port < s.ports.length → decode w = .ok i →
    ∃ u, step s = exec i u ∧ u.callPort = port ∧ u.pending = rest ∧
      u.ports = s.ports.modify port (fun pt => { pt with cw := w }) ∧
      u.initDone = s.initDone ∧ u.tables = s.tables ∧ u.mem = s.mem ∧ u.map = s.map ∧ u.resets = s.resets) ∧
  ∀ (s : State) (w : Nat) (i : Instr), 0 < s.ports.length → decode (BitVec.ofNat 32 w) = .ok i →
    step (s.withFetchWord 32 w) = exec i (storeCw 0 (BitVec.ofNat 32 w) s)

/-- Rule R40: a host write of `CW` stores the word and runs the call it encodes; a read returns the last value written, or 0
after reset, and starts nothing; every one of the 2^32 values may be written. -/
def Obligations.CommandWordRegister : Prop :=
  (∀ (s : State) (port : Nat) (w : Word32), port < s.ports.length →
    ∃ t, hostAct (.writeCw port w) s = .next t ∧
      (∀ i, decode w = .ok i → exec i (storeCw port w s) = .next t) ∧
      ((∀ i, decode w ≠ .ok i) → t = afterFailure (storeCw port w s)) ∧
      hostReadReg t port .cw = some (w.setWidth 64) ∧
      (∀ q, q ≠ port → hostReadReg t q .cw = hostReadReg s q .cw)) ∧
  (∀ (s : State) (port : Nat), port < s.ports.length → hostAct (.readReg port .cw) s = .next s) ∧
  hostReadReg State.reset 0 .cw = some 0#64

/-- Rule R41: `STATUS` reads `OK` in bit 0, the shared `INIT_DONE` in bit 1 and 0 elsewhere; a host write is ignored; it
reads 0 after reset. -/
def Obligations.StatusRegister : Prop :=
  (∀ (s : State) (port : Nat) (pt : Port), s.ports[port]? = some pt →
    (∃ v, hostReadReg s port .status = some v ∧ v.getLsbD 0 = pt.ok ∧ v.getLsbD 1 = s.initDone ∧
      ∀ n, 2 ≤ n → v.getLsbD n = false) ∧
    ∀ w, hostAct (.writeStatus port w) s = .next s) ∧
  hostReadReg State.reset 0 .status = some 0#64

/-- The six slots (rule R32): a host write reads back and changes no other register, no other port and no shared state; no
command ever writes a slot. -/
def Obligations.SlotRegisters : Prop :=
  (∀ (s : State) (port : Nat) (x : Slot) (v : Word64), port < s.ports.length →
    ∃ t, hostAct (.writeSlot port x v) s = .next t ∧ hostReadReg t port (.slot x) = some v ∧
      (∀ reg, reg ≠ .slot x → hostReadReg t port reg = hostReadReg s port reg) ∧
      (∀ q, q ≠ port → t.ports[q]? = s.ports[q]?) ∧
      t.initDone = s.initDone ∧ t.tables = s.tables ∧ t.mem = s.mem ∧ t.map = s.map) ∧
  ∀ (i : Instr) (s t : State) (q : Nat) (x : Slot), exec i s = .next t →
    hostReadReg t q (.slot x) = hostReadReg s q (.slot x)

/-- `STATUS.OK` (rule R38): a call sets it to 1 exactly when its result is a success, and to 0 otherwise; no other host action
but a reset changes it on any port; a call leaves another port's stored `CW`, `OK` and slots alone (rule R343).  Its view
`STATUS.INIT` of the shared bit is not among them: INIT on one port sets it on all (rules R41, R42). -/
def Obligations.OkFlagWrittenByCallsOnly : Prop :=
  (∀ (i : Instr) (s : State) (pt : Port), i ≠ .init → s.ports[s.callPort]? = some pt →
    ∃ t ok, exec i s = .next t ∧ (t.ports[s.callPort]?).map Port.ok = some ok ∧
      (ok = true ↔ ∃ bytes, commandResult i s pt = .ok bytes)) ∧
  (∀ (a : HostAction) (s t : State), hostAct a s = .next t → (∀ port w, a ≠ .writeCw port w) → a ≠ .reset →
    ∀ q : Nat, (t.ports[q]?).map Port.ok = (s.ports[q]?).map Port.ok) ∧
  ∀ (s t : State) (port q : Nat) (w : Word32), hostAct (.writeCw port w) s = .next t → q ≠ port →
    t.ports[q]? = s.ports[q]?

/-! ### Reset, invariant, totality -/

/-- Reset (rules R50, R360, R361): power-on and a later reset leave `INIT_DONE` 0, `TABLES` without a value and every
register of every port 0, whatever came before.  The rest is the model's choice: that nothing is pending at power-on
(assumption 1; nothing is said of `pending` after a later reset), that a later reset keeps `MAP` and `NPORT` (assumption 17),
and that it leaves an `M` that is canonical and inside `MAP` (assumption 5).  Nothing is said of the bytes of `M`. -/
def Obligations.ResetState : Prop :=
  (State.reset.initDone = false ∧ State.reset.tables = none ∧ State.reset.pending = [] ∧
    ∀ pt ∈ State.reset.ports, pt = ⟨0, false, 0, 0, 0, 0, 0, 0⟩) ∧
  ∀ s : State, ∃ t, hostAct .reset s = .next t ∧ t.initDone = false ∧ t.tables = none ∧
    t.ports = List.replicate s.ports.length ⟨0, false, 0, 0, 0, 0, 0, 0⟩ ∧ t.map = s.map ∧
    t.mem.wf ∧ ∀ c ∈ t.mem, inMap s.map c.1 = true

/-- The invariant holds after reset.  That the memory list starts empty is the model's choice (assumption 2). -/
def Obligations.InvAtReset : Prop := Invariant State.reset

/-- Every step keeps the invariant: `M` canonical and inside `MAP` (rule R47), `TABLES` complete exactly when `INIT_DONE` is 1
(rules R43, R303), the calling port one of the platform's (rule R343). -/
def Obligations.StepKeepsInv : Prop :=
  ∀ s t : State, Invariant s → step s = .next t → Invariant t

/-- Reset is the only way to clear `INIT_DONE`, and INIT the only way to set it (rules R42, R362). -/
def Obligations.InitDoneMonotonic : Prop :=
  ∀ (a : HostAction) (s t : State), hostAct a s = .next t →
    (s.initDone = true → a ≠ .reset → t.initDone = true) ∧
    (s.initDone = false → t.initDone = true → ∃ port, a = .writeCw port (encode .init))

/-- The step is total on what the hosts may do (rules R302, R366): from a state of the invariant whose pending actions name
ports and addresses that exist, every step answers a next state with the same two properties. -/
def Obligations.RunsNeverStop : Prop :=
  ∀ s : State, Invariant s → pendingPlaced s = true → ∃ t, step s = .next t ∧ Invariant t ∧ pendingPlaced t = true

/-! ### Failures of the call algorithm -/

/-- Rule R293: every command but INIT fails closed while `INIT_DONE = 0`, whatever the slots and `M` hold. -/
def Obligations.UninitializedFailsClosed : Prop :=
  ∀ (i : Instr) (s : State) (pt : Port), i ≠ .init → s.ports[s.callPort]? = some pt → s.initDone = false →
    exec i s = .next (afterFailure s) ∧ commandResult i s pt = .error .uninitialized

/-- Rule R294: a used slot of a fixed kind must hold exactly the kind's width, a list slot at least 4; otherwise the call
fails with `InvalidLength`, the destination's length included. -/
def Obligations.InvalidLengthFails : Prop :=
  (kindWidth .fr = 32 ∧ kindWidth .g1 = 97 ∧ kindWidth .g2 = 193 ∧ kindWidth .bool = 1) ∧
  ∀ (i : Instr) (s : State) (pt : Port), Invariant s → s.ports[s.callPort]? = some pt → s.initDone = true →
    (∃ x ∈ [((operandsOf i).s0, pt.s0l), ((operandsOf i).s1, pt.s1l), ((operandsOf i).d, pt.dl)],
      (∃ k, x.1 = .fixed k ∧ x.2.toNat ≠ kindWidth k) ∨ (∃ a b, x.1 = .list a b ∧ x.2.toNat < 4)) →
    exec i s = .next (afterFailure s) ∧ commandResult i s pt = .error .invalidLength

/-- Rule R64: a used buffer that passes 2^64 or has an address outside `MAP` makes the call fail closed; with good lengths
the kind is `BadAddress`, whatever the bytes of `M` are. -/
def Obligations.BadAddressFails : Prop :=
  ∀ (i : Instr) (s : State) (pt : Port), Invariant s → s.ports[s.callPort]? = some pt →
    (∃ x ∈ [((operandsOf i).s0, pt.s0p, pt.s0l), ((operandsOf i).s1, pt.s1p, pt.s1l),
        ((operandsOf i).d, pt.dp, pt.dl)],
      x.1 ≠ .unused ∧ (2 ^ 64 < x.2.1.toNat + x.2.2.toNat ∨
        ∃ a, x.2.1.toNat ≤ a ∧ a < x.2.1.toNat + x.2.2.toNat ∧ inMap s.map a = false)) →
    exec i s = .next (afterFailure s) ∧
      (s.initDone = true → lengthsOk (operandsOf i) pt = true → commandResult i s pt = .error .badAddress)

/-- Rule R297: a failing call sets `STATUS.OK` to 0 and changes nothing else. -/
def Obligations.FailureFrame : Prop :=
  ∀ (i : Instr) (s t : State) (pt : Port), exec i s = .next t → s.ports[s.callPort]? = some pt →
    (t.ports[s.callPort]?).map Port.ok = some false →
    t.ports[s.callPort]? = some { pt with ok := false } ∧ (∀ q, q ≠ s.callPort → t.ports[q]? = s.ports[q]?) ∧
      t.mem = s.mem ∧ t.initDone = s.initDone ∧ t.tables = s.tables ∧ t.map = s.map ∧
      t.callPort = s.callPort ∧ t.pending = s.pending ∧ t.resets = s.resets

/-- Rule R296: a successful call of a command other than INIT writes the encoded result, as wide as the destination's kind,
to the destination buffer at `DP`, sets `STATUS.OK` to 1 and changes nothing else: no other byte of `M`, no slot, not `CW`,
not `INIT_DONE`. -/
def Obligations.SuccessFrame : Prop :=
  ∀ (i : Instr) (s t : State) (pt : Port), Invariant s → i ≠ .init → exec i s = .next t → s.ports[s.callPort]? = some pt →
    (t.ports[s.callPort]?).map Port.ok = some true →
    (∃ k bytes, (operandsOf i).d = .fixed k ∧ pt.dl.toNat = kindWidth k ∧ commandResult i s pt = .ok bytes ∧
      bytes.length = kindWidth k ∧ memRead t.mem pt.dp.toNat (kindWidth k) = bytes ∧
      ∀ a, a < pt.dp.toNat ∨ pt.dp.toNat + kindWidth k ≤ a → t.mem.read a = s.mem.read a) ∧
    t.ports[s.callPort]? = some { pt with ok := true } ∧ (∀ q, q ≠ s.callPort → t.ports[q]? = s.ports[q]?) ∧
      t.initDone = s.initDone ∧ t.tables = s.tables ∧ t.map = s.map ∧
      t.callPort = s.callPort ∧ t.pending = s.pending ∧ t.resets = s.resets

/-- Rule R77: the outcome of a call, its flag and its destination bytes, is a function of `INIT_DONE`, the command, the slots
it uses, `MAP` and its source bytes.  The two states may differ in everything else, the unused slots included (rule R32). -/
def Obligations.CallIsDeterministic : Prop :=
  ∀ (i : Instr) (s1 s2 t1 t2 : State) (p1 p2 : Port), Invariant s1 → Invariant s2 →
    s1.ports[s1.callPort]? = some p1 → s2.ports[s2.callPort]? = some p2 →
    s1.initDone = s2.initDone → s1.map = s2.map →
    ((operandsOf i).s0 ≠ .unused → p1.s0p = p2.s0p ∧ p1.s0l = p2.s0l ∧ source0 s1 p1 = source0 s2 p2) →
    ((operandsOf i).s1 ≠ .unused → p1.s1p = p2.s1p ∧ p1.s1l = p2.s1l ∧ source1 s1 p1 = source1 s2 p2) →
    ((operandsOf i).d ≠ .unused → p1.dp = p2.dp ∧ p1.dl = p2.dl) →
    exec i s1 = .next t1 → exec i s2 = .next t2 →
    (t1.ports[s1.callPort]?).map Port.ok = (t2.ports[s2.callPort]?).map Port.ok ∧
      ((t1.ports[s1.callPort]?).map Port.ok = some true → (operandsOf i).d ≠ .unused →
        memRead t1.mem p1.dp.toNat p1.dl.toNat = memRead t2.mem p2.dp.toNat p2.dl.toNat)

/-- A failed call fails identically on retry (rule R334): the same command again, with nothing changed by a host, fails and
leaves the state as it is. -/
def Obligations.RetryFailsAgain : Prop :=
  ∀ (i : Instr) (s t : State), exec i s = .next t → (t.ports[s.callPort]?).map Port.ok = some false →
    exec i t = .next t

/-- The kinds a command can produce (rule R323's table); in particular none produces `InternalFailure` (rule R328). -/
def Obligations.ErrorKindsPossible : Prop :=
  ∀ (i : Instr) (s : State) (pt : Port) (k : ErrorKind), Invariant s → i ≠ .init → s.ports[s.callPort]? = some pt →
    commandResult i s pt = .error k → canProduce i k = true

/-- S0 is decoded before S1 (rules R292 step 7, R330 item 5): the first source's defect decides the kind, whatever the second
source holds; the second's decides when the first is good.  Said of every command with two sources. -/
def Obligations.DecodeOrder : Prop :=
  DecodesInOrder .frAdd (decodeFr curveTables) (decodeFr curveTables) ∧
  DecodesInOrder .frSub (decodeFr curveTables) (decodeFr curveTables) ∧
  DecodesInOrder .frMul (decodeFr curveTables) (decodeFr curveTables) ∧
  DecodesInOrder .g1Add (decodeG1 curveTables) (decodeG1 curveTables) ∧
  DecodesInOrder .g1Mul (decodeG1 curveTables) (decodeFr curveTables) ∧
  DecodesInOrder .g2Add (decodeG2 curveTables) (decodeG2 curveTables) ∧
  DecodesInOrder .g2Mul (decodeG2 curveTables) (decodeFr curveTables) ∧
  DecodesInOrder .pairingCheck (decodeG1G2List curveTables) (decodeG1G2List curveTables)

/-! ### INIT -/

/-- Rule R300: INIT sets `INIT_DONE` and gives `TABLES` its value if `INIT_DONE` was 0, does nothing to them otherwise, ignores
all slots and always sets OK; after reset `STATUS` then reads 0x00000003. -/
def Obligations.InitResult : Prop :=
  (∀ (s : State) (pt : Port), s.ports[s.callPort]? = some pt →
    (s.initDone = true → exec .init s = .next (setOk true s)) ∧
    (s.initDone = false →
      exec .init s = .next (setOk true { s with initDone := true, tables := some curveTables }))) ∧
  ∃ t, exec .init State.reset = .next t ∧ hostReadReg t 0 .status = some 3#64

/-- INIT is idempotent on any two ports (rule R303): the second finds the bit set and returns OK, and a command after both
behaves as after one alone, its port's own registers being equal. -/
def Obligations.InitIdempotent : Prop :=
  ∀ (s t u : State) (q : Nat), q < s.ports.length → exec .init s = .next t →
    exec .init { t with callPort := q } = .next u →
    u.initDone = true ∧ u.initDone = t.initDone ∧ u.tables = t.tables ∧ u.mem = s.mem ∧
      (t.ports[s.callPort]?).map Port.ok = some true ∧ (u.ports[q]?).map Port.ok = some true ∧
      ∀ (i : Instr) (p : Port), i ≠ .init →
        commandResult i u p = commandResult i t p

/-! ### Fr commands -/

/-- Rule R154: FR_ONE writes the encoding of 1, and fails only in the call algorithm. -/
def Obligations.FrOneResult : Prop :=
  ∀ (s : State) (pt : Port), Invariant s → s.ports[s.callPort]? = some pt →
    (Ready .frOne s pt → exec .frOne s = .next (afterSuccess s pt (List.replicate 31 0#8 ++ [1#8]))) ∧
    (¬ Ready .frOne s pt → exec .frOne s = .next (afterFailure s))

/-- Rule R155: FR_ADD writes `(a + b) mod r`, and fails closed on everything that is not two Fr values. -/
def Obligations.FrAddResult : Prop :=
  ∀ (s : State) (pt : Port), Invariant s → s.ports[s.callPort]? = some pt →
    (∀ a b, Ready .frAdd s pt → isFr a = true → isFr b = true →
      source0 s pt = encodeFr a → source1 s pt = encodeFr b →
      exec .frAdd s = .next (afterSuccess s pt (encodeFr ((a + b) % Config.r)))) ∧
    ((∀ a b, isFr a = true → isFr b = true → source0 s pt = encodeFr a → source1 s pt = encodeFr b →
        ¬ Ready .frAdd s pt) →
      exec .frAdd s = .next (afterFailure s))

/-- Rule R156: FR_SUB writes `a - b` when `a >= b` and `a - b + r` when `a < b`. -/
def Obligations.FrSubResult : Prop :=
  ∀ (s : State) (pt : Port), Invariant s → s.ports[s.callPort]? = some pt →
    (∀ a b, Ready .frSub s pt → isFr a = true → isFr b = true →
      source0 s pt = encodeFr a → source1 s pt = encodeFr b →
      exec .frSub s = .next (afterSuccess s pt (encodeFr (if b ≤ a then a - b else a + Config.r - b)))) ∧
    ((∀ a b, isFr a = true → isFr b = true → source0 s pt = encodeFr a → source1 s pt = encodeFr b →
        ¬ Ready .frSub s pt) →
      exec .frSub s = .next (afterFailure s))

/-- Rule R157: FR_MUL writes `(a * b) mod r`. -/
def Obligations.FrMulResult : Prop :=
  ∀ (s : State) (pt : Port), Invariant s → s.ports[s.callPort]? = some pt →
    (∀ a b, Ready .frMul s pt → isFr a = true → isFr b = true →
      source0 s pt = encodeFr a → source1 s pt = encodeFr b →
      exec .frMul s = .next (afterSuccess s pt (encodeFr (a * b % Config.r)))) ∧
    ((∀ a b, isFr a = true → isFr b = true → source0 s pt = encodeFr a → source1 s pt = encodeFr b →
        ¬ Ready .frMul s pt) →
      exec .frMul s = .next (afterFailure s))

/-- Rule R158: FR_INV writes the unique b in `[1, r)` with `(a * b) mod r = 1`, and fails on 0 as on a malformed input. -/
def Obligations.FrInvResult : Prop :=
  ∀ (s : State) (pt : Port), Invariant s → s.ports[s.callPort]? = some pt →
    (∀ a, Ready .frInv s pt → isFr a = true → a ≠ 0 → source0 s pt = encodeFr a →
      ∃ b, 1 ≤ b ∧ b < Config.r ∧ a * b % Config.r = 1 ∧ (∀ c, c < Config.r → a * c % Config.r = 1 → c = b) ∧
        exec .frInv s = .next (afterSuccess s pt (encodeFr b))) ∧
    ((∀ a, isFr a = true → a ≠ 0 → source0 s pt = encodeFr a → ¬ Ready .frInv s pt) →
      exec .frInv s = .next (afterFailure s)) ∧
    (Ready .frInv s pt → source0 s pt = encodeFr 0 → commandResult .frInv s pt = .error .notInvertible)

/-- Rule R159: FR_NEG writes 0 when a = 0 and `r - a` otherwise. -/
def Obligations.FrNegResult : Prop :=
  ∀ (s : State) (pt : Port), Invariant s → s.ports[s.callPort]? = some pt →
    (∀ a, Ready .frNeg s pt → isFr a = true → source0 s pt = encodeFr a →
      exec .frNeg s = .next (afterSuccess s pt (encodeFr (if a = 0 then 0 else Config.r - a)))) ∧
    ((∀ a, isFr a = true → source0 s pt = encodeFr a → ¬ Ready .frNeg s pt) →
      exec .frNeg s = .next (afterFailure s))

/-! ### G1 commands -/

/-- Rule R181: G1_ONE writes the encoding of the generator G of rule R15. -/
def Obligations.G1OneResult : Prop :=
  ∀ (s : State) (pt : Port), Invariant s → s.ports[s.callPort]? = some pt →
    (Ready .g1One s pt → exec .g1One s = .next (afterSuccess s pt (encodeG1 (.affine Config.gX Config.gY)))) ∧
    (¬ Ready .g1One s pt → exec .g1One s = .next (afterFailure s))

/-- Rule R182: G1_ADD writes the sum of two points of G1 under the law of rule R176 (see ChordTangentG1). -/
def Obligations.G1AddResult : Prop :=
  ∀ (s : State) (pt : Port), Invariant s → s.ports[s.callPort]? = some pt →
    (∀ a b, Ready .g1Add s pt → isG1 a = true → isG1 b = true →
      source0 s pt = encodeG1 a → source1 s pt = encodeG1 b →
      exec .g1Add s = .next (afterSuccess s pt (encodeG1 (g1Add curveTables a b)))) ∧
    ((∀ a b, isG1 a = true → isG1 b = true → source0 s pt = encodeG1 a → source1 s pt = encodeG1 b →
        ¬ Ready .g1Add s pt) →
      exec .g1Add s = .next (afterFailure s))

/-- Rule R183: G1_NEG writes `-a` by rule R173. -/
def Obligations.G1NegResult : Prop :=
  ∀ (s : State) (pt : Port), Invariant s → s.ports[s.callPort]? = some pt →
    (∀ a, Ready .g1Neg s pt → isG1 a = true → source0 s pt = encodeG1 a →
      exec .g1Neg s = .next (afterSuccess s pt (encodeG1 (g1Minus a)))) ∧
    ((∀ a, isG1 a = true → source0 s pt = encodeG1 a → ¬ Ready .g1Neg s pt) →
      exec .g1Neg s = .next (afterFailure s))

/-- Rule R235: G1_MUL writes `k * P`, P added to itself k times (rules R177, R230). -/
def Obligations.G1MulResult : Prop :=
  ∀ (s : State) (pt : Port), Invariant s → s.ports[s.callPort]? = some pt →
    (∀ P k, Ready .g1Mul s pt → isG1 P = true → isFr k = true →
      source0 s pt = encodeG1 P → source1 s pt = encodeFr k →
      exec .g1Mul s = .next (afterSuccess s pt (encodeG1 (g1Times P k)))) ∧
    ((∀ P k, isG1 P = true → isFr k = true → source0 s pt = encodeG1 P → source1 s pt = encodeFr k →
        ¬ Ready .g1Mul s pt) →
      exec .g1Mul s = .next (afterFailure s))

/-- Rule R245: G1_MSM writes the sum of `k_i * P_i` by the fold of rule R240; a list with any bad element, or a count that
disagrees with the length, fails whole. -/
def Obligations.G1MsmResult : Prop :=
  ∀ (s : State) (pt : Port), Invariant s → s.ports[s.callPort]? = some pt →
    (∀ l, Ready .g1Msm s pt → isG1FrList l = true → source0 s pt = encodeList encodeG1 encodeFr l →
      exec .g1Msm s = .next (afterSuccess s pt (encodeG1 (g1Sum l)))) ∧
    ((∀ l, isG1FrList l = true → source0 s pt = encodeList encodeG1 encodeFr l → ¬ Ready .g1Msm s pt) →
      exec .g1Msm s = .next (afterFailure s))

/-! ### G2 commands -/

/-- Rule R211: G2_ONE writes the encoding of the generator H of rule R18. -/
def Obligations.G2OneResult : Prop :=
  ∀ (s : State) (pt : Port), Invariant s → s.ports[s.callPort]? = some pt →
    (Ready .g2One s pt → exec .g2One s = .next (afterSuccess s pt
      (encodeG2 (.affine ⟨Config.hXc0, Config.hXc1⟩ ⟨Config.hYc0, Config.hYc1⟩)))) ∧
    (¬ Ready .g2One s pt → exec .g2One s = .next (afterFailure s))

/-- Rule R212: G2_ADD writes the sum of two points of G2 under the law of rule R206 (see ChordTangentG2). -/
def Obligations.G2AddResult : Prop :=
  ∀ (s : State) (pt : Port), Invariant s → s.ports[s.callPort]? = some pt →
    (∀ a b, Ready .g2Add s pt → isG2 a = true → isG2 b = true →
      source0 s pt = encodeG2 a → source1 s pt = encodeG2 b →
      exec .g2Add s = .next (afterSuccess s pt (encodeG2 (g2Add curveTables a b)))) ∧
    ((∀ a b, isG2 a = true → isG2 b = true → source0 s pt = encodeG2 a → source1 s pt = encodeG2 b →
        ¬ Ready .g2Add s pt) →
      exec .g2Add s = .next (afterFailure s))

/-- Rule R213: G2_NEG writes `-a` by rule R204. -/
def Obligations.G2NegResult : Prop :=
  ∀ (s : State) (pt : Port), Invariant s → s.ports[s.callPort]? = some pt →
    (∀ a, Ready .g2Neg s pt → isG2 a = true → source0 s pt = encodeG2 a →
      exec .g2Neg s = .next (afterSuccess s pt (encodeG2 (g2Minus a)))) ∧
    ((∀ a, isG2 a = true → source0 s pt = encodeG2 a → ¬ Ready .g2Neg s pt) →
      exec .g2Neg s = .next (afterFailure s))

/-- Rule R236: G2_MUL writes `k * Q`. -/
def Obligations.G2MulResult : Prop :=
  ∀ (s : State) (pt : Port), Invariant s → s.ports[s.callPort]? = some pt →
    (∀ Q k, Ready .g2Mul s pt → isG2 Q = true → isFr k = true →
      source0 s pt = encodeG2 Q → source1 s pt = encodeFr k →
      exec .g2Mul s = .next (afterSuccess s pt (encodeG2 (g2Times Q k)))) ∧
    ((∀ Q k, isG2 Q = true → isFr k = true → source0 s pt = encodeG2 Q → source1 s pt = encodeFr k →
        ¬ Ready .g2Mul s pt) →
      exec .g2Mul s = .next (afterFailure s))

/-- Rule R246: G2_MSM writes the sum of `k_i * Q_i`. -/
def Obligations.G2MsmResult : Prop :=
  ∀ (s : State) (pt : Port), Invariant s → s.ports[s.callPort]? = some pt →
    (∀ l, Ready .g2Msm s pt → isG2FrList l = true → source0 s pt = encodeList encodeG2 encodeFr l →
      exec .g2Msm s = .next (afterSuccess s pt (encodeG2 (g2Sum l)))) ∧
    ((∀ l, isG2FrList l = true → source0 s pt = encodeList encodeG2 encodeFr l → ¬ Ready .g2Msm s pt) →
      exec .g2Msm s = .next (afterFailure s))

/-! ### PAIRING_CHECK -/

/-- Rule R275: PAIRING_CHECK writes 0x01 or 0x00 for the verdict of rule R273's check and sets OK to 1 whatever the verdict;
it fails when either list fails to decode. -/
def Obligations.PairingCheckResult : Prop :=
  ∀ (s : State) (pt : Port), Invariant s → s.ports[s.callPort]? = some pt →
    (∀ l r, Ready .pairingCheck s pt → isG1G2List l = true → isG1G2List r = true →
      source0 s pt = encodeList encodeG1 encodeG2 l → source1 s pt = encodeList encodeG1 encodeG2 r →
      exec .pairingCheck s =
        .next (afterSuccess s pt [if pairingCheck curveTables l r = true then 1#8 else 0#8])) ∧
    ((∀ l r, isG1G2List l = true → isG1G2List r = true →
        source0 s pt = encodeList encodeG1 encodeG2 l → source1 s pt = encodeList encodeG1 encodeG2 r →
        ¬ Ready .pairingCheck s pt) →
      exec .pairingCheck s = .next (afterFailure s))

/-- A pair with an identity component contributes the factor 1 (rule R270): it may be dropped from either list, and lists of
such pairs alone, two empty lists among them, have verdict true (rule R275's corner cases). -/
def Obligations.PairingIdentityPairs : Prop :=
  (∀ (l1 l2 r : List (Point Nat × Point Fq2)) (e : Point Nat × Point Fq2), e.1 = .infinity ∨ e.2 = .infinity →
    pairingCheck curveTables (l1 ++ e :: l2) r = pairingCheck curveTables (l1 ++ l2) r ∧
    pairingCheck curveTables r (l1 ++ e :: l2) = pairingCheck curveTables r (l1 ++ l2)) ∧
  ∀ l r : List (Point Nat × Point Fq2), (∀ e ∈ l, e.1 = .infinity ∨ e.2 = .infinity) →
    (∀ e ∈ r, e.1 = .infinity ∨ e.2 = .infinity) → pairingCheck curveTables l r = true

/-- Rule R275's corner cases: the order of the pairs within a list, and the assignment of a pair to a side with its G1 point
negated, do not change the verdict; the same pair on both sides cancels.  So `[(P, Q), (-P, Q)]` against `[]` is true (rule
R276). -/
def Obligations.PairingOrderAndSides : Prop :=
  (∀ l l' r r' : List (Point Nat × Point Fq2), l.Perm l' → r.Perm r' →
    pairingCheck curveTables l r = pairingCheck curveTables l' r') ∧
  ∀ (P : Point Nat) (Q : Point Fq2), isG1 P = true →
    (∀ l r : List (Point Nat × Point Fq2),
      pairingCheck curveTables ((P, Q) :: l) r = pairingCheck curveTables l ((g1Minus P, Q) :: r) ∧
      pairingCheck curveTables ((P, Q) :: l) ((P, Q) :: r) = pairingCheck curveTables l r) ∧
    pairingCheck curveTables [(P, Q), (g1Minus P, Q)] [] = true

/-- The pairing on the generators (rules R263, R269, R276): `e(G, H) != 1`, so the one pair (G, H) against the empty list has
verdict false; and `e(2G, H) = e(G, 2H)`, so (2G, H) against (G, 2H) has verdict true.  Two computations on constants, which
hold of no line function or Miller loop but a bilinear one at these points. -/
def Obligations.PairingNotDegenerate : Prop :=
  let G : Point Nat := .affine Config.gX Config.gY
  let H : Point Fq2 := .affine ⟨Config.hXc0, Config.hXc1⟩ ⟨Config.hYc0, Config.hYc1⟩
  pairingCheck curveTables [(G, H)] [] = false ∧
  pairingCheck curveTables [(g1Add curveTables G G, H)] [(G, g2Add curveTables H H)] = true

/-! ### Fields, curves and groups -/

/-- Rule R16 and the inverse of rule R170: the product, sum and inverse of Fq2 by their components, and the inverse of Fq. -/
def Obligations.FieldArithmetic : Prop :=
  (∀ a : Nat, a < Config.p → a ≠ 0 → invMod Config.p a < Config.p ∧ a * invMod Config.p a % Config.p = 1) ∧
  (∀ a b : Fq2, (fq2Mul Config.p a b).c0 < Config.p ∧ (fq2Mul Config.p a b).c1 < Config.p ∧
    ((fq2Mul Config.p a b).c0 + 5 * (a.c1 * b.c1)) % Config.p = a.c0 * b.c0 % Config.p ∧
    (fq2Mul Config.p a b).c1 = (a.c0 * b.c1 + a.c1 * b.c0) % Config.p ∧
    fq2Add Config.p a b = ⟨(a.c0 + b.c0) % Config.p, (a.c1 + b.c1) % Config.p⟩) ∧
  (∀ a : Fq2, a.c0 < Config.p → a.c1 < Config.p → a ≠ ⟨0, 0⟩ →
    fq2Mul Config.p a (fq2Inv Config.p a) = ⟨1, 0⟩) ∧
  ∀ t : Nat, (t * t + 5) % Config.p ≠ 0

/-- Rule R176 over Fq: the identity cases, opposite points, doubling with `2 * y1 * lambda = 3 * x1^2`, and the chord with
`(x2 - x1) * lambda = y2 - y1`; then `x3 = lambda^2 - x1 - x2` and `y3 = lambda * (x1 - x3) - y1`.  Each equation is written
without subtraction. -/
def Obligations.ChordTangentG1 : Prop :=
  ∀ P Q : Point Nat, onE P = true → onE Q = true →
    (P = .infinity → g1Add curveTables P Q = Q) ∧ (Q = .infinity → g1Add curveTables P Q = P) ∧
    ∀ x1 y1 x2 y2, P = .affine x1 y1 → Q = .affine x2 y2 →
      (x1 = x2 ∧ (y1 + y2) % Config.p = 0 → g1Add curveTables P Q = .infinity) ∧
      (¬ (x1 = x2 ∧ (y1 + y2) % Config.p = 0) →
        ∃ lam x3 y3, x3 < Config.p ∧ y3 < Config.p ∧ g1Add curveTables P Q = .affine x3 y3 ∧
          (x1 = x2 → y1 = y2 ∧ lam * (2 * y1) % Config.p = 3 * (x1 * x1) % Config.p) ∧
          (x1 ≠ x2 → (lam * x2 + y1) % Config.p = (lam * x1 + y2) % Config.p) ∧
          (x3 + x1 + x2) % Config.p = lam * lam % Config.p ∧
          (y3 + y1 + lam * x3) % Config.p = lam * x1 % Config.p)

/-- Rule R206: the law of rule R176 over Fq2, every operation the one of FieldArithmetic. -/
def Obligations.ChordTangentG2 : Prop :=
  ∀ P Q : Point Fq2, onTwist P = true → onTwist Q = true →
    (P = .infinity → g2Add curveTables P Q = Q) ∧ (Q = .infinity → g2Add curveTables P Q = P) ∧
    ∀ x1 y1 x2 y2, P = .affine x1 y1 → Q = .affine x2 y2 →
      (x1 = x2 ∧ fq2Add Config.p y1 y2 = ⟨0, 0⟩ → g2Add curveTables P Q = .infinity) ∧
      (¬ (x1 = x2 ∧ fq2Add Config.p y1 y2 = ⟨0, 0⟩) →
        ∃ lam x3 y3 : Fq2, x3.c0 < Config.p ∧ x3.c1 < Config.p ∧ y3.c0 < Config.p ∧ y3.c1 < Config.p ∧
          g2Add curveTables P Q = .affine x3 y3 ∧
          (x1 = x2 → y1 = y2 ∧
            fq2Mul Config.p lam (fq2Add Config.p y1 y1) = fq2Mul Config.p ⟨3, 0⟩ (fq2Mul Config.p x1 x1)) ∧
          (x1 ≠ x2 → fq2Add Config.p (fq2Mul Config.p lam x2) y1 = fq2Add Config.p (fq2Mul Config.p lam x1) y2) ∧
          fq2Add Config.p (fq2Add Config.p x3 x1) x2 = fq2Mul Config.p lam lam ∧
          fq2Add Config.p (fq2Add Config.p y3 y1) (fq2Mul Config.p lam x3) = fq2Mul Config.p lam x1)

/-- Rule R179: the group laws on G1. -/
def Obligations.G1GroupLaws : Prop :=
  ∀ a b c : Point Nat, isG1 a = true → isG1 b = true → isG1 c = true →
    g1Add curveTables a .infinity = a ∧ g1Add curveTables a b = g1Add curveTables b a ∧
    g1Add curveTables a (g1Minus a) = .infinity ∧
    g1Add curveTables (g1Add curveTables a b) c = g1Add curveTables a (g1Add curveTables b c) ∧
    g1Add curveTables .infinity .infinity = .infinity

/-- The group laws on G2 (rule R207: rule R179 holds for G2 word for word). -/
def Obligations.G2GroupLaws : Prop :=
  ∀ a b c : Point Fq2, isG2 a = true → isG2 b = true → isG2 c = true →
    g2Add curveTables a .infinity = a ∧ g2Add curveTables a b = g2Add curveTables b a ∧
    g2Add curveTables a (g2Minus a) = .infinity ∧
    g2Add curveTables (g2Add curveTables a b) c = g2Add curveTables a (g2Add curveTables b c) ∧
    g2Add curveTables .infinity .infinity = .infinity

/-- Closure (rules R178, R207): sums, negatives and multiples of points of G1 and G2 are points of G1 and G2, so every result
decodes again. -/
def Obligations.GroupsClosed : Prop :=
  (∀ a b : Point Nat, isG1 a = true → isG1 b = true →
    isG1 (g1Add curveTables a b) = true ∧ isG1 (g1Minus a) = true ∧ ∀ k, isG1 (g1Times a k) = true) ∧
  ∀ a b : Point Fq2, isG2 a = true → isG2 b = true →
    isG2 (g2Add curveTables a b) = true ∧ isG2 (g2Minus a) = true ∧ ∀ k, isG2 (g2Times a k) = true

/-- Multiples in G1 and G2 (rules R177, R238): they depend on `k mod r` only and agree with Fr arithmetic. -/
def Obligations.MultiplesModR : Prop :=
  (∀ P Q : Point Nat, isG1 P = true → isG1 Q = true → ∀ a b : Nat,
    g1Times P a = g1Times P (a % Config.r) ∧
    g1Times P ((a + b) % Config.r) = g1Add curveTables (g1Times P a) (g1Times P b) ∧
    g1Times P (a * b % Config.r) = g1Times (g1Times P b) a ∧
    g1Times (g1Add curveTables P Q) a = g1Add curveTables (g1Times P a) (g1Times Q a) ∧
    g1Times (g1Minus P) a = g1Minus (g1Times P a)) ∧
  ∀ P Q : Point Fq2, isG2 P = true → isG2 Q = true → ∀ a b : Nat,
    g2Times P a = g2Times P (a % Config.r) ∧
    g2Times P ((a + b) % Config.r) = g2Add curveTables (g2Times P a) (g2Times P b) ∧
    g2Times P (a * b % Config.r) = g2Times (g2Times P b) a ∧
    g2Times (g2Add curveTables P Q) a = g2Add curveTables (g2Times P a) (g2Times Q a) ∧
    g2Times (g2Minus P) a = g2Minus (g2Times P a)

/-- The fixed walk (rules R232, R233): it returns `k * P` for every point of the curves, in the subgroups or not, and every
`k < 2^253`, and its trace of group operations is one fixed list for all scalars and points: 253 times a doubling and an
addition. -/
def Obligations.FixedWalk : Prop :=
  (∀ (P : Point Nat) (k : Nat), onE P = true → k < 2 ^ 253 → g1Smul curveTables P k = g1Times P k) ∧
  (∀ (Q : Point Fq2) (k : Nat), onTwist Q = true → k < 2 ^ 253 → g2Smul curveTables Q k = g2Times Q k) ∧
  (∀ (P : Point Nat) (k : Nat), (smulTraced (g1Add curveTables) .infinity P k).trace =
    (List.replicate 253 [GroupOp.double, GroupOp.addPoint]).flatten) ∧
  ∀ (Q : Point Fq2) (k : Nat), (smulTraced (g2Add curveTables) .infinity Q k).trace =
    (List.replicate 253 [GroupOp.double, GroupOp.addPoint]).flatten

/-- Rule R241: Pippenger's bucket method gives the fold's result for every window width `w >= 1` and every list. -/
def Obligations.BucketMethod : Prop :=
  (∀ (l : List (Point Nat × Nat)) (w : Nat), 1 ≤ w → (∀ e ∈ l, isG1 e.1 = true ∧ isFr e.2 = true) →
    msmBucket (g1Add curveTables) .infinity l w = g1Sum l) ∧
  ∀ (l : List (Point Fq2 × Nat)) (w : Nat), 1 ≤ w → (∀ e ∈ l, isG2 e.1 = true ∧ isFr e.2 = true) →
    msmBucket (g2Add curveTables) .infinity l w = g2Sum l

/-- The multi-scalar sum (rules R240, R242): the order of the pairs is irrelevant, a zero scalar and an identity point add
nothing, two pairs of one point combine, and a list of one pair is the multiple. -/
def Obligations.MsmLaws : Prop :=
  (∀ l l' : List (Point Nat × Nat), (∀ e ∈ l, isG1 e.1 = true) → l.Perm l' → g1Sum l = g1Sum l') ∧
  (∀ l : List (Point Nat × Nat), (∀ e ∈ l, isG1 e.1 = true) → ∀ (P : Point Nat) (a b : Nat), isG1 P = true →
    g1Sum ((P, 0) :: l) = g1Sum l ∧ g1Sum ((.infinity, a) :: l) = g1Sum l ∧
    g1Sum ((P, a) :: (P, b) :: l) = g1Sum ((P, (a + b) % Config.r) :: l) ∧ g1Sum [(P, a)] = g1Times P a) ∧
  (∀ l l' : List (Point Fq2 × Nat), (∀ e ∈ l, isG2 e.1 = true) → l.Perm l' → g2Sum l = g2Sum l') ∧
  ∀ l : List (Point Fq2 × Nat), (∀ e ∈ l, isG2 e.1 = true) → ∀ (Q : Point Fq2) (a b : Nat), isG2 Q = true →
    g2Sum ((Q, 0) :: l) = g2Sum l ∧ g2Sum ((.infinity, a) :: l) = g2Sum l ∧
    g2Sum ((Q, a) :: (Q, b) :: l) = g2Sum ((Q, (a + b) % Config.r) :: l) ∧ g2Sum [(Q, a)] = g2Times Q a

/-- The constants of rules R11, R12, R14, R15, R17, R18 and R20 agree with one another: `r`, `p` and `h1` as functions of
`x_seed`; the numeric identity of rule R14 for `h1 * r` (no points are counted); its two points of small order; `b' = -1/5`;
`h2` has 502 bits and is no multiple of r, and `h2 * r` lies where the number of points of a curve over Fq2 must (the
Hasse interval, not of the spec); the final exponent; the generators lie in G1 and G2. -/
def Obligations.CurveConstants : Prop :=
  Config.r = Config.xSeed ^ 4 - Config.xSeed ^ 2 + 1 ∧
  3 * (Config.p - Config.xSeed) = (Config.xSeed - 1) ^ 2 * Config.r ∧
  Config.p + 1 - (Config.xSeed + 1) = Config.h1 * Config.r ∧ 3 * Config.h1 = (Config.xSeed - 1) ^ 2 ∧
  Config.h1 % Config.r ≠ 0 ∧
  (onE (.affine 0 1) = true ∧ g1Times (.affine 0 1) 3 = .infinity) ∧
  (onE (.affine (Config.p - 1) 0) = true ∧ g1Times (.affine (Config.p - 1) 0) 2 = .infinity) ∧
  (5 * Config.bTwistC1 + 1) % Config.p = 0 ∧
  Config.h2.log2 + 1 = 502 ∧ Config.h2 % Config.r ≠ 0 ∧
  Config.h2 * Config.r ≤ Config.p ^ 2 + 1 + 2 * Config.p ∧ Config.p ^ 2 + 1 ≤ Config.h2 * Config.r + 2 * Config.p ∧
  Config.finalExp * Config.r = Config.p ^ 12 - 1 ∧ Config.finalExp.log2 + 1 = 4269 ∧
  isG1 (.affine Config.gX Config.gY) = true ∧
  isG2 (.affine ⟨Config.hXc0, Config.hXc1⟩ ⟨Config.hYc0, Config.hYc1⟩) = true

/-! ### The codec -/

/-- Rule R142: for every valid Fr, G1 or G2 value, `decode(encode(v)) == v`. -/
def Obligations.CodecRoundTrip : Prop :=
  (∀ a, isFr a = true → decodeFr curveTables (encodeFr a) = .ok a) ∧
  (∀ P, isG1 P = true → decodeG1 curveTables (encodeG1 P) = .ok P) ∧
  (∀ Q, isG2 Q = true → decodeG2 curveTables (encodeG2 Q) = .ok Q)

/-- Canonicity (rules R109, R143): a byte string that decodes is the encoding of a valid value, so no two strings decode to
one value. -/
def Obligations.CodecCanonical : Prop :=
  (∀ b a, decodeFr curveTables b = .ok a → isFr a = true ∧ encodeFr a = b) ∧
  (∀ b P, decodeG1 curveTables b = .ok P → isG1 P = true ∧ encodeG1 P = b) ∧
  (∀ b Q, decodeG2 curveTables b = .ok Q → isG2 Q = true ∧ encodeG2 Q = b)

/-- Rule R144: what `decode` fails on, with the kinds of rule R130: a wrong length, an Fr value `>= r`, a point off the
curve, a point on the curve with `r * P != O`; and with those of rules R134 and R135 for what rule R109 excludes: a
coordinate `>= p`, a flag byte other than 0x00 and 0x01, and flag 0x01 before a body that is not zero. -/
def Obligations.DecodeRejects : Prop :=
  (∀ b : Bytes, (b.length ≠ 32 → decodeFr curveTables b = .error .invalidLength) ∧
    (b.length ≠ 97 → decodeG1 curveTables b = .error .invalidLength) ∧
    (b.length ≠ 193 → decodeG2 curveTables b = .error .invalidLength) ∧
    (b.length = 32 → Config.r ≤ beNat b → decodeFr curveTables b = .error .outOfRange)) ∧
  (∀ b : Bytes, b.length = 97 → ∀ x y, x = beNat (sliceBytes b 1 49) → y = beNat (sliceBytes b 49 97) →
    (Config.p ≤ x ∨ Config.p ≤ y → decodeG1 curveTables b = .error .outOfRange) ∧
    (x < Config.p → y < Config.p → flagByte b ≠ 0 → flagByte b ≠ 1 ∨ x ≠ 0 ∨ y ≠ 0 →
      decodeG1 curveTables b = .error .notOnCurve)) ∧
  (∀ b : Bytes, b.length = 193 → ∀ x0 x1 y0 y1, x0 = beNat (sliceBytes b 1 49) → x1 = beNat (sliceBytes b 49 97) →
      y0 = beNat (sliceBytes b 97 145) → y1 = beNat (sliceBytes b 145 193) →
    (Config.p ≤ x0 ∨ Config.p ≤ x1 ∨ Config.p ≤ y0 ∨ Config.p ≤ y1 → decodeG2 curveTables b = .error .outOfRange) ∧
    (x0 < Config.p → x1 < Config.p → y0 < Config.p → y1 < Config.p → flagByte b ≠ 0 →
      flagByte b ≠ 1 ∨ x0 ≠ 0 ∨ x1 ≠ 0 ∨ y0 ≠ 0 ∨ y1 ≠ 0 → decodeG2 curveTables b = .error .notOnCurve)) ∧
  (∀ x y : Nat, x < Config.p → y < Config.p →
    (y * y % Config.p ≠ (x * x * x + 1) % Config.p →
      decodeG1 curveTables (encodeG1 (.affine x y)) = .error .notOnCurve) ∧
    (y * y % Config.p = (x * x * x + 1) % Config.p → g1Times (.affine x y) Config.r ≠ .infinity →
      decodeG1 curveTables (encodeG1 (.affine x y)) = .error .notInSubgroup)) ∧
  ∀ x y : Fq2, x.c0 < Config.p → x.c1 < Config.p → y.c0 < Config.p → y.c1 < Config.p →
    (onTwist (.affine x y) = false → decodeG2 curveTables (encodeG2 (.affine x y)) = .error .notOnCurve) ∧
    (onTwist (.affine x y) = true → g2Times (.affine x y) Config.r ≠ .infinity →
      decodeG2 curveTables (encodeG2 (.affine x y)) = .error .notInSubgroup)

/-- Lists (rules R112, R141): every list of valid pairs decodes from its encoding; a buffer shorter than its count, or not
exactly `4 + N * stride` bytes, fails with `InvalidLength`; and the first failing element, in the order
a_0, b_0, a_1, b_1, ..., decides the kind. -/
def Obligations.ListCodec : Prop :=
  (∀ l, isG1FrList l = true → decodeG1FrList curveTables (encodeList encodeG1 encodeFr l) = .ok l) ∧
  (∀ l, isG2FrList l = true → decodeG2FrList curveTables (encodeList encodeG2 encodeFr l) = .ok l) ∧
  (∀ l, isG1G2List l = true → decodeG1G2List curveTables (encodeList encodeG1 encodeG2 l) = .ok l) ∧
  (FirstFailureDecides (decodeG1 curveTables) (decodeFr curveTables) 97 32 (decodeG1FrList curveTables) ∧
    FirstFailureDecides (decodeG2 curveTables) (decodeFr curveTables) 193 32 (decodeG2FrList curveTables) ∧
    FirstFailureDecides (decodeG1 curveTables) (decodeG2 curveTables) 97 193 (decodeG1G2List curveTables)) ∧
  ∀ b : Bytes,
    (b.length < 4 ∨ b.length ≠ 4 + beNat (b.take 4) * 129 → decodeG1FrList curveTables b = .error .invalidLength) ∧
    (b.length < 4 ∨ b.length ≠ 4 + beNat (b.take 4) * 225 → decodeG2FrList curveTables b = .error .invalidLength) ∧
    (b.length < 4 ∨ b.length ≠ 4 + beNat (b.take 4) * 290 → decodeG1G2List curveTables b = .error .invalidLength)

/-! ### Memory as the host reaches it -/

/-- Host accesses to `M` (rules R30, R46, R47, R302): at an address of `MAP` a store puts that byte there and changes no
other byte, no register of any port, neither `INIT_DONE` nor `TABLES` nor the platform; a load changes nothing and returns
the byte that the core reads there.  Outside `MAP` there is no byte: the model stops there (assumption 8). -/
def Obligations.HostMemoryAccess : Prop :=
  ∀ (s : State) (a : Nat) (b : Byte), Invariant s →
    (inMap s.map a = true →
      (∃ t, hostAct (.storeByte a b) s = .next t ∧ hostLoadByte t a = some b ∧
        (∀ a', a' ≠ a → hostLoadByte t a' = hostLoadByte s a') ∧
        t.ports = s.ports ∧ t.initDone = s.initDone ∧ t.tables = s.tables ∧ t.map = s.map ∧
        t.callPort = s.callPort ∧ t.pending = s.pending ∧ t.resets = s.resets) ∧
      hostAct (.loadByte a) s = .next s ∧ hostLoadByte s a = some (s.mem.read a)) ∧
    (inMap s.map a = false →
      hostAct (.storeByte a b) s = .fault .noSuchAddress ∧ hostAct (.loadByte a) s = .fault .noSuchAddress ∧
        hostLoadByte s a = none)
end

