-- ==== Sys2Proof/Laws/Codec.lean ====
section
/-! SUPPORT. Big-endian integers (rules R21, R65): the two directions of `be`, and the lengths of the encodings. -/

namespace Sys2Proof.Machine

@[simp] theorem length_beBytes (n v : Nat) : (beBytes n v).length = n := by
  induction n with
  | zero => rfl
  | succ n ih => simp [beBytes, ih]

theorem foldl_be (b : Bytes) (acc : Nat) :
    b.foldl (fun acc (x : Byte) => acc * 256 + x.toNat) acc = acc * 256 ^ b.length + beNat b := by
  induction b generalizing acc with
  | nil => simp [beNat]
  | cons x xs ih =>
    simp only [beNat, List.foldl_cons, List.length_cons]
    rw [ih, ih (0 * 256 + x.toNat)]
    ring

@[simp] theorem beNat_nil : beNat [] = 0 := rfl

theorem beNat_cons (x : Byte) (b : Bytes) : beNat (x :: b) = x.toNat * 256 ^ b.length + beNat b := by
  rw [beNat, List.foldl_cons, foldl_be]; simp

theorem beNat_lt (b : Bytes) : beNat b < 256 ^ b.length := by
  induction b with
  | nil => simp
  | cons x b ih =>
    rw [beNat_cons, List.length_cons, pow_succ]
    have := x.isLt
    nlinarith

/-- `be(be_n(v)) = v mod 256^n`. -/
theorem beNat_beBytes (n v : Nat) : beNat (beBytes n v) = v % 256 ^ n := by
  induction n with
  | zero => simp [beBytes, Nat.mod_one]
  | succ n ih =>
    rw [beBytes, beNat_cons, length_beBytes, ih, BitVec.toNat_ofNat, show (2 : Nat) ^ 8 = 256 from rfl,
      Nat.pow_succ, Nat.mod_mul, Nat.mul_comm, Nat.add_comm]

theorem beNat_beBytes_of_lt {n v : Nat} (h : v < 256 ^ n) : beNat (beBytes n v) = v := by
  rw [beNat_beBytes, Nat.mod_eq_of_lt h]

theorem beBytes_mod (n k v : Nat) (h : n ≤ k) : beBytes n (v % 256 ^ k) = beBytes n v := by
  induction n with
  | zero => rfl
  | succ n ih =>
    rw [beBytes, beBytes, ih (by omega)]
    congr 1
    apply BitVec.eq_of_toNat_eq
    obtain ⟨m, rfl⟩ : ∃ m, k = n + (m + 1) := ⟨k - n - 1, by omega⟩
    rw [BitVec.toNat_ofNat, BitVec.toNat_ofNat, pow_add, Nat.mod_mul_right_div_self, pow_succ 256 m,
      Nat.mod_mul_left_mod]

/-- `be_n(be(b)) = b` for `n` bytes. -/
theorem beBytes_beNat (b : Bytes) : beBytes b.length (beNat b) = b := by
  induction b with
  | nil => rfl
  | cons x b ih =>
    have hlt := beNat_lt b
    have hpos : 0 < 256 ^ b.length := Nat.pow_pos (by omega)
    rw [List.length_cons, beBytes, beNat_cons]
    have h1 : (x.toNat * 256 ^ b.length + beNat b) / 256 ^ b.length = x.toNat := by
      rw [Nat.add_comm, Nat.add_mul_div_right _ _ hpos, Nat.div_eq_of_lt hlt, Nat.zero_add]
    have h2 : beBytes b.length (x.toNat * 256 ^ b.length + beNat b) = b := by
      rw [← beBytes_mod b.length b.length _ (Nat.le_refl _), Nat.mul_comm, Nat.mul_add_mod, Nat.mod_eq_of_lt hlt, ih]
    rw [h1, h2, BitVec.ofNat_toNat, BitVec.setWidth_eq]

@[simp] theorem length_encodeFr (a : Nat) : (encodeFr a).length = 32 := length_beBytes _ _

@[simp] theorem length_encodeG1 (P : Point Nat) : (encodeG1 P).length = 97 := by
  cases P with
  | infinity => rfl
  | affine x y => simp only [encodeG1, List.length_cons, List.length_append, length_beBytes]; rfl

@[simp] theorem length_encodeG2 (Q : Point Fq2) : (encodeG2 Q).length = 193 := by
  cases Q with
  | infinity => rfl
  | affine x y => simp only [encodeG2, encodeFq2, List.length_cons, List.length_append, length_beBytes]; rfl

@[simp] theorem length_encodeBool (v : Bool) : (encodeBool v).length = 1 := rfl

end Sys2Proof.Machine
end

