-- ==== Sys2Proof/Laws/Memory.lean ====
section
/-! SUPPORT. Laws of the buffer memory: read after write, the frame of a write, the canonical form, the domain. -/

namespace Sys2Proof.Machine

/-! ### One byte -/

theorem Memory.wf_nil : Memory.wf [] := ⟨List.Pairwise.nil, fun _ h => nomatch h⟩

theorem Memory.read_of_lt {m : Memory} {a : Nat} (h : ∀ c ∈ m, a < c.1) : m.read a = Config.unlistedByte := by
  induction m with
  | nil => rfl
  | cons c rest ih =>
    have h1 := h c (by simp)
    rw [Memory.read, if_neg (by omega)]
    exact ih fun d hd => h d (by simp [hd])

/-- What a byte reads as after a write (rules R62, R63). -/
theorem Memory.read_write {m : Memory} (hm : m.wf) (a : Nat) (b : Byte) (a' : Nat) :
    (m.write a b).read a' = if a' = a then b else m.read a' := by
  induction m with
  | nil =>
    by_cases hb : b = Config.unlistedByte <;> by_cases ha : a' = a
    · simp [Memory.write, Memory.read, hb]
    · simp [Memory.write, Memory.read, hb]
    · simp [Memory.write, Memory.read, hb, ha]
    · simp [Memory.write, Memory.read, hb, ha, Ne.symm ha]
  | cons c rest ih =>
    obtain ⟨k, v⟩ := c
    have hlt : ∀ c ∈ rest, k < c.1 := fun c hc => (List.pairwise_cons.1 hm.1).1 c hc
    have hrest : Memory.wf rest := ⟨(List.pairwise_cons.1 hm.1).2, fun c hc => hm.2 c (by simp [hc])⟩
    by_cases h1 : k < a
    · simp only [Memory.write, h1, if_true, Memory.read, ih hrest]
      by_cases ha : a' = a
      · subst ha; simp [show k ≠ a' by omega]
      · simp [ha]
    · by_cases h2 : k = a
      · subst h2
        by_cases hb : b = Config.unlistedByte
        · by_cases ha : a' = k
          · subst ha; simp [Memory.write, hb, Memory.read_of_lt hlt]
          · simp [Memory.write, hb, ha, Memory.read, Ne.symm ha]
        · by_cases ha : a' = k
          · subst ha; simp [Memory.write, hb, Memory.read]
          · simp [Memory.write, hb, ha, Memory.read, Ne.symm ha]
      · by_cases hb : b = Config.unlistedByte
        · by_cases ha : a' = a
          · subst ha
            have : Memory.read ((k, v) :: rest) a' = Config.unlistedByte :=
              Memory.read_of_lt fun c hc => by
                rcases List.mem_cons.1 hc with rfl | hc
                · show a' < k; omega
                · have := hlt c hc; omega
            simp [Memory.write, h1, h2, hb, this]
          · simp [Memory.write, h1, h2, hb, ha]
        · by_cases ha : a' = a
          · subst ha; simp [Memory.write, h1, h2, hb, Memory.read]
          · simp [Memory.write, h1, h2, hb, ha, Memory.read, Ne.symm ha]

theorem Memory.mem_write {m : Memory} {a : Nat} {b : Byte} {c : Host.Cell} (h : c ∈ m.write a b) :
    c ∈ m ∨ (c = (a, b) ∧ b ≠ Config.unlistedByte) := by
  induction m with
  | nil =>
    by_cases hb : b = Config.unlistedByte <;> simp_all [Memory.write]
  | cons d rest ih =>
    obtain ⟨k, v⟩ := d
    by_cases h1 : k < a
    · simp only [Memory.write, h1, if_true, List.mem_cons] at h
      rcases h with rfl | h
      · simp
      · rcases ih h with h | h
        · exact .inl (by simp [h])
        · exact .inr h
    · by_cases h2 : k = a <;> by_cases hb : b = Config.unlistedByte <;>
        simp [Memory.write, h1, h2, hb] at h ⊢ <;> tauto

/-- A write keeps the canonical form. -/
theorem Memory.wf_write {m : Memory} (hm : m.wf) (a : Nat) (b : Byte) : (m.write a b).wf := by
  refine ⟨?_, fun c hc => ?_⟩
  · induction m with
    | nil => by_cases hb : b = Config.unlistedByte <;> simp [Memory.write, hb]
    | cons d rest ih =>
      obtain ⟨k, v⟩ := d
      have hlt := (List.pairwise_cons.1 hm.1).1
      have hp := (List.pairwise_cons.1 hm.1).2
      by_cases h1 : k < a
      · simp only [Memory.write, h1, if_true]
        refine List.pairwise_cons.2 ⟨fun c hc => ?_, ih ⟨hp, fun c hc => hm.2 c (by simp [hc])⟩⟩
        rcases Memory.mem_write hc with hc | ⟨rfl, -⟩
        · exact hlt c hc
        · exact h1
      · have hall : ∀ c ∈ (if k = a then rest else (k, v) :: rest), a < c.1 := by
          intro c hc
          split at hc
          · next h => subst h; exact hlt c hc
          · next h =>
            rcases List.mem_cons.1 hc with rfl | hc
            · show a < k; omega
            · have : k < c.1 := hlt c hc
              omega
        have htail : (if k = a then rest else (k, v) :: rest).Pairwise (fun x y => x.1 < y.1) := by
          split
          · exact hp
          · exact hm.1
        simp only [Memory.write, h1, if_false]
        split
        · exact htail
        · exact List.pairwise_cons.2 ⟨hall, htail⟩
  · rcases Memory.mem_write hc with hc | ⟨rfl, hb⟩
    · exact hm.2 c hc
    · exact hb

/-! ### Byte strings -/

@[simp] theorem length_memRead (m : Memory) (ptr len : Nat) : (memRead m ptr len).length = len := by
  simp [memRead]

/-- Byte `i` of `MemRead(P, L)` is `M[P + i]` (rule R62). -/
theorem getElem_memRead (m : Memory) (ptr len i : Nat) (h : i < (memRead m ptr len).length) :
    (memRead m ptr len)[i] = m.read (ptr + i) := by
  simp [memRead]

theorem memRead_congr {m m' : Memory} {ptr len : Nat} (h : ∀ i < len, m.read (ptr + i) = m'.read (ptr + i)) :
    memRead m ptr len = memRead m' ptr len := by
  simp only [memRead]
  exact List.map_congr_left fun i hi => h i (List.mem_range.1 hi)

theorem wf_memWrite {m : Memory} (hm : m.wf) (ptr : Nat) (bs : Bytes) : (memWrite m ptr bs).wf := by
  induction bs generalizing m ptr with
  | nil => exact hm
  | cons b bs ih => exact ih (Memory.wf_write hm _ _) _

/-- What a byte reads as after `MemWrite(P, L, v)`: `v[i]` at `P + i`, as before elsewhere (rule R63). -/
theorem read_memWrite {m : Memory} (hm : m.wf) (ptr : Nat) (bs : Bytes) (a : Nat) :
    (memWrite m ptr bs).read a = if ptr ≤ a then bs.getD (a - ptr) (m.read a) else m.read a := by
  induction bs generalizing m ptr with
  | nil => simp [memWrite]
  | cons b bs ih =>
    rw [memWrite, ih (Memory.wf_write hm _ _), Memory.read_write hm]
    rcases Nat.lt_trichotomy a ptr with h | h | h
    · rw [if_neg (by omega), if_neg (by omega), if_neg (by omega)]
    · subst h; simp
    · rw [if_pos (by omega), if_neg (by omega), if_pos (by omega),
        show a - ptr = (a - (ptr + 1)) + 1 by omega, List.getD_cons_succ]

theorem read_memWrite_outside {m : Memory} (hm : m.wf) (ptr : Nat) (bs : Bytes) {a : Nat}
    (ha : a < ptr ∨ ptr + bs.length ≤ a) : (memWrite m ptr bs).read a = m.read a := by
  rw [read_memWrite hm]
  split
  · rw [List.getD_eq_getElem?_getD, List.getElem?_eq_none (by omega)]; rfl
  · rfl

/-- Reading back what was written (rules R62, R63). -/
theorem memRead_memWrite {m : Memory} (hm : m.wf) (ptr : Nat) (bs : Bytes) :
    memRead (memWrite m ptr bs) ptr bs.length = bs := by
  refine List.ext_getElem (by simp) fun i h1 h2 => ?_
  rw [getElem_memRead, read_memWrite hm, if_pos (by omega), Nat.add_sub_cancel_left]
  simp [List.getD_eq_getElem?_getD, h2]

/-! ### The domain `MAP` -/

theorem mem_memWrite {m : Memory} {ptr : Nat} {bs : Bytes} {c : Host.Cell} (h : c ∈ memWrite m ptr bs) :
    c ∈ m ∨ (ptr ≤ c.1 ∧ c.1 < ptr + bs.length) := by
  induction bs generalizing m ptr with
  | nil => exact .inl h
  | cons b bs ih =>
    rcases ih h with h | h
    · rcases Memory.mem_write h with h | ⟨rfl, -⟩
      · exact .inl h
      · exact .inr ⟨Nat.le_refl _, by simp⟩
    · exact .inr ⟨by omega, by rw [List.length_cons]; omega⟩

theorem allInMap_iff (map : List Region) (ptr len : Nat) :
    allInMap map ptr len = true ↔ ∀ a, ptr ≤ a → a < ptr + len → inMap map a = true := by
  induction len generalizing ptr with
  | zero => simp [allInMap]; intro a h1 h2; omega
  | succ n ih =>
    rw [allInMap, Bool.and_eq_true, ih]
    constructor
    · rintro ⟨h, hr⟩ a h1 h2
      rcases Nat.eq_or_lt_of_le h1 with rfl | h3
      · exact h
      · exact hr a h3 (by omega)
    · exact fun h => ⟨h ptr (Nat.le_refl _) (by omega), fun a h1 h2 => h a (by omega) (by omega)⟩

/-- Rule R61's admission, address by address. -/
theorem admitted_iff (map : List Region) (ptr len : Nat) :
    admitted map ptr len = true ↔
      ptr + len ≤ 2 ^ 64 ∧ ∀ a, ptr ≤ a → a < ptr + len → inMap map a = true := by
  rw [admitted, Bool.and_eq_true, allInMap_iff, decide_eq_true_iff]

/-! ### The content after reset -/

theorem wf_freeRegion {m : Memory} (hm : m.wf) (n base size : Nat) : (freeRegion n m base size).wf := by
  induction size generalizing m base with
  | zero => exact hm
  | succ k ih => exact ih (Memory.wf_write hm _ _) _

theorem mem_freeRegion {m : Memory} {n base size : Nat} {c : Host.Cell} (h : c ∈ freeRegion n m base size) :
    c ∈ m ∨ (base ≤ c.1 ∧ c.1 < base + size) := by
  induction size generalizing m base with
  | zero => exact .inl h
  | succ k ih =>
    rcases ih h with h | h
    · rcases Memory.mem_write h with h | ⟨rfl, -⟩
      · exact .inl h
      · exact .inr ⟨Nat.le_refl _, by show base < base + (k + 1); omega⟩
    · exact .inr ⟨by omega, by omega⟩

theorem foldl_freeRegion (n : Nat) (map' : List Region) (m : Memory) (hm : m.wf) :
    (map'.foldl (fun m g => freeRegion n m g.base g.size) m).wf ∧
      ∀ c ∈ map'.foldl (fun m g => freeRegion n m g.base g.size) m, c ∈ m ∨ inMap map' c.1 = true := by
  induction map' generalizing m with
  | nil => exact ⟨hm, fun c hc => .inl hc⟩
  | cons g rest ih =>
    obtain ⟨h1, h2⟩ := ih (freeRegion n m g.base g.size) (wf_freeRegion hm _ _ _)
    refine ⟨h1, fun c hc => ?_⟩
    rcases h2 c hc with hc | hc
    · rcases mem_freeRegion hc with hc | hc
      · exact .inl hc
      · exact .inr (by simp [inMap, hc])
    · right
      simp only [inMap, List.any_cons, Bool.or_eq_true] at hc ⊢
      exact .inr hc

theorem wf_unspecifiedMemory (map : List Region) (n : Nat) : (unspecifiedMemory map n).wf :=
  (foldl_freeRegion n map [] Memory.wf_nil).1

theorem mem_unspecifiedMemory {map : List Region} {n : Nat} {c : Host.Cell} (h : c ∈ unspecifiedMemory map n) :
    inMap map c.1 = true := by
  rcases (foldl_freeRegion n map [] Memory.wf_nil).2 c h with h | h
  · simp at h
  · exact h

end Sys2Proof.Machine
end

