-- ==== Sys2Proof/Laws/State.lean ====
section
/-! SUPPORT. One lemma per field per update of the state, each true by `rfl`, so that no proof unfolds a record update. -/

namespace Sys2Proof.Machine

variable (s : State) (b : Bool) (pt : Port)

/-! ### `withOk` -/

@[simp] theorem withOk_ok : (withOk b pt).ok = b := rfl
@[simp] theorem withOk_cw : (withOk b pt).cw = pt.cw := rfl
@[simp] theorem withOk_s0p : (withOk b pt).s0p = pt.s0p := rfl
@[simp] theorem withOk_s0l : (withOk b pt).s0l = pt.s0l := rfl
@[simp] theorem withOk_s1p : (withOk b pt).s1p = pt.s1p := rfl
@[simp] theorem withOk_s1l : (withOk b pt).s1l = pt.s1l := rfl
@[simp] theorem withOk_dp : (withOk b pt).dp = pt.dp := rfl
@[simp] theorem withOk_dl : (withOk b pt).dl = pt.dl := rfl
@[simp] theorem withOk_withOk (c : Bool) : withOk b (withOk c pt) = withOk b pt := rfl

/-! ### `setOk` -/

@[simp] theorem setOk_initDone : (setOk b s).initDone = s.initDone := rfl
@[simp] theorem setOk_tables : (setOk b s).tables = s.tables := rfl
@[simp] theorem setOk_ports : (setOk b s).ports = s.ports.modify s.callPort (withOk b) := rfl
@[simp] theorem setOk_mem : (setOk b s).mem = s.mem := rfl
@[simp] theorem setOk_map : (setOk b s).map = s.map := rfl
@[simp] theorem setOk_callPort : (setOk b s).callPort = s.callPort := rfl
@[simp] theorem setOk_pending : (setOk b s).pending = s.pending := rfl
@[simp] theorem setOk_resets : (setOk b s).resets = s.resets := rfl

/-! ### `storeCw` -/

variable (port : Nat) (w : Word32)

@[simp] theorem storeCw_initDone : (storeCw port w s).initDone = s.initDone := rfl
@[simp] theorem storeCw_tables : (storeCw port w s).tables = s.tables := rfl
@[simp] theorem storeCw_ports :
    (storeCw port w s).ports = s.ports.modify port (fun pt => { pt with cw := w }) := rfl
@[simp] theorem storeCw_mem : (storeCw port w s).mem = s.mem := rfl
@[simp] theorem storeCw_map : (storeCw port w s).map = s.map := rfl
@[simp] theorem storeCw_callPort : (storeCw port w s).callPort = port := rfl
@[simp] theorem storeCw_pending : (storeCw port w s).pending = s.pending := rfl
@[simp] theorem storeCw_resets : (storeCw port w s).resets = s.resets := rfl

/-! ### `afterSuccess` and `afterFailure` -/

variable (bytes : Bytes)

@[simp] theorem afterSuccess_initDone : (afterSuccess s pt bytes).initDone = s.initDone := rfl
@[simp] theorem afterSuccess_tables : (afterSuccess s pt bytes).tables = s.tables := rfl
@[simp] theorem afterSuccess_ports :
    (afterSuccess s pt bytes).ports = s.ports.modify s.callPort (withOk true) := rfl
@[simp] theorem afterSuccess_mem : (afterSuccess s pt bytes).mem = memWrite s.mem pt.dp.toNat bytes := rfl
@[simp] theorem afterSuccess_map : (afterSuccess s pt bytes).map = s.map := rfl
@[simp] theorem afterSuccess_callPort : (afterSuccess s pt bytes).callPort = s.callPort := rfl
@[simp] theorem afterSuccess_pending : (afterSuccess s pt bytes).pending = s.pending := rfl
@[simp] theorem afterSuccess_resets : (afterSuccess s pt bytes).resets = s.resets := rfl

@[simp] theorem afterFailure_initDone : (afterFailure s).initDone = s.initDone := rfl
@[simp] theorem afterFailure_tables : (afterFailure s).tables = s.tables := rfl
@[simp] theorem afterFailure_ports : (afterFailure s).ports = s.ports.modify s.callPort (withOk false) := rfl
@[simp] theorem afterFailure_mem : (afterFailure s).mem = s.mem := rfl
@[simp] theorem afterFailure_map : (afterFailure s).map = s.map := rfl
@[simp] theorem afterFailure_callPort : (afterFailure s).callPort = s.callPort := rfl
@[simp] theorem afterFailure_pending : (afterFailure s).pending = s.pending := rfl
@[simp] theorem afterFailure_resets : (afterFailure s).resets = s.resets := rfl

/-! ### `initShared` -/

@[simp] theorem initShared_initDone : (initShared s).initDone = true := by
  unfold initShared; split <;> simp_all
@[simp] theorem initShared_ports : (initShared s).ports = s.ports := by unfold initShared; split <;> rfl
@[simp] theorem initShared_mem : (initShared s).mem = s.mem := by unfold initShared; split <;> rfl
@[simp] theorem initShared_map : (initShared s).map = s.map := by unfold initShared; split <;> rfl
@[simp] theorem initShared_callPort : (initShared s).callPort = s.callPort := by unfold initShared; split <;> rfl
@[simp] theorem initShared_pending : (initShared s).pending = s.pending := by unfold initShared; split <;> rfl
@[simp] theorem initShared_resets : (initShared s).resets = s.resets := by unfold initShared; split <;> rfl

theorem initShared_tables : (initShared s).tables = if s.initDone then s.tables else some curveTables := by
  unfold initShared; split <;> rfl

/-! ### `resetCore` -/

@[simp] theorem resetCore_initDone : (resetCore s).initDone = false := rfl
@[simp] theorem resetCore_tables : (resetCore s).tables = none := rfl
@[simp] theorem resetCore_ports : (resetCore s).ports = List.replicate s.ports.length Port.reset := rfl
@[simp] theorem resetCore_mem : (resetCore s).mem = unspecifiedMemory s.map (s.resets + 1) := rfl
@[simp] theorem resetCore_map : (resetCore s).map = s.map := rfl
@[simp] theorem resetCore_callPort : (resetCore s).callPort = 0 := rfl
@[simp] theorem resetCore_pending : (resetCore s).pending = s.pending := rfl
@[simp] theorem resetCore_resets : (resetCore s).resets = s.resets + 1 := rfl

/-! ### Slots -/

@[simp] theorem writeSlot_cw (x : Slot) (v : Word64) : (writeSlot x v pt).cw = pt.cw := by cases x <;> rfl
@[simp] theorem writeSlot_ok (x : Slot) (v : Word64) : (writeSlot x v pt).ok = pt.ok := by cases x <;> rfl
theorem readSlot_writeSlot (x y : Slot) (v : Word64) :
    readSlot (writeSlot x v pt) y = if y = x then v else readSlot pt y := by cases x <;> cases y <;> rfl

/-! ### Ports -/

theorem getElem?_setOk (q : Nat) :
    (setOk b s).ports[q]? = if q = s.callPort then (s.ports[q]?).map (withOk b) else s.ports[q]? := by
  rw [setOk_ports, List.getElem?_modify]
  by_cases h : q = s.callPort
  · subst h; simp
  · simp [h, Ne.symm h]

end Sys2Proof.Machine
end

