-- ==== Sys2Proof/Laws/Call.lean ====
section
/-! SUPPORT. What a call can do, said once (rules R292, R296, R297): every command but INIT is the call algorithm over its
engine, and a call ends in one of two next states.  Later proofs cite these lemmas and unfold no `exec`. -/

namespace Sys2Proof.Machine

/-- Every command but INIT is the call algorithm of rule R292 over its operand forms and its engine. -/
theorem exec_eq_runCall {i : Instr} (h : i ≠ .init) (s : State) :
    exec i s = runCall (operandsOf i) (engineOf i) s := by
  cases i <;> first | exact absurd rfl h | rfl

/-- INIT (rule R300). -/
theorem exec_init {s : State} {pt : Port} (hp : s.ports[s.callPort]? = some pt) :
    exec .init s = .next (setOk true (initShared s)) := by
  show execInit s = _
  simp [execInit, hp]

/-- The two ends of a call: the result's bytes are written and OK is 1, or only OK changes, to 0. -/
theorem exec_eq {i : Instr} (h : i ≠ .init) {s : State} {pt : Port} (hp : s.ports[s.callPort]? = some pt) :
    exec i s = .next (match commandResult i s pt with
      | .error _ => afterFailure s
      | .ok bytes => afterSuccess s pt bytes) := by
  rw [exec_eq_runCall h, runCall, hp]
  simp only [commandResult]
  cases callResult (operandsOf i) (engineOf i) s pt <;> rfl

theorem exec_of_ok {i : Instr} (h : i ≠ .init) {s : State} {pt : Port} {bytes : Bytes}
    (hp : s.ports[s.callPort]? = some pt) (hr : commandResult i s pt = .ok bytes) :
    exec i s = .next (afterSuccess s pt bytes) := by rw [exec_eq h hp, hr]

theorem exec_of_error {i : Instr} (h : i ≠ .init) {s : State} {pt : Port} {k : ErrorKind}
    (hp : s.ports[s.callPort]? = some pt) (hr : commandResult i s pt = .error k) :
    exec i s = .next (afterFailure s) := by rw [exec_eq h hp, hr]

/-- Without a calling port nothing runs. -/
theorem exec_noPort {s : State} (i : Instr) (hp : s.ports[s.callPort]? = none) : exec i s = .fault .noSuchPort := by
  by_cases h : i = .init
  · subst h; show execInit s = _; simp [execInit, hp]
  · rw [exec_eq_runCall h, runCall, hp]

/-- The calling port of a command that answers a next state exists. -/
theorem exists_port_of_next {i : Instr} {s t : State} (h : exec i s = .next t) : ∃ pt, s.ports[s.callPort]? = some pt := by
  cases hp : s.ports[s.callPort]? with
  | none => rw [exec_noPort i hp] at h; exact nomatch h
  | some pt => exact ⟨pt, rfl⟩

/-- Everything a command can do when it answers a next state. -/
theorem exec_cases {i : Instr} {s t : State} (h : exec i s = .next t) :
    ∃ pt, s.ports[s.callPort]? = some pt ∧
      ((i = .init ∧ t = setOk true (initShared s)) ∨
       (i ≠ .init ∧ ∃ k, commandResult i s pt = .error k ∧ t = afterFailure s) ∨
       (i ≠ .init ∧ ∃ bytes, commandResult i s pt = .ok bytes ∧ t = afterSuccess s pt bytes)) := by
  obtain ⟨pt, hp⟩ := exists_port_of_next h
  refine ⟨pt, hp, ?_⟩
  by_cases hi : i = .init
  · subst hi
    rw [exec_init hp] at h
    exact .inl ⟨rfl, (Host.Outcome.next.inj h).symm⟩
  · cases hr : commandResult i s pt with
    | error k => rw [exec_of_error hi hp hr] at h; exact .inr (.inl ⟨hi, k, rfl, (Host.Outcome.next.inj h).symm⟩)
    | ok bytes => rw [exec_of_ok hi hp hr] at h; exact .inr (.inr ⟨hi, bytes, rfl, (Host.Outcome.next.inj h).symm⟩)

/-- A call that passes steps 3 to 5 is its engine on the source bytes. -/
theorem commandResult_of_ready {i : Instr} {s : State} {pt : Port} (h : Ready i s pt) :
    commandResult i s pt = engineOf i (some curveTables)
      (sourceBytes s.mem (operandsOf i).s0 pt.s0p.toNat pt.s0l.toNat)
      (sourceBytes s.mem (operandsOf i).s1 pt.s1p.toNat pt.s1l.toNat) := by
  obtain ⟨-, h1, h2, h3, h4⟩ := h
  simp [commandResult, callResult, precheck, h1, h2, h3, h4]

/-- A call of an initialised core that does not pass steps 4 and 5 fails. -/
theorem commandResult_of_not_ready {i : Instr} {s : State} {pt : Port} (hp : s.ports[s.callPort]? = some pt)
    (ht : s.tables = if s.initDone then some curveTables else none) (h : ¬ Ready i s pt) :
    ∃ k, commandResult i s pt = .error k := by
  cases h1 : s.initDone with
  | false => exact ⟨_, by simp [commandResult, callResult, precheck, h1]; rfl⟩
  | true =>
    have h2 : s.tables = some curveTables := by simpa [h1] using ht
    cases h3 : lengthsOk (operandsOf i) pt with
    | false => exact ⟨_, by simp [commandResult, callResult, precheck, h1, h3]; rfl⟩
    | true =>
      cases h4 : addressesOk (operandsOf i) s.map pt with
      | false => exact ⟨_, by simp [commandResult, callResult, precheck, h1, h3, h4]; rfl⟩
      | true => exact absurd ⟨hp, h1, h2, h3, h4⟩ h

/-- The result of a call that succeeded passed steps 3 to 5. -/
theorem ready_of_ok {i : Instr} {s : State} {pt : Port} {bytes : Bytes} (hp : s.ports[s.callPort]? = some pt)
    (ht : s.tables = if s.initDone then some curveTables else none) (hr : commandResult i s pt = .ok bytes) :
    Ready i s pt := by
  by_contra h
  obtain ⟨k, hk⟩ := commandResult_of_not_ready hp ht h
  rw [hk] at hr
  exact nomatch hr

/-- A command on an existing port answers a next state. -/
theorem exists_next {s : State} {pt : Port} (i : Instr) (hp : s.ports[s.callPort]? = some pt) :
    ∃ t, exec i s = .next t := by
  by_cases h : i = .init
  · subst h; exact ⟨_, exec_init hp⟩
  · exact ⟨_, exec_eq h hp⟩

/-! ### Engines -/

/-- Step 8 with the tables there. -/
@[simp] theorem computeResult_some {γ : Type} (enc : γ → Bytes) (f : Tables → Except ErrorKind γ) (T : Tables) :
    computeResult enc f (some T) = (f T).map enc := rfl

/-- A step 8 that succeeded encoded a value. -/
theorem computeResult_ok {γ : Type} {enc : γ → Bytes} {f : Tables → Except ErrorKind γ} {tables : Option Tables}
    {bytes : Bytes} (h : computeResult enc f tables = .ok bytes) : ∃ v, bytes = enc v := by
  cases tables with
  | none => exact nomatch h
  | some T =>
    rw [computeResult_some] at h
    cases hv : f T with
    | error k => rw [hv] at h; exact nomatch h
    | ok v => rw [hv] at h; exact ⟨v, (Except.ok.inj h).symm⟩

theorem engine0_ok {γ : Type} {enc : γ → Bytes} {f : Tables → γ} {tables : Option Tables} (b0 b1 : Bytes) {bytes : Bytes}
    (h : engine0 enc f tables b0 b1 = .ok bytes) : ∃ v, bytes = enc v := computeResult_ok h

theorem engine1_ok {α γ : Type} {dec : Tables → Bytes → Except ErrorKind α} {enc : γ → Bytes}
    {f : Tables → α → Except ErrorKind γ} {tables : Option Tables} (b0 b1 : Bytes) {bytes : Bytes}
    (h : engine1 dec enc f tables b0 b1 = .ok bytes) : ∃ v, bytes = enc v := by
  unfold engine1 at h
  split at h
  · exact nomatch h
  · exact computeResult_ok h

theorem engine2_ok {α β γ : Type} {decA : Tables → Bytes → Except ErrorKind α} {decB : Tables → Bytes → Except ErrorKind β}
    {enc : γ → Bytes} {f : Tables → α → β → Except ErrorKind γ} {tables : Option Tables} (b0 b1 : Bytes)
    {bytes : Bytes}
    (h : engine2 decA decB enc f tables b0 b1 = .ok bytes) : ∃ v, bytes = enc v := by
  unfold engine2 at h
  split at h
  · exact nomatch h
  · split at h
    · exact nomatch h
    · exact computeResult_ok h

/-- A first source that does not decode decides the kind, whatever the second holds (rule R292 step 7). -/
theorem engine2_first_error {α β γ : Type} {decA : Tables → Bytes → Except ErrorKind α}
    {decB : Tables → Bytes → Except ErrorKind β} {enc : γ → Bytes} {f : Tables → α → β → Except ErrorKind γ}
    {tables : Option Tables} {b0 b1 : Bytes} {k : ErrorKind} (h : decA curveTables b0 = .error k) :
    engine2 decA decB enc f tables b0 b1 = .error k := by simp only [engine2, h]

/-- A second source that does not decode decides it when the first decodes. -/
theorem engine2_second_error {α β γ : Type} {decA : Tables → Bytes → Except ErrorKind α}
    {decB : Tables → Bytes → Except ErrorKind β} {enc : γ → Bytes} {f : Tables → α → β → Except ErrorKind γ}
    {tables : Option Tables} {b0 b1 : Bytes} {a : α} {k : ErrorKind} (h0 : decA curveTables b0 = .ok a)
    (h1 : decB curveTables b1 = .error k) : engine2 decA decB enc f tables b0 b1 = .error k := by
  simp only [engine2, h0, h1]

/-- Where the kind of a failure comes from, with the tables there: the decoding of the source or the command's function. -/
theorem engine1_error {α γ : Type} {dec : Tables → Bytes → Except ErrorKind α} {enc : γ → Bytes}
    {f : Tables → α → Except ErrorKind γ} (T : Tables) (b0 b1 : Bytes) {k : ErrorKind}
    (h : engine1 dec enc f (some T) b0 b1 = .error k) :
    dec curveTables b0 = .error k ∨ ∃ a, dec curveTables b0 = .ok a ∧ f T a = .error k := by
  unfold engine1 at h
  split at h
  · next e => exact .inl (e.trans (congrArg Except.error (Except.error.inj h)))
  · next a e =>
    rw [computeResult_some] at h
    cases hf : f T a with
    | ok v => rw [hf] at h; exact nomatch h
    | error k' => rw [hf] at h; exact .inr ⟨a, e, hf.trans (congrArg Except.error (Except.error.inj h))⟩

/-- The same for two sources. -/
theorem engine2_error {α β γ : Type} {decA : Tables → Bytes → Except ErrorKind α}
    {decB : Tables → Bytes → Except ErrorKind β} {enc : γ → Bytes} {f : Tables → α → β → Except ErrorKind γ} (T : Tables)
    (b0 b1 : Bytes) {k : ErrorKind} (h : engine2 decA decB enc f (some T) b0 b1 = .error k) :
    decA curveTables b0 = .error k ∨ ∃ a, decA curveTables b0 = .ok a ∧
      (decB curveTables b1 = .error k ∨ ∃ b, decB curveTables b1 = .ok b ∧ f T a b = .error k) := by
  unfold engine2 at h
  split at h
  · next e => exact .inl (e.trans (congrArg Except.error (Except.error.inj h)))
  · next a e =>
    refine .inr ⟨a, e, ?_⟩
    split at h
    · next e' => exact .inl (e'.trans (congrArg Except.error (Except.error.inj h)))
    · next b e' =>
      rw [computeResult_some] at h
      cases hf : f T a b with
      | ok v => rw [hf] at h; exact nomatch h
      | error k' => rw [hf] at h; exact .inr ⟨b, e', hf.trans (congrArg Except.error (Except.error.inj h))⟩

/-- The result of an engine is as wide as the command's destination kind (rule R301). -/
theorem length_of_engine {i : Instr} (hi : i ≠ .init) {tables : Option Tables} {b0 b1 bytes : Bytes}
    (h : engineOf i tables b0 b1 = .ok bytes) : ∃ k, (operandsOf i).d = .fixed k ∧ bytes.length = kindWidth k := by
  cases i with
  | init => exact absurd rfl hi
  | frOne => obtain ⟨v, rfl⟩ := engine0_ok b0 b1 h; exact ⟨.fr, rfl, length_encodeFr v⟩
  | frAdd => obtain ⟨v, rfl⟩ := engine2_ok b0 b1 h; exact ⟨.fr, rfl, length_encodeFr v⟩
  | frSub => obtain ⟨v, rfl⟩ := engine2_ok b0 b1 h; exact ⟨.fr, rfl, length_encodeFr v⟩
  | frMul => obtain ⟨v, rfl⟩ := engine2_ok b0 b1 h; exact ⟨.fr, rfl, length_encodeFr v⟩
  | frInv => obtain ⟨v, rfl⟩ := engine1_ok b0 b1 h; exact ⟨.fr, rfl, length_encodeFr v⟩
  | frNeg => obtain ⟨v, rfl⟩ := engine1_ok b0 b1 h; exact ⟨.fr, rfl, length_encodeFr v⟩
  | g1One => obtain ⟨v, rfl⟩ := engine0_ok b0 b1 h; exact ⟨.g1, rfl, length_encodeG1 v⟩
  | g1Add => obtain ⟨v, rfl⟩ := engine2_ok b0 b1 h; exact ⟨.g1, rfl, length_encodeG1 v⟩
  | g1Neg => obtain ⟨v, rfl⟩ := engine1_ok b0 b1 h; exact ⟨.g1, rfl, length_encodeG1 v⟩
  | g1Mul => obtain ⟨v, rfl⟩ := engine2_ok b0 b1 h; exact ⟨.g1, rfl, length_encodeG1 v⟩
  | g1Msm => obtain ⟨v, rfl⟩ := engine1_ok b0 b1 h; exact ⟨.g1, rfl, length_encodeG1 v⟩
  | g2One => obtain ⟨v, rfl⟩ := engine0_ok b0 b1 h; exact ⟨.g2, rfl, length_encodeG2 v⟩
  | g2Add => obtain ⟨v, rfl⟩ := engine2_ok b0 b1 h; exact ⟨.g2, rfl, length_encodeG2 v⟩
  | g2Neg => obtain ⟨v, rfl⟩ := engine1_ok b0 b1 h; exact ⟨.g2, rfl, length_encodeG2 v⟩
  | g2Mul => obtain ⟨v, rfl⟩ := engine2_ok b0 b1 h; exact ⟨.g2, rfl, length_encodeG2 v⟩
  | g2Msm => obtain ⟨v, rfl⟩ := engine1_ok b0 b1 h; exact ⟨.g2, rfl, length_encodeG2 v⟩
  | pairingCheck => obtain ⟨v, rfl⟩ := engine2_ok b0 b1 h; exact ⟨.bool, rfl, length_encodeBool v⟩

/-- What a successful result says of the destination: its length is the kind's width and it is admitted (rules R294,
R295). -/
theorem destination_of_ok {i : Instr} (hi : i ≠ .init) {s : State} {pt : Port} {bytes : Bytes}
    (h : commandResult i s pt = .ok bytes) :
    ∃ k, (operandsOf i).d = .fixed k ∧ bytes.length = kindWidth k ∧ pt.dl.toNat = kindWidth k ∧
      admitted s.map pt.dp.toNat pt.dl.toNat = true := by
  simp only [commandResult, callResult] at h
  split at h
  · cases h
  · rename_i hT
    obtain ⟨k, hk, hl⟩ := length_of_engine hi h
    refine ⟨k, hk, hl, ?_⟩
    simp only [precheck] at hT
    repeat' split at hT
    all_goals try cases hT
    simp only [lengthsOk, addressesOk, hk, Bool.and_eq_true, Bool.not_eq_false, addressOk, slotUsed, lengthOk,
      beq_iff_eq, Bool.not_true, Bool.false_or] at *
    tauto

/-- The result of a call reads `INIT_DONE`, `TABLES`, `MAP`, the used slots and the source bytes, and nothing else (rules
R77, R291). -/
theorem commandResult_congr {i : Instr} {s1 s2 : State} {p1 p2 : Port} (hi : s1.initDone = s2.initDone)
    (ht : s1.tables = s2.tables) (hm : s1.map = s2.map)
    (h0 : (operandsOf i).s0 ≠ .unused → p1.s0p = p2.s0p ∧ p1.s0l = p2.s0l ∧ source0 s1 p1 = source0 s2 p2)
    (h1 : (operandsOf i).s1 ≠ .unused → p1.s1p = p2.s1p ∧ p1.s1l = p2.s1l ∧ source1 s1 p1 = source1 s2 p2)
    (hd : (operandsOf i).d ≠ .unused → p1.dp = p2.dp ∧ p1.dl = p2.dl) :
    commandResult i s1 p1 = commandResult i s2 p2 := by
  have key : ∀ (k : SlotKind) (ptr1 len1 ptr2 len2 : Word64), (k ≠ .unused → ptr1 = ptr2 ∧ len1 = len2) →
      lengthOk k len1.toNat = lengthOk k len2.toNat ∧
        addressOk s1.map k ptr1.toNat len1.toNat = addressOk s2.map k ptr2.toNat len2.toNat := by
    intro k ptr1 len1 ptr2 len2 h
    by_cases hk : k = .unused
    · subst hk; exact ⟨rfl, rfl⟩
    · obtain ⟨rfl, rfl⟩ := h hk; exact ⟨rfl, by rw [hm]⟩
  have key' : ∀ (k : SlotKind) (b1 b2 : Bytes), (k ≠ .unused → b1 = b2) →
      (if slotUsed k then b1 else []) = if slotUsed k then b2 else [] := by
    intro k b1 b2 h
    cases k with
    | unused => rfl
    | fixed => rw [h nofun]
    | list => rw [h nofun]
  obtain ⟨l0, a0⟩ := key _ _ _ _ _ fun h => ⟨(h0 h).1, (h0 h).2.1⟩
  obtain ⟨l1, a1⟩ := key _ _ _ _ _ fun h => ⟨(h1 h).1, (h1 h).2.1⟩
  obtain ⟨l2, a2⟩ := key _ _ _ _ _ hd
  have b0 := key' _ _ _ fun h => (h0 h).2.2
  have b1 := key' _ _ _ fun h => (h1 h).2.2
  simp only [source0, source1] at b0 b1
  simp only [commandResult, callResult, precheck, lengthsOk, addressesOk, sourceBytes, hi, ht, l0, l1, l2, a0, a1, a2,
    b0, b1]
  rfl

/-- The calling port and the others after an update of `OK`. -/
theorem ports_of_modify {s t : State} {b : Bool} {pt : Port} (hp : s.ports[s.callPort]? = some pt)
    (ht : t.ports = s.ports.modify s.callPort (withOk b)) :
    t.ports[s.callPort]? = some (withOk b pt) ∧ ∀ q, q ≠ s.callPort → t.ports[q]? = s.ports[q]? := by
  rw [ht]
  refine ⟨by rw [List.getElem?_modify, hp]; simp, fun q hq => ?_⟩
  rw [List.getElem?_modify]; simp [Ne.symm hq]

/-- The code of a call's engine-level result is 0 exactly when the call leaves OK at 1 (rules R298, R321). -/
theorem startCall_code {s : State} {pt : Port} (hp : s.ports[s.callPort]? = some pt) (w : Word32) :
    ∃ t, startCall w s = .next t ∧
      (t.ports[s.callPort]?).map Port.ok = some (resultCode (wordResult w s pt) == 0) := by
  have key : ∀ (b : Bool) (t : State), t.ports = s.ports.modify s.callPort (withOk b) →
      (t.ports[s.callPort]?).map Port.ok = some b := fun b t ht => by rw [(ports_of_modify hp ht).1]; rfl
  have code : ∀ k, (errorCode k == 0) = false := fun k => by cases k <;> rfl
  unfold startCall wordResult
  cases decode w with
  | error _ => exact ⟨_, rfl, key false _ rfl⟩
  | ok i =>
    by_cases hi : i = .init
    · subst hi
      refine ⟨_, exec_init hp, key true _ ?_⟩
      cases hd : s.initDone <;> simp [initShared, hd]
    · refine ⟨_, exec_eq hi hp, ?_⟩
      simp only [hi, if_false]
      cases hr : commandResult i s pt with
      | error k => exact (key false _ rfl).trans (by rw [resultCode, code])
      | ok bytes => exact key true _ rfl

end Sys2Proof.Machine
end

