-- ==== Sys2Proof/Laws/Scalar.lean ====
section
/-! SUPPORT. The scalar engine against multiples in a commutative monoid: one lemma for the fixed walk of rule R232, one for
the k-fold sum of rule R177, over any map that takes the engine's addition to the monoid's. -/

namespace Sys2Proof.Machine

/-- `add` on the values that satisfy `V` is, through `φ`, the addition of `A`. -/
structure AddHom {G A : Type} [AddCommMonoid A] (add : G → G → G) (zero : G) (V : G → Prop) (φ : G → A) : Prop where
  zero_valid : V zero
  map_zero : φ zero = 0
  add_valid : ∀ {P Q}, V P → V Q → V (add P Q)
  map_add : ∀ {P Q}, V P → V Q → φ (add P Q) = φ P + φ Q

variable {G A : Type} [AddCommMonoid A] {add : G → G → G} {zero : G} {V : G → Prop} {φ : G → A}

theorem mod_two_pow_succ_testBit (k n : Nat) : k % 2 ^ (n + 1) = 2 ^ n * (k.testBit n).toNat + k % 2 ^ n := by
  rw [Nat.testBit_eq_decide_div_mod_eq, pow_succ, Nat.mod_mul]
  rcases Nat.mod_two_eq_zero_or_one (k / 2 ^ n) with h | h <;> simp [h, Nat.add_comm]

/-- The walk from `acc`: `n` doublings, and the low `n` bits of `k` times P (rule R232's invariant). -/
theorem AddHom.map_walk (h : AddHom add zero V φ) {P : G} (hP : V P) (k n : Nat) (acc : Traced G) (ha : V acc.val) :
    V (walk add P k n acc).val ∧
      φ (walk add P k n acc).val = (2 ^ n) • φ acc.val + (k % 2 ^ n) • φ P := by
  induction n generalizing acc with
  | zero => simp [walk, ha, Nat.mod_one]
  | succ n ih =>
    have hd := h.add_valid ha ha
    have hs := h.add_valid hd hP
    rw [mod_two_pow_succ_testBit]
    simp only [walk]
    cases k.testBit n
    · obtain ⟨h1, h2⟩ := ih ⟨add acc.val acc.val, acc.trace ++ [GroupOp.double, GroupOp.addPoint]⟩ hd
      refine ⟨h1, ?_⟩
      simp only [Bool.false_eq_true, if_false, h2, h.map_add ha ha, Bool.toNat_false, mul_zero, zero_add, pow_succ,
        mul_smul, two_smul]
    · obtain ⟨h1, h2⟩ := ih ⟨add (add acc.val acc.val) P, acc.trace ++ [GroupOp.double, GroupOp.addPoint]⟩ hs
      refine ⟨h1, ?_⟩
      simp only [if_true, h2, h.map_add hd hP, h.map_add ha ha, Bool.toNat_true, mul_one, pow_succ, mul_smul, two_smul,
        smul_add, add_smul, add_assoc]

/-- `smul` is the multiple by `k < 2^253` (rules R230, R232). -/
theorem AddHom.map_smul (h : AddHom add zero V φ) {P : G} (hP : V P) {k : Nat} (hk : k < 2 ^ 253) :
    V (smul add zero P k) ∧ φ (smul add zero P k) = k • φ P := by
  have hw := h.map_walk hP k Config.nbitsR ⟨zero, []⟩ h.zero_valid
  have hk' : k % 2 ^ Config.nbitsR = k := Nat.mod_eq_of_lt hk
  rwa [h.map_zero, smul_zero, zero_add, hk'] at hw

/-- `foldMul` is the multiple too (rule R177). -/
theorem AddHom.map_foldMul (h : AddHom add zero V φ) {P : G} (hP : V P) (k : Nat) :
    V (foldMul add zero P k) ∧ φ (foldMul add zero P k) = k • φ P := by
  induction k with
  | zero => exact ⟨h.zero_valid, by rw [foldMul, h.map_zero, zero_smul]⟩
  | succ k ih => exact ⟨h.add_valid ih.1 hP, by rw [foldMul, h.map_add ih.1 hP, ih.2, succ_nsmul]⟩

end Sys2Proof.Machine
end

