-- ==== Sys2Proof/Laws/Curve.lean ====
section
/-! SUPPORT. The group law of Machine/Curve.lean against Mathlib's elliptic curve group: over any field that a record of
operations models, valid points are Mathlib's points and `pointAdd` is their addition. -/

namespace Sys2Proof.Machine

open WeierstrassCurve.Affine

/-- The field K is what the operations `O` on representatives compute. -/
structure FieldModel {F : Type} (O : FieldOps F) (K : Type) [Field K] where
  reduced : F → Prop
  val : F → K
  inj : ∀ {a b}, reduced a → reduced b → val a = val b → a = b
  reduced_zero : reduced O.zero
  reduced_add : ∀ a b, reduced (O.add a b)
  reduced_sub : ∀ a b, reduced (O.sub a b)
  reduced_mul : ∀ a b, reduced (O.mul a b)
  reduced_neg : ∀ a, reduced (O.neg a)
  val_zero : val O.zero = 0
  val_small : ∀ k, val (O.small k) = (k : K)
  val_add : ∀ a b, val (O.add a b) = val a + val b
  val_sub : ∀ a b, val (O.sub a b) = val a - val b
  val_mul : ∀ a b, val (O.mul a b) = val a * val b
  val_neg : ∀ a, val (O.neg a) = -val a
  val_inv : ∀ a, val (O.inv a) = (val a)⁻¹

/-- The curve `y^2 = x^3 + β` of Mathlib. -/
abbrev shortCurve {K : Type} [Field K] (β : K) : WeierstrassCurve.Affine K := ⟨0, 0, 0, 0, β⟩

variable {F K : Type} [DecidableEq F] [Field K] {O : FieldOps F} (M : FieldModel O K)

/-- A point the decoder of rules R134 and R135 can meet after its range and curve tests: reduced coordinates, on the
curve. -/
def FieldModel.Valid (b : F) (P : Point F) : Prop :=
  onCurve O b P = true ∧ ∀ x y, P = .affine x y → M.reduced x ∧ M.reduced y

theorem FieldModel.valid_infinity (b : F) : M.Valid b .infinity := ⟨rfl, fun _ _ h => nomatch h⟩

theorem FieldModel.valid_affine {b x y : F} :
    M.Valid b (.affine x y) ↔
      M.reduced x ∧ M.reduced y ∧ M.val y ^ 2 = M.val x ^ 3 + M.val b := by
  have key : onCurve O b (.affine x y) = true ↔ M.val y ^ 2 = M.val x ^ 3 + M.val b := by
    simp only [onCurve, decide_eq_true_iff]
    constructor
    · intro h
      have := congrArg M.val h
      simp only [M.val_add, M.val_mul] at this
      linear_combination this
    · intro h
      refine M.inj (M.reduced_mul _ _) (M.reduced_add _ _) ?_
      simp only [M.val_add, M.val_mul]
      linear_combination h
  constructor
  · rintro ⟨h, hr⟩
    exact ⟨(hr x y rfl).1, (hr x y rfl).2, key.1 h⟩
  · rintro ⟨hx, hy, h⟩
    refine ⟨key.2 h, fun x' y' he => ?_⟩
    obtain ⟨rfl, rfl⟩ := Point.affine.inj he
    exact ⟨hx, hy⟩

theorem shortCurve_equation {β x y : K} : (shortCurve β).Equation x y ↔ y ^ 2 = x ^ 3 + β := by
  rw [equation_iff]; simp

theorem shortCurve_nonsingular {β x y : K} (hβ : (432 : K) * β ^ 2 ≠ 0) :
    (shortCurve β).Nonsingular x y ↔ y ^ 2 = x ^ 3 + β := by
  rw [← equation_iff_nonsingular_of_Δ_ne_zero, shortCurve_equation]
  simp only [WeierstrassCurve.Δ, WeierstrassCurve.b₂, WeierstrassCurve.b₄, WeierstrassCurve.b₆, WeierstrassCurve.b₈]
  intro h
  exact hβ (by linear_combination -h)

open Classical in
/-- Mathlib's point of a point of the model; 0 for what is no point of the curve. -/
noncomputable def FieldModel.toPoint (b : F) : Point F → (shortCurve (M.val b)).Point
  | .infinity => 0
  | .affine x y =>
    if h : (shortCurve (M.val b)).Nonsingular (M.val x) (M.val y) then .some _ _ h else 0

variable {M}
variable {b : F} (hb : (432 : K) * M.val b ^ 2 ≠ 0)

include hb

theorem FieldModel.toPoint_affine {x y : F} (h : M.Valid b (.affine x y)) :
    ∃ hn : (shortCurve (M.val b)).Nonsingular (M.val x) (M.val y),
      M.toPoint b (.affine x y) = .some _ _ hn := by
  have hn := (shortCurve_nonsingular hb).2 (M.valid_affine.1 h).2.2
  exact ⟨hn, by simp only [FieldModel.toPoint, dif_pos hn]⟩

theorem FieldModel.toPoint_injective {P Q : Point F} (hP : M.Valid b P) (hQ : M.Valid b Q)
    (h : M.toPoint b P = M.toPoint b Q) : P = Q := by
  cases P with
  | infinity =>
    cases Q with
    | infinity => rfl
    | affine x y =>
      obtain ⟨hn, hq⟩ := FieldModel.toPoint_affine hb hQ
      rw [hq] at h
      exact absurd h.symm (Point.some_ne_zero hn)
  | affine x y =>
    obtain ⟨hn, hp⟩ := FieldModel.toPoint_affine hb hP
    cases Q with
    | infinity =>
      rw [hp] at h
      exact absurd h (Point.some_ne_zero hn)
    | affine x' y' =>
      obtain ⟨hn', hq⟩ := FieldModel.toPoint_affine hb hQ
      rw [hp, hq] at h
      obtain ⟨h1, h2⟩ := Point.some.inj h
      have hPv := M.valid_affine.1 hP
      have hQv := M.valid_affine.1 hQ
      rw [M.inj hPv.1 hQv.1 h1, M.inj hPv.2.1 hQv.2.1 h2]

theorem FieldModel.toPoint_eq_zero {P : Point F} (hP : M.Valid b P) : M.toPoint b P = 0 ↔ P = .infinity :=
  ⟨fun h => FieldModel.toPoint_injective hb hP (M.valid_infinity b) h, fun h => h ▸ rfl⟩

variable [DecidableEq K]

/-- A finite sum: what `pointOfSlope` answers is valid and is Mathlib's sum, when its slope is Mathlib's. -/
theorem FieldModel.toPoint_add_of_slope {x1 y1 x2 y2 lam : F} (hP : M.Valid b (.affine x1 y1))
    (hQ : M.Valid b (.affine x2 y2))
    (hxy : ¬(M.val x1 = M.val x2 ∧ M.val y1 = (shortCurve (M.val b)).negY (M.val x2) (M.val y2)))
    (hlam : M.val lam = (shortCurve (M.val b)).slope (M.val x1) (M.val x2) (M.val y1) (M.val y2)) :
    let t := pointOfSlope O lam x1 y1 x2
    M.Valid b (.affine t.1 t.2) ∧
      M.toPoint b (.affine t.1 t.2) = M.toPoint b (.affine x1 y1) + M.toPoint b (.affine x2 y2) := by
  obtain ⟨hn1, hp1⟩ := FieldModel.toPoint_affine hb hP
  obtain ⟨hn2, hp2⟩ := FieldModel.toPoint_affine hb hQ
  have hsum := Point.add_some hxy (h₁ := hn1) (h₂ := hn2)
  have hns := nonsingular_add hn1 hn2 hxy
  have hx : M.val (pointOfSlope O lam x1 y1 x2).1 = (shortCurve (M.val b)).addX (M.val x1) (M.val x2)
      ((shortCurve (M.val b)).slope (M.val x1) (M.val x2) (M.val y1) (M.val y2)) := by
    rw [← hlam]; simp only [pointOfSlope, M.val_sub, M.val_mul, addX]; ring
  have hy : M.val (pointOfSlope O lam x1 y1 x2).2 = (shortCurve (M.val b)).addY (M.val x1) (M.val x2) (M.val y1)
      ((shortCurve (M.val b)).slope (M.val x1) (M.val x2) (M.val y1) (M.val y2)) := by
    rw [← hlam]; simp only [pointOfSlope, M.val_sub, M.val_mul, addY, negAddY, negY, addX]; ring
  have hv : M.Valid b (.affine (pointOfSlope O lam x1 y1 x2).1 (pointOfSlope O lam x1 y1 x2).2) := by
    refine M.valid_affine.2 ⟨M.reduced_sub _ _, M.reduced_sub _ _, ?_⟩
    rw [hx, hy]
    exact (shortCurve_nonsingular hb).1 hns
  refine ⟨hv, ?_⟩
  obtain ⟨hn3, hp3⟩ := FieldModel.toPoint_affine hb hv
  rw [hp1, hp2, hsum, hp3]
  simp only [Point.some.injEq]
  exact ⟨hx, hy⟩

/-- The group law of rule R176 is Mathlib's, and keeps points valid. -/
theorem FieldModel.toPoint_pointAdd {P Q : Point F} (hP : M.Valid b P) (hQ : M.Valid b Q) :
    M.Valid b (pointAdd O P Q) ∧ M.toPoint b (pointAdd O P Q) = M.toPoint b P + M.toPoint b Q := by
  cases P with
  | infinity => exact ⟨by simpa only [pointAdd] using hQ, by simp only [pointAdd, FieldModel.toPoint, zero_add]⟩
  | affine x1 y1 =>
    cases Q with
    | infinity => exact ⟨by simpa only [pointAdd] using hP, by simp only [pointAdd, FieldModel.toPoint, add_zero]⟩
    | affine x2 y2 =>
      have hPv := M.valid_affine.1 hP
      have hQv := M.valid_affine.1 hQ
      by_cases hx : x1 = x2
      · subst hx
        by_cases hy : O.add y1 y2 = O.zero
        · have hy' : M.val y1 + M.val y2 = 0 := by rw [← M.val_add, hy, M.val_zero]
          obtain ⟨hn1, hp1⟩ := FieldModel.toPoint_affine hb hP
          obtain ⟨hn2, hp2⟩ := FieldModel.toPoint_affine hb hQ
          simp only [pointAdd, hy, if_true]
          refine ⟨M.valid_infinity b, ?_⟩
          rw [hp1, hp2, Point.add_of_Y_eq rfl (by simp only [negY]; linear_combination hy')]
          rfl
        · have hy' : M.val y1 + M.val y2 ≠ 0 := fun h =>
            hy (M.inj (M.reduced_add _ _) M.reduced_zero (by rw [M.val_add, M.val_zero, h]))
          have hsq : (M.val y1 - M.val y2) * (M.val y1 + M.val y2) = 0 := by
            linear_combination hPv.2.2 - hQv.2.2
          have hyy : M.val y1 = M.val y2 := sub_eq_zero.1 ((mul_eq_zero.1 hsq).resolve_right hy')
          have hne : M.val y1 ≠ (shortCurve (M.val b)).negY (M.val x1) (M.val y2) := by
            simp only [negY]; intro h; exact hy' (by linear_combination h)
          have := FieldModel.toPoint_add_of_slope hb (lam := slopeTangent O x1 y1) hP hQ (fun h => hne h.2) (by
            rw [slope_of_Y_ne rfl hne]
            simp only [slopeTangent, M.val_mul, M.val_small, M.val_inv, negY, div_eq_mul_inv]
            norm_num
            ring_nf)
          simpa only [pointAdd, hy, if_true, if_false] using this
      · have hx' : M.val x1 ≠ M.val x2 := fun h => hx (M.inj hPv.1 hQv.1 h)
        have hne1 : M.val x1 - M.val x2 ≠ 0 := sub_ne_zero.2 hx'
        have hne2 : M.val x2 - M.val x1 ≠ 0 := sub_ne_zero.2 hx'.symm
        have := FieldModel.toPoint_add_of_slope hb (lam := slopeChord O x1 y1 x2 y2) hP hQ (fun h => hx' h.1) (by
          rw [slope_of_X_ne hx']
          simp only [slopeChord, M.val_mul, M.val_sub, M.val_inv]
          field_simp
          ring)
        simpa only [pointAdd, hx, if_false] using this

omit hb [DecidableEq K] in
/-- Negation (rules R173, R204). -/
theorem FieldModel.valid_pointNeg {P : Point F} (hP : M.Valid b P) : M.Valid b (pointNeg O P) := by
  cases P with
  | infinity => exact M.valid_infinity b
  | affine x y =>
    have h := M.valid_affine.1 hP
    exact M.valid_affine.2 ⟨h.1, M.reduced_neg _, by rw [M.val_neg, neg_sq]; exact h.2.2⟩

omit [DecidableEq K] in
theorem FieldModel.toPoint_pointNeg {P : Point F} (hP : M.Valid b P) :
    M.toPoint b (pointNeg O P) = -M.toPoint b P := by
  cases P with
  | infinity => rfl
  | affine x y =>
    obtain ⟨hn, hp⟩ := FieldModel.toPoint_affine hb hP
    obtain ⟨hn', hp'⟩ := FieldModel.toPoint_affine hb (M.valid_pointNeg hP)
    rw [hp, pointNeg, hp', Point.neg_some]
    simp [negY, M.val_neg]

/-- Through `toPoint`, `pointAdd` on valid points is the addition of Mathlib's group. -/
theorem FieldModel.addHom : AddHom (pointAdd O) .infinity (M.Valid b) (M.toPoint b) where
  zero_valid := M.valid_infinity b
  map_zero := rfl
  add_valid hP hQ := (FieldModel.toPoint_pointAdd hb hP hQ).1
  map_add hP hQ := (FieldModel.toPoint_pointAdd hb hP hQ).2

end Sys2Proof.Machine
end

