-- ==== Sys2Proof/Laws/Field.lean ====
section
/-! SUPPORT. Modular arithmetic against `ZMod m`: each operation of Machine/Field.lean is the field operation on residues. -/

namespace Sys2Proof.Machine

theorem powModBits_eq (m : Nat) (n a e acc : Nat) (he : e < 2 ^ n) :
    powModBits m n a e acc % m = acc * a ^ e % m := by
  induction n generalizing a e acc with
  | zero =>
    have : e = 0 := by omega
    simp [powModBits, this]
  | succ n ih =>
    have he' : e / 2 < 2 ^ n := by rw [pow_succ] at he; omega
    have hsq : (a * a % m) ^ (e / 2) ≡ a ^ (2 * (e / 2)) [MOD m] := by
      rw [pow_mul, pow_two]; exact (Nat.mod_modEq _ _).pow _
    rw [powModBits, ih _ _ _ he']
    split
    · next h =>
      have h2 : e = 2 * (e / 2) + 1 := by omega
      have hacc : acc * a % m ≡ acc * a [MOD m] := Nat.mod_modEq _ _
      refine (hacc.mul hsq).trans ?_
      conv_rhs => rw [h2, pow_succ]
      rw [mul_assoc, mul_comm a]
    · next h =>
      have h2 : e = 2 * (e / 2) := by omega
      conv_rhs => rw [h2]
      exact (Nat.ModEq.refl acc).mul hsq

theorem powModBits_lt {m : Nat} (n a e acc : Nat) (hacc : acc < m) : powModBits m n a e acc < m := by
  induction n generalizing a e acc with
  | zero => exact hacc
  | succ n ih =>
    rw [powModBits]
    refine ih _ _ _ ?_
    split
    · exact Nat.mod_lt _ (by omega)
    · exact hacc

/-- `powMod` is the power modulo `m`. -/
theorem powMod_eq {m : Nat} (hm : 0 < m) (a e : Nat) : powMod m a e = a ^ e % m := by
  have hlt := powModBits_lt (m := m) (e.log2 + 1) (a % m) e (1 % m) (Nat.mod_lt _ hm)
  rw [powMod, ← Nat.mod_eq_of_lt hlt, powModBits_eq m _ (a % m) e (1 % m) Nat.lt_log2_self]
  have h1 : 1 % m ≡ 1 [MOD m] := Nat.mod_modEq _ _
  have h2 : (a % m) ^ e ≡ a ^ e [MOD m] := (Nat.mod_modEq _ _).pow _
  exact (h1.mul h2).trans (by rw [one_mul])

theorem invMod_lt {m : Nat} (hm : 0 < m) (a : Nat) : invMod m a < m := by
  rw [invMod, powMod_eq hm]; exact Nat.mod_lt _ hm

theorem addMod_lt {m : Nat} (hm : 0 < m) (a b : Nat) : addMod m a b < m := Nat.mod_lt _ hm
theorem subMod_lt {m : Nat} (hm : 0 < m) (a b : Nat) : subMod m a b < m := Nat.mod_lt _ hm
theorem mulMod_lt {m : Nat} (hm : 0 < m) (a b : Nat) : mulMod m a b < m := Nat.mod_lt _ hm
theorem negMod_lt {m : Nat} (hm : 0 < m) (a : Nat) : negMod m a < m := Nat.mod_lt _ hm

@[simp] theorem cast_addMod (m a b : Nat) : ((addMod m a b : Nat) : ZMod m) = a + b := by
  simp [addMod]

@[simp] theorem cast_mulMod (m a b : Nat) : ((mulMod m a b : Nat) : ZMod m) = a * b := by
  simp [mulMod]

theorem cast_subMod {m : Nat} (hm : 0 < m) (a b : Nat) : ((subMod m a b : Nat) : ZMod m) = a - b := by
  have := (Nat.mod_lt b hm).le
  simp [subMod, Nat.cast_sub this, sub_eq_add_neg]

theorem cast_negMod {m : Nat} (hm : 0 < m) (a : Nat) : ((negMod m a : Nat) : ZMod m) = -a := by
  have := (Nat.mod_lt a hm).le
  simp [negMod, Nat.cast_sub this]

/-- Over a prime modulus `invMod` is the field's inverse (and 0 for 0, as in `ZMod`). -/
theorem cast_invMod {m : Nat} [Fact m.Prime] (hm : 2 < m) (a : Nat) :
    ((invMod m a : Nat) : ZMod m) = (a : ZMod m)⁻¹ := by
  have hm0 : 0 < m := by omega
  rw [invMod, powMod_eq hm0, ZMod.natCast_mod, Nat.cast_pow]
  by_cases h : (a : ZMod m) = 0
  · rw [h, inv_zero, zero_pow (by omega)]
  · have h1 : (a : ZMod m) ^ (m - 2) * a = 1 := by
      rw [← pow_succ, show m - 2 + 1 = m - 1 by omega]
      exact ZMod.pow_card_sub_one_eq_one h
    exact eq_inv_of_mul_eq_one_left h1

/-- The least non-negative residue of a difference, without truncation (rule R156). -/
theorem subMod_of_lt {m a b : Nat} (ha : a < m) (hb : b < m) :
    subMod m a b = if b ≤ a then a - b else a + m - b := by
  rw [subMod, Nat.mod_eq_of_lt hb]
  split
  · rw [show a + (m - b) = (a - b) + m by omega, Nat.add_mod_right, Nat.mod_eq_of_lt (by omega)]
  · rw [Nat.mod_eq_of_lt (by omega)]; omega

theorem negMod_of_lt {m a : Nat} (ha : a < m) : negMod m a = if a = 0 then 0 else m - a := by
  rw [negMod, Nat.mod_eq_of_lt ha]
  split
  · next h => subst h; simp
  · rw [Nat.mod_eq_of_lt (by omega)]

/-- Two residues that agree in `ZMod m` are equal. -/
theorem eq_of_cast_eq {m a b : Nat} (ha : a < m) (hb : b < m) (h : (a : ZMod m) = b) : a = b := by
  rw [ZMod.natCast_eq_natCast_iff'] at h
  rwa [Nat.mod_eq_of_lt ha, Nat.mod_eq_of_lt hb] at h

end Sys2Proof.Machine
end

