-- ==== Sys2Proof/Laws/Primes.lean ====
section
/-! SUPPORT. `r` and `p` are prime (rules R11, R12), by Lucas certificates: for each prime a base and the prime
factorisation of its predecessor. -/

namespace Sys2Proof.Machine

/-- The part of a Lucas certificate that is computed: `fs` multiplies to `n - 1`, the base `a` has order `n - 1`. -/
def lucasCheck (n a : Nat) (fs : List (Nat × Nat)) : Bool :=
  2 ≤ n && (fs.map fun f => f.1 ^ f.2).prod == n - 1 && powMod n a (n - 1) == 1 &&
    fs.all fun f => powMod n a ((n - 1) / f.1) != 1

theorem prime_of_lucasCheck {n a : Nat} {fs : List (Nat × Nat)} (hc : lucasCheck n a fs = true)
    (hp : ∀ f ∈ fs, f.1.Prime) : n.Prime := by
  simp only [lucasCheck, Bool.and_eq_true, decide_eq_true_eq, beq_iff_eq, List.all_eq_true, bne_iff_ne] at hc
  obtain ⟨⟨⟨hn, hprod⟩, ha⟩, hne⟩ := hc
  have hpow : ∀ e, powMod n a e = 1 ↔ (a : ZMod n) ^ e = 1 := fun e => by
    rw [powMod_eq (by omega), ← Nat.cast_pow, ← Nat.cast_one (R := ZMod n), ZMod.natCast_eq_natCast_iff',
      Nat.mod_eq_of_lt hn]
  refine lucas_primality n a ((hpow _).1 ha) fun q hq hd => ?_
  rw [← hprod] at hd
  obtain ⟨y, hy, hqy⟩ := hq.prime.dvd_prod_iff.1 hd
  obtain ⟨f, hf, rfl⟩ := List.mem_map.1 hy
  have : q = f.1 := (Nat.prime_dvd_prime_iff_eq hq (hp f hf)).1 (hq.dvd_of_dvd_pow hqy)
  rw [this]
  exact fun h => hne f hf ((hpow _).2 h)

theorem prime_71924131 : Nat.Prime 71924131 := by
  refine prime_of_lucasCheck (a := 2) (fs := [(2, 1), (3, 2), (5, 1), (317, 1), (2521, 1)])
    (by decide +kernel) ?_
  simp only [List.forall_mem_cons, List.not_mem_nil, false_imp_iff, implies_true, and_true]
  exact ⟨by norm_num, by norm_num, by norm_num, by norm_num, by norm_num⟩

theorem prime_6633514200929891813 : Nat.Prime 6633514200929891813 := by
  refine prime_of_lucasCheck (a := 2) (fs := [(2, 2), (19, 1), (25537, 1), (47521, 1), (71924131, 1)])
    (by decide +kernel) ?_
  simp only [List.forall_mem_cons, List.not_mem_nil, false_imp_iff, implies_true, and_true]
  exact ⟨by norm_num, by norm_num, by norm_num, by norm_num, prime_71924131⟩

theorem prime_22433633 : Nat.Prime 22433633 := by
  refine prime_of_lucasCheck (a := 3) (fs := [(2, 5), (13, 1), (53927, 1)])
    (by decide +kernel) ?_
  simp only [List.forall_mem_cons, List.not_mem_nil, false_imp_iff, implies_true, and_true]
  exact ⟨by norm_num, by norm_num, by norm_num⟩

theorem prime_494527005853 : Nat.Prime 494527005853 := by
  refine prime_of_lucasCheck (a := 5) (fs := [(2, 2), (3, 1), (11, 1), (167, 1), (22433633, 1)])
    (by decide +kernel) ?_
  simp only [List.forall_mem_cons, List.not_mem_nil, false_imp_iff, implies_true, and_true]
  exact ⟨by norm_num, by norm_num, by norm_num, by norm_num, prime_22433633⟩

theorem prime_76872275827 : Nat.Prime 76872275827 := by
  refine prime_of_lucasCheck (a := 2) (fs := [(2, 1), (3, 1), (17, 2), (19, 1), (23, 1), (229, 1), (443, 1)])
    (by decide +kernel) ?_
  simp only [List.forall_mem_cons, List.not_mem_nil, false_imp_iff, implies_true, and_true]
  exact ⟨by norm_num, by norm_num, by norm_num, by norm_num, by norm_num, by norm_num, by norm_num⟩

theorem prime_1844934619849 : Nat.Prime 1844934619849 := by
  refine prime_of_lucasCheck (a := 14) (fs := [(2, 3), (3, 1), (76872275827, 1)])
    (by decide +kernel) ?_
  simp only [List.forall_mem_cons, List.not_mem_nil, false_imp_iff, implies_true, and_true]
  exact ⟨by norm_num, by norm_num, prime_76872275827⟩

theorem prime_111286271775829695101 : Nat.Prime 111286271775829695101 := by
  refine prime_of_lucasCheck (a := 2) (fs := [(2, 2), (5, 2), (73, 1), (8263, 1), (1844934619849, 1)])
    (by decide +kernel) ?_
  simp only [List.forall_mem_cons, List.not_mem_nil, false_imp_iff, implies_true, and_true]
  exact ⟨by norm_num, by norm_num, by norm_num, by norm_num, prime_1844934619849⟩

theorem prime_222572543551659390203 : Nat.Prime 222572543551659390203 := by
  refine prime_of_lucasCheck (a := 2) (fs := [(2, 1), (111286271775829695101, 1)])
    (by decide +kernel) ?_
  simp only [List.forall_mem_cons, List.not_mem_nil, false_imp_iff, implies_true, and_true]
  exact ⟨by norm_num, prime_111286271775829695101⟩

theorem prime_97931919162730131689321 : Nat.Prime 97931919162730131689321 := by
  refine prime_of_lucasCheck (a := 3) (fs := [(2, 3), (5, 1), (11, 1), (222572543551659390203, 1)])
    (by decide +kernel) ?_
  simp only [List.forall_mem_cons, List.not_mem_nil, false_imp_iff, implies_true, and_true]
  exact ⟨by norm_num, by norm_num, by norm_num, prime_222572543551659390203⟩

theorem prime_37214129_25 : Nat.Prime 3721412928183745004194199 := by
  refine prime_of_lucasCheck (a := 13) (fs := [(2, 1), (19, 1), (97931919162730131689321, 1)])
    (by decide +kernel) ?_
  simp only [List.forall_mem_cons, List.not_mem_nil, false_imp_iff, implies_true, and_true]
  exact ⟨by norm_num, by norm_num, prime_97931919162730131689321⟩

theorem prime_4777599223 : Nat.Prime 4777599223 := by
  refine prime_of_lucasCheck (a := 3) (fs := [(2, 1), (3, 2), (11, 1), (59, 1), (408971, 1)])
    (by decide +kernel) ?_
  simp only [List.forall_mem_cons, List.not_mem_nil, false_imp_iff, implies_true, and_true]
  exact ⟨by norm_num, by norm_num, by norm_num, by norm_num, by norm_num⟩

theorem prime_5301089 : Nat.Prime 5301089 := by
  refine prime_of_lucasCheck (a := 3) (fs := [(2, 5), (13, 1), (12743, 1)])
    (by decide +kernel) ?_
  simp only [List.forall_mem_cons, List.not_mem_nil, false_imp_iff, implies_true, and_true]
  exact ⟨by norm_num, by norm_num, by norm_num⟩

theorem prime_8583511 : Nat.Prime 8583511 := by
  refine prime_of_lucasCheck (a := 6) (fs := [(2, 1), (3, 1), (5, 1), (13, 2), (1693, 1)])
    (by decide +kernel) ?_
  simp only [List.forall_mem_cons, List.not_mem_nil, false_imp_iff, implies_true, and_true]
  exact ⟨by norm_num, by norm_num, by norm_num, by norm_num, by norm_num⟩

theorem prime_5187222954756607 : Nat.Prime 5187222954756607 := by
  refine prime_of_lucasCheck (a := 3) (fs := [(2, 1), (3, 1), (19, 1), (5301089, 1), (8583511, 1)])
    (by decide +kernel) ?_
  simp only [List.forall_mem_cons, List.not_mem_nil, false_imp_iff, implies_true, and_true]
  exact ⟨by norm_num, by norm_num, by norm_num, prime_5301089, prime_8583511⟩

theorem prime_78808262_28 : Nat.Prime 7880826209898991662826602799 := by
  refine prime_of_lucasCheck (a := 21) (fs := [(2, 1), (3, 1), (53, 1), (4777599223, 1), (5187222954756607, 1)])
    (by decide +kernel) ?_
  simp only [List.forall_mem_cons, List.not_mem_nil, false_imp_iff, implies_true, and_true]
  exact ⟨by norm_num, by norm_num, by norm_num, prime_4777599223, prime_5187222954756607⟩

theorem prime_73387170_68 : Nat.Prime 73387170334035996766247648424745786170238574695861388454532790956181 := by
  refine prime_of_lucasCheck (a := 3) (fs := [(2, 2), (5, 1), (11, 1), (23, 1), (494527005853, 1), (3721412928183745004194199, 1), (7880826209898991662826602799, 1)])
    (by decide +kernel) ?_
  simp only [List.forall_mem_cons, List.not_mem_nil, false_imp_iff, implies_true, and_true]
  exact ⟨by norm_num, by norm_num, by norm_num, by norm_num, prime_494527005853, prime_37214129_25, prime_78808262_28⟩

theorem prime_p : Nat.Prime Config.p := by
  refine prime_of_lucasCheck (a := 15) (fs := [(2, 46), (3, 1), (7, 1), (13, 1), (53, 1), (409, 1), (499, 1), (2557, 1), (6633514200929891813, 1), (73387170334035996766247648424745786170238574695861388454532790956181, 1)])
    (by decide +kernel) ?_
  simp only [List.forall_mem_cons, List.not_mem_nil, false_imp_iff, implies_true, and_true]
  exact ⟨by norm_num, by norm_num, by norm_num, by norm_num, by norm_num, by norm_num, by norm_num, by norm_num, prime_6633514200929891813, prime_73387170_68⟩

theorem prime_1832756501 : Nat.Prime 1832756501 := by
  refine prime_of_lucasCheck (a := 2) (fs := [(2, 2), (5, 3), (29, 1), (126397, 1)])
    (by decide +kernel) ?_
  simp only [List.forall_mem_cons, List.not_mem_nil, false_imp_iff, implies_true, and_true]
  exact ⟨by norm_num, by norm_num, by norm_num, by norm_num⟩

theorem prime_49484425527001 : Nat.Prime 49484425527001 := by
  refine prime_of_lucasCheck (a := 14) (fs := [(2, 3), (3, 3), (5, 3), (1832756501, 1)])
    (by decide +kernel) ?_
  simp only [List.forall_mem_cons, List.not_mem_nil, false_imp_iff, implies_true, and_true]
  exact ⟨by norm_num, by norm_num, by norm_num, prime_1832756501⟩

theorem prime_958612291309063373 : Nat.Prime 958612291309063373 := by
  refine prime_of_lucasCheck (a := 2) (fs := [(2, 2), (29, 1), (167, 1), (49484425527001, 1)])
    (by decide +kernel) ?_
  simp only [List.forall_mem_cons, List.not_mem_nil, false_imp_iff, implies_true, and_true]
  exact ⟨by norm_num, by norm_num, by norm_num, prime_49484425527001⟩

theorem prime_9586122913090633729 : Nat.Prime 9586122913090633729 := by
  refine prime_of_lucasCheck (a := 11) (fs := [(2, 46), (3, 1), (7, 1), (13, 1), (499, 1)])
    (by decide +kernel) ?_
  simp only [List.forall_mem_cons, List.not_mem_nil, false_imp_iff, implies_true, and_true]
  exact ⟨by norm_num, by norm_num, by norm_num, by norm_num, by norm_num⟩

theorem prime_r : Nat.Prime Config.r := by
  refine prime_of_lucasCheck (a := 22) (fs := [(2, 47), (3, 1), (5, 1), (7, 1), (13, 1), (499, 1), (958612291309063373, 1), (9586122913090633729, 2)])
    (by decide +kernel) ?_
  simp only [List.forall_mem_cons, List.not_mem_nil, false_imp_iff, implies_true, and_true]
  exact ⟨by norm_num, by norm_num, by norm_num, by norm_num, by norm_num, by norm_num, prime_958612291309063373, prime_9586122913090633729⟩

end Sys2Proof.Machine
end

