-- ==== Sys2Proof/Laws/Groups.lean ====
section
/-! SUPPORT. G1 and G2: Fq is `ZMod p`, Fq2 is `ZMod p` with a root of `u^2 = -5` adjoined, and the subgroup test of rule
R139 is membership in the r-torsion of Mathlib's group. -/

namespace Sys2Proof.Machine

theorem p_pos : 0 < Config.p := by decide +kernel
theorem two_lt_p : 2 < Config.p := by decide +kernel
theorem r_pos : 0 < Config.r := by decide +kernel
theorem two_lt_r : 2 < Config.r := by decide +kernel
theorem r_lt : Config.r < 2 ^ 253 := by decide +kernel
theorem p_lt : Config.p < 256 ^ 48 := by decide +kernel

theorem fact_p : Fact Config.p.Prime := ⟨prime_p⟩

/-- `-5` is not a square in Fq (rule R16), by Euler's criterion. -/
theorem nonresidue (t : ZMod Config.p) : t ^ 2 ≠ -5 + 0 * t := by
  have := fact_p
  intro h
  have hpow : powMod Config.p (Config.p - 5) ((Config.p - 1) / 2) ≠ 1 := by decide +kernel
  rw [powMod_eq p_pos] at hpow
  apply hpow
  have h5 : ((Config.p - 5 : Nat) : ZMod Config.p) = t ^ 2 := by
    rw [h, Nat.cast_sub (by decide +kernel)]; simp
  have ht : t ≠ 0 := by
    rintro rfl
    have : ((Config.p - 5 : Nat) : ZMod Config.p) = ((0 : Nat) : ZMod Config.p) := by rw [h5]; simp
    exact absurd (eq_of_cast_eq (by decide +kernel) p_pos this) (by decide +kernel)
  refine eq_of_cast_eq (Nat.mod_lt _ p_pos) (by decide +kernel) ?_
  rw [ZMod.natCast_mod, Nat.cast_pow, h5, ← pow_mul, show 2 * ((Config.p - 1) / 2) = Config.p - 1 by decide +kernel,
    ZMod.pow_card_sub_one_eq_one ht, Nat.cast_one]

theorem fact_nonresidue : Fact (∀ t : ZMod Config.p, t ^ 2 ≠ -5 + 0 * t) := ⟨nonresidue⟩

/-! ### The two fields, over any prime -/

section
variable {p : Nat} [Fact p.Prime] (hp : 2 < p)

/-- Fq (rule R170). -/
def fqModel : FieldModel (fqOps p) (ZMod p) where
  reduced a := a < p
  val a := a
  inj := eq_of_cast_eq
  reduced_zero := show 0 < p by omega
  reduced_add := addMod_lt (by omega)
  reduced_sub := subMod_lt (by omega)
  reduced_mul := mulMod_lt (by omega)
  reduced_neg := negMod_lt (by omega)
  val_zero := Nat.cast_zero
  val_small k := ZMod.natCast_mod k p
  val_add := cast_addMod _
  val_sub := cast_subMod (by omega)
  val_mul := cast_mulMod _
  val_neg := cast_negMod (by omega)
  val_inv := cast_invMod hp

/-- Fq2 as a field of Mathlib. -/
abbrev Fq2K (p : Nat) := QuadraticAlgebra (ZMod p) (-5) 0

/-- The value in `Fq2K` of a pair of residues. -/
def fq2Val (p : Nat) (a : Fq2) : Fq2K p := ⟨a.c0, a.c1⟩

variable [Fact (∀ t : ZMod p, t ^ 2 ≠ -5 + 0 * t)]

omit [Fact (∀ t : ZMod p, t ^ 2 ≠ -5 + 0 * t)] in
include hp in
theorem fq2Val_inv (a : Fq2) : fq2Val p (fq2Inv p a) = (fq2Val p a)⁻¹ := by
  have hn : ((invMod p ((a.c0 * a.c0 + 5 * (a.c1 * a.c1)) % p) : Nat) : ZMod p) =
      (QuadraticAlgebra.norm (fq2Val p a))⁻¹ := by
    rw [cast_invMod hp, QuadraticAlgebra.norm_def]
    congr 1
    simp [fq2Val]
    ring
  ext
  · simp [fq2Inv, fq2Val, hn]
    try ring
  · simp [fq2Inv, fq2Val, hn, cast_negMod (show 0 < p by omega)]
    try ring

/-- Fq2 (rules R16, R200). -/
def fq2Model : FieldModel (fq2Ops p) (Fq2K p) where
  reduced a := a.c0 < p ∧ a.c1 < p
  val := fq2Val p
  inj {a b} ha hb h := by
    have h0 : (a.c0 : ZMod p) = b.c0 := congrArg QuadraticAlgebra.re h
    have h1 : (a.c1 : ZMod p) = b.c1 := congrArg QuadraticAlgebra.im h
    cases a; cases b
    rw [Fq2.mk.injEq]
    exact ⟨eq_of_cast_eq ha.1 hb.1 h0, eq_of_cast_eq ha.2 hb.2 h1⟩
  reduced_zero := show 0 < p ∧ 0 < p by omega
  reduced_add a b := ⟨addMod_lt (by omega) _ _, addMod_lt (by omega) _ _⟩
  reduced_sub a b := ⟨subMod_lt (by omega) _ _, subMod_lt (by omega) _ _⟩
  reduced_mul a b := ⟨subMod_lt (by omega) _ _, addMod_lt (by omega) _ _⟩
  reduced_neg a := ⟨negMod_lt (by omega) _, negMod_lt (by omega) _⟩
  val_zero := by ext <;> simp [fq2Val, fq2Ops]
  val_small k := by ext <;> simp [fq2Val, fq2Ops]
  val_add a b := by ext <;> simp [fq2Val, fq2Ops, fq2Add]
  val_sub a b := by ext <;> simp [fq2Val, fq2Ops, fq2Sub, cast_subMod (show 0 < p by omega)]
  val_mul a b := by
    ext <;> simp [fq2Val, fq2Ops, fq2Mul, cast_subMod (show 0 < p by omega)]
    all_goals ring
  val_neg a := by ext <;> simp [fq2Val, fq2Ops, fq2Neg, cast_negMod (show 0 < p by omega)]
  val_inv := fq2Val_inv hp

end

/-! ### The two groups, without a word of Mathlib's curves -/

/-- On the values that satisfy `V`, `add` and `neg` are, up to the injection `φ`, an abelian group. -/
structure GroupHom {G A : Type} [AddCommGroup A] (add : G → G → G) (zero : G) (neg : G → G) (V : G → Prop)
    (φ : G → A) : Prop extends AddHom add zero V φ where
  inj : ∀ {P Q}, V P → V Q → φ P = φ Q → P = Q
  neg_valid : ∀ {P}, V P → V (neg P)
  map_neg : ∀ {P}, V P → φ (neg P) = -φ P

theorem fq_group {p b : Nat} (hp : p.Prime) (h2 : 2 < p) (hb : (432 : ZMod p) * (b : ZMod p) ^ 2 ≠ 0) :
    ∃ (A : Type) (_ : AddCommGroup A) (φ : Point Nat → A),
      GroupHom (pointAdd (fqOps p)) .infinity (pointNeg (fqOps p))
        (fun P => onCurve (fqOps p) b P = true ∧ ∀ x y, P = .affine x y → x < p ∧ y < p) φ := by
  have : Fact p.Prime := ⟨hp⟩
  exact ⟨_, inferInstance, (fqModel h2).toPoint b,
    { FieldModel.addHom (M := fqModel h2) hb with
      inj := FieldModel.toPoint_injective (M := fqModel h2) hb
      neg_valid := FieldModel.valid_pointNeg (M := fqModel h2)
      map_neg := FieldModel.toPoint_pointNeg (M := fqModel h2) hb }⟩

theorem fq2_group {p : Nat} {b : Fq2} (hp : p.Prime) (h2 : 2 < p) (hn : ∀ t : ZMod p, t ^ 2 ≠ -5 + 0 * t)
    (h3 : (432 : ZMod p) ≠ 0) (hb : (b.c1 : ZMod p) ≠ 0) :
    ∃ (A : Type) (_ : AddCommGroup A) (φ : Point Fq2 → A),
      GroupHom (pointAdd (fq2Ops p)) .infinity (pointNeg (fq2Ops p))
        (fun P => onCurve (fq2Ops p) b P = true ∧
          ∀ x y, P = .affine x y → (x.c0 < p ∧ x.c1 < p) ∧ (y.c0 < p ∧ y.c1 < p)) φ := by
  have : Fact p.Prime := ⟨hp⟩
  have : Fact (∀ t : ZMod p, t ^ 2 ≠ -5 + 0 * t) := ⟨hn⟩
  have hb' : (432 : Fq2K p) * (fq2Model h2).val b ^ 2 ≠ 0 := by
    refine mul_ne_zero (fun h => h3 ?_) (pow_ne_zero _ fun h => hb (congrArg QuadraticAlgebra.im h))
    have e := congrArg QuadraticAlgebra.re h
    rwa [QuadraticAlgebra.re_ofNat, QuadraticAlgebra.re_zero] at e
  have : DecidableEq (Fq2K p) := Classical.decEq _
  exact ⟨_, inferInstance, (fq2Model h2).toPoint b,
    { FieldModel.addHom (M := fq2Model h2) hb' with
      inj := FieldModel.toPoint_injective (M := fq2Model h2) hb'
      neg_valid := FieldModel.valid_pointNeg (M := fq2Model h2)
      map_neg := FieldModel.toPoint_pointNeg (M := fq2Model h2) hb' }⟩

/-- The walk agrees with repeated addition wherever the group law does. -/
theorem GroupHom.smul_eq_foldMul {G A : Type} [AddCommGroup A] {add : G → G → G} {zero : G} {neg : G → G} {V : G → Prop}
    {φ : G → A} (h : GroupHom add zero neg V φ) {P : G} {k : Nat} (hP : V P) (hk : k < 2 ^ 253) :
    smul add zero P k = foldMul add zero P k := by
  obtain ⟨a1, a2⟩ := h.toAddHom.map_smul hP hk
  obtain ⟨b1, b2⟩ := h.toAddHom.map_foldMul hP k
  exact h.inj a1 b1 (by rw [a2, b2])

/-- The walk's result is the identity exactly when the multiple is 0: the subgroup test of rule R139. -/
theorem GroupHom.smul_eq_zero_iff {G A : Type} [AddCommGroup A] {add : G → G → G} {zero : G} {neg : G → G} {V : G → Prop}
    {φ : G → A} (h : GroupHom add zero neg V φ) {P : G} {k : Nat} (hP : V P) (hk : k < 2 ^ 253) :
    smul add zero P k = zero ↔ k • φ P = 0 := by
  obtain ⟨a1, a2⟩ := h.toAddHom.map_smul hP hk
  rw [← a2]
  exact ⟨fun e => by rw [e, h.map_zero], fun e => h.inj a1 h.zero_valid (by rw [e, h.map_zero])⟩

theorem cast_ne_zero_of_lt {n : Nat} (h0 : 0 < n) (hn : n < Config.p) : (n : ZMod Config.p) ≠ 0 := fun h =>
  absurd (eq_of_cast_eq hn p_pos (h.trans Nat.cast_zero.symm)) (by omega)

theorem onE_iff (P : Point Nat) :
    onE P = true ↔ onCurve (fqOps Config.p) Config.bG1 P = true ∧
      ∀ x y, P = .affine x y → x < Config.p ∧ y < Config.p := by
  cases P with
  | infinity => exact ⟨fun _ => ⟨rfl, fun _ _ h => nomatch h⟩, fun _ => rfl⟩
  | affine x y =>
    have e : onE (.affine x y) = (decide (x < Config.p) && decide (y < Config.p) &&
      onCurve (fqOps Config.p) Config.bG1 (.affine x y)) := rfl
    rw [e, Bool.and_eq_true, Bool.and_eq_true, decide_eq_true_iff, decide_eq_true_iff]
    constructor
    · rintro ⟨⟨hx, hy⟩, h⟩
      refine ⟨h, fun x' y' he => ?_⟩
      obtain ⟨rfl, rfl⟩ := Point.affine.inj he
      exact ⟨hx, hy⟩
    · exact fun ⟨h, hr⟩ => ⟨hr x y rfl, h⟩

theorem onTwist_iff (P : Point Fq2) :
    onTwist P = true ↔ onCurve (fq2Ops Config.p) ⟨0, Config.bTwistC1⟩ P = true ∧
      ∀ x y, P = .affine x y → (x.c0 < Config.p ∧ x.c1 < Config.p) ∧ (y.c0 < Config.p ∧ y.c1 < Config.p) := by
  cases P with
  | infinity => exact ⟨fun _ => ⟨rfl, fun _ _ h => nomatch h⟩, fun _ => rfl⟩
  | affine x y =>
    have e : onTwist (.affine x y) = (decide (x.c0 < Config.p) && decide (x.c1 < Config.p) &&
      decide (y.c0 < Config.p) && decide (y.c1 < Config.p) &&
      onCurve (fq2Ops Config.p) ⟨0, Config.bTwistC1⟩ (.affine x y)) := rfl
    rw [e]
    simp only [Bool.and_eq_true, decide_eq_true_iff]
    constructor
    · rintro ⟨⟨⟨⟨h0, h1⟩, h2⟩, h3⟩, h⟩
      refine ⟨h, fun x' y' he => ?_⟩
      obtain ⟨rfl, rfl⟩ := Point.affine.inj he
      exact ⟨⟨h0, h1⟩, h2, h3⟩
    · rintro ⟨h, hr⟩
      obtain ⟨⟨h0, h1⟩, h2, h3⟩ := hr x y rfl
      exact ⟨⟨⟨⟨h0, h1⟩, h2⟩, h3⟩, h⟩

/-- The points of E under the model's addition are an abelian group (rules R171, R176). -/
theorem exists_groupHom_g1 : ∃ (A : Type) (_ : AddCommGroup A) (φ : Point Nat → A),
    GroupHom (g1Add curveTables) .infinity (pointNeg (fqOps curveTables.p)) (fun P => onE P = true) φ := by
  have hb : (432 : ZMod Config.p) * ((Config.bG1 : Nat) : ZMod Config.p) ^ 2 ≠ 0 := by
    have h := cast_ne_zero_of_lt (n := 432) (by norm_num) (by decide +kernel)
    have h1 : ((Config.bG1 : Nat) : ZMod Config.p) = 1 := Nat.cast_one
    rw [h1, one_pow, mul_one]
    exact_mod_cast h
  obtain ⟨A, hA, φ, h⟩ := fq_group prime_p two_lt_p hb
  refine ⟨A, hA, φ, ?_⟩
  have hV : (fun P => onE P = true) = fun P => onCurve (fqOps Config.p) Config.bG1 P = true ∧
      ∀ x y, P = .affine x y → x < Config.p ∧ y < Config.p := funext fun P => propext (onE_iff P)
  rw [hV]
  exact h

/-- The points of E' under the model's addition are an abelian group (rules R202, R206). -/
theorem exists_groupHom_g2 : ∃ (A : Type) (_ : AddCommGroup A) (φ : Point Fq2 → A),
    GroupHom (g2Add curveTables) .infinity (pointNeg (fq2Ops curveTables.p)) (fun P => onTwist P = true) φ := by
  have h3 : (432 : ZMod Config.p) ≠ 0 := by
    exact_mod_cast cast_ne_zero_of_lt (n := 432) (by norm_num) (by decide +kernel)
  have hb : (((⟨0, Config.bTwistC1⟩ : Fq2).c1 : Nat) : ZMod Config.p) ≠ 0 :=
    cast_ne_zero_of_lt (by decide +kernel) (by decide +kernel)
  obtain ⟨A, hA, φ, h⟩ := fq2_group prime_p two_lt_p nonresidue h3 hb
  refine ⟨A, hA, φ, ?_⟩
  have hV : (fun P => onTwist P = true) = fun P => onCurve (fq2Ops Config.p) ⟨0, Config.bTwistC1⟩ P = true ∧
      ∀ x y, P = .affine x y → (x.c0 < Config.p ∧ x.c1 < Config.p) ∧ (y.c0 < Config.p ∧ y.c1 < Config.p) :=
    funext fun P => propext (onTwist_iff P)
  rw [hV]
  exact h

/-- G1 is the part of E that Mathlib's group kills by r (rules R139, R172). -/
theorem isG1_iff {A : Type} [AddCommGroup A] {φ : Point Nat → A}
    (h : GroupHom (g1Add curveTables) .infinity (pointNeg (fqOps curveTables.p)) (fun P => onE P = true) φ)
    (P : Point Nat) : isG1 P = true ↔ onE P = true ∧ Config.r • φ P = 0 := by
  rw [isG1, Bool.and_eq_true]
  exact and_congr_right fun h1 =>
    ⟨fun h2 => (h.smul_eq_zero_iff h1 r_lt).1 (of_decide_eq_true h2),
      fun h2 => decide_eq_true ((h.smul_eq_zero_iff h1 r_lt).2 h2)⟩

/-- G2 likewise (rules R139, R203). -/
theorem isG2_iff {A : Type} [AddCommGroup A] {φ : Point Fq2 → A}
    (h : GroupHom (g2Add curveTables) .infinity (pointNeg (fq2Ops curveTables.p)) (fun P => onTwist P = true) φ)
    (Q : Point Fq2) : isG2 Q = true ↔ onTwist Q = true ∧ Config.r • φ Q = 0 := by
  rw [isG2, Bool.and_eq_true]
  exact and_congr_right fun h1 =>
    ⟨fun h2 => (h.smul_eq_zero_iff h1 r_lt).1 (of_decide_eq_true h2),
      fun h2 => decide_eq_true ((h.smul_eq_zero_iff h1 r_lt).2 h2)⟩

end Sys2Proof.Machine
end

