-- ==== Sys2Proof/Laws/Pairing.lean ====
section
/-! SUPPORT. Fq12 (rule R264) over the field Fq2: the coefficients of a product, its commutation and its unit. -/

namespace Sys2Proof.Machine

/-- Reduced coefficients. -/
def Fq12.Reduced (a : Fq12) : Prop :=
  ∀ x ∈ [a.a0, a.a1, a.a2, a.a3, a.a4, a.a5], x.c0 < Config.p ∧ x.c1 < Config.p

/-- `u` in Fq2. -/
abbrev fq2U : Fq2K Config.p := ⟨0, 1⟩

theorem fq2Val_add (a b : Fq2) : fq2Val Config.p (fq2Add Config.p a b) = fq2Val Config.p a + fq2Val Config.p b := by
  have := fact_p
  have := fact_nonresidue
  exact (fq2Model (p := Config.p) two_lt_p).val_add a b

theorem fq2Val_mul (a b : Fq2) : fq2Val Config.p (fq2Mul Config.p a b) = fq2Val Config.p a * fq2Val Config.p b := by
  have := fact_p
  have := fact_nonresidue
  exact (fq2Model (p := Config.p) two_lt_p).val_mul a b

theorem fq2Val_mulU (a : Fq2) : fq2Val Config.p (fq2MulU Config.p a) = fq2U * fq2Val Config.p a := by
  ext
  · simp only [fq2MulU, fq2Val, QuadraticAlgebra.re_mul, cast_negMod p_pos]; push_cast; ring
  · simp only [fq2MulU, fq2Val, QuadraticAlgebra.im_mul]; ring

theorem fq2Val_zero : fq2Val Config.p fq2Zero = 0 := by ext <;> simp [fq2Val, fq2Zero]

theorem fq2Val_one : fq2Val Config.p fq12One.a0 = 1 := by
  ext <;> simp [fq2Val, fq12One, QuadraticAlgebra.re_one, QuadraticAlgebra.im_one]

theorem fq2Val_injective {a b : Fq2} (ha : a.c0 < Config.p ∧ a.c1 < Config.p) (hb : b.c0 < Config.p ∧ b.c1 < Config.p)
    (h : fq2Val Config.p a = fq2Val Config.p b) : a = b := by
  have := fact_p
  have := fact_nonresidue
  exact (fq2Model (p := Config.p) two_lt_p).inj ha hb h

theorem Fq12.ext_val {a b : Fq12} (ha : a.Reduced) (hb : b.Reduced)
    (h0 : fq2Val Config.p a.a0 = fq2Val Config.p b.a0) (h1 : fq2Val Config.p a.a1 = fq2Val Config.p b.a1)
    (h2 : fq2Val Config.p a.a2 = fq2Val Config.p b.a2) (h3 : fq2Val Config.p a.a3 = fq2Val Config.p b.a3)
    (h4 : fq2Val Config.p a.a4 = fq2Val Config.p b.a4) (h5 : fq2Val Config.p a.a5 = fq2Val Config.p b.a5) : a = b := by
  cases a; cases b
  rw [Fq12.mk.injEq]
  exact ⟨fq2Val_injective (ha _ (by simp)) (hb _ (by simp)) h0, fq2Val_injective (ha _ (by simp)) (hb _ (by simp)) h1,
    fq2Val_injective (ha _ (by simp)) (hb _ (by simp)) h2, fq2Val_injective (ha _ (by simp)) (hb _ (by simp)) h3,
    fq2Val_injective (ha _ (by simp)) (hb _ (by simp)) h4, fq2Val_injective (ha _ (by simp)) (hb _ (by simp)) h5⟩

theorem reduced_fq12One : fq12One.Reduced := by unfold Fq12.Reduced; decide +kernel

theorem fq2Val_sub (a b : Fq2) : fq2Val Config.p (fq2Sub Config.p a b) = fq2Val Config.p a - fq2Val Config.p b := by
  have := fact_p
  have := fact_nonresidue
  exact (fq2Model (p := Config.p) two_lt_p).val_sub a b

/-- Addition and subtraction are coefficientwise (rule R264). -/
theorem fq12Add_sub_cancel {a : Fq12} (ha : a.Reduced) (b : Fq12) :
    fq12Sub Config.p (fq12Add Config.p a b) b = a := by
  have hred : (fq12Sub Config.p (fq12Add Config.p a b) b).Reduced := by
    intro x hx
    simp only [fq12Sub, List.mem_cons, List.not_mem_nil, or_false] at hx
    rcases hx with rfl | rfl | rfl | rfl | rfl | rfl <;> exact ⟨subMod_lt p_pos _ _, subMod_lt p_pos _ _⟩
  apply Fq12.ext_val hred ha <;> simp only [fq12Sub, fq12Add, fq2Val_sub, fq2Val_add, add_sub_cancel_right]

/-- The coefficients of a product. -/
theorem fq2Val_mul12 (a b : Fq12) :
    let v := fq2Val Config.p
    v (mul12 Config.p a b).a0 = v a.a0 * v b.a0 +
        fq2U * (v a.a1 * v b.a5 + v a.a2 * v b.a4 + v a.a3 * v b.a3 + v a.a4 * v b.a2 + v a.a5 * v b.a1) ∧
      v (mul12 Config.p a b).a1 = v a.a0 * v b.a1 + v a.a1 * v b.a0 +
        fq2U * (v a.a2 * v b.a5 + v a.a3 * v b.a4 + v a.a4 * v b.a3 + v a.a5 * v b.a2) ∧
      v (mul12 Config.p a b).a2 = v a.a0 * v b.a2 + v a.a1 * v b.a1 + v a.a2 * v b.a0 +
        fq2U * (v a.a3 * v b.a5 + v a.a4 * v b.a4 + v a.a5 * v b.a3) ∧
      v (mul12 Config.p a b).a3 = v a.a0 * v b.a3 + v a.a1 * v b.a2 + v a.a2 * v b.a1 + v a.a3 * v b.a0 +
        fq2U * (v a.a4 * v b.a5 + v a.a5 * v b.a4) ∧
      v (mul12 Config.p a b).a4 = v a.a0 * v b.a4 + v a.a1 * v b.a3 + v a.a2 * v b.a2 + v a.a3 * v b.a1 +
        v a.a4 * v b.a0 + fq2U * (v a.a5 * v b.a5) ∧
      v (mul12 Config.p a b).a5 = v a.a0 * v b.a5 + v a.a1 * v b.a4 + v a.a2 * v b.a3 + v a.a3 * v b.a2 +
        v a.a4 * v b.a1 + v a.a5 * v b.a0 := by
  simp only [mul12, fq2Sum, List.foldl_cons, List.foldl_nil, fq2Val_add, fq2Val_mul, fq2Val_mulU, fq2Val_zero,
    zero_add, and_self]

theorem reduced_mul12 (a b : Fq12) : (mul12 Config.p a b).Reduced := by
  intro x hx
  simp only [mul12, List.mem_cons, List.not_mem_nil, or_false] at hx
  rcases hx with rfl | rfl | rfl | rfl | rfl | rfl <;> exact ⟨addMod_lt p_pos _ _, addMod_lt p_pos _ _⟩

/-- Two factors of a running product commute (rule R273: the order of the pairs is irrelevant). -/
theorem mul12_right_comm (f a b : Fq12) :
    mul12 Config.p (mul12 Config.p f a) b = mul12 Config.p (mul12 Config.p f b) a := by
  obtain ⟨x0, x1, x2, x3, x4, x5⟩ := fq2Val_mul12 f a
  obtain ⟨y0, y1, y2, y3, y4, y5⟩ := fq2Val_mul12 f b
  obtain ⟨z0, z1, z2, z3, z4, z5⟩ := fq2Val_mul12 (mul12 Config.p f a) b
  obtain ⟨w0, w1, w2, w3, w4, w5⟩ := fq2Val_mul12 (mul12 Config.p f b) a
  apply Fq12.ext_val (reduced_mul12 _ _) (reduced_mul12 _ _)
  · rw [z0, w0, x0, x1, x2, x3, x4, x5, y0, y1, y2, y3, y4, y5]; ring
  · rw [z1, w1, x0, x1, x2, x3, x4, x5, y0, y1, y2, y3, y4, y5]; ring
  · rw [z2, w2, x0, x1, x2, x3, x4, x5, y0, y1, y2, y3, y4, y5]; ring
  · rw [z3, w3, x0, x1, x2, x3, x4, x5, y0, y1, y2, y3, y4, y5]; ring
  · rw [z4, w4, x0, x1, x2, x3, x4, x5, y0, y1, y2, y3, y4, y5]; ring
  · rw [z5, w5, x0, x1, x2, x3, x4, x5, y0, y1, y2, y3, y4, y5]; ring

/-- The factor 1 (rule R270). -/
theorem mul12_one (f : Fq12) (hf : f.Reduced) : mul12 Config.p f fq12One = f := by
  obtain ⟨x0, x1, x2, x3, x4, x5⟩ := fq2Val_mul12 f fq12One
  have z1 : fq2Val Config.p fq12One.a1 = 0 := fq2Val_zero
  have z2 : fq2Val Config.p fq12One.a2 = 0 := fq2Val_zero
  have z3 : fq2Val Config.p fq12One.a3 = 0 := fq2Val_zero
  have z4 : fq2Val Config.p fq12One.a4 = 0 := fq2Val_zero
  have z5 : fq2Val Config.p fq12One.a5 = 0 := fq2Val_zero
  apply Fq12.ext_val (reduced_mul12 _ _) hf
  · rw [x0, fq2Val_one]; simp only [z1, z2, z3, z4, z5]; ring
  · rw [x1, fq2Val_one]; simp only [z1, z2, z3, z4, z5]; ring
  · rw [x2, fq2Val_one]; simp only [z1, z2, z3, z4, z5]; ring
  · rw [x3, fq2Val_one]; simp only [z1, z2, z3, z4, z5]; ring
  · rw [x4, fq2Val_one]; simp only [z1, z2, z3, z4, z5]; ring
  · rw [x5, fq2Val_one]; simp only [z1, z2, z3, z4, z5]; ring

end Sys2Proof.Machine
end

