-- ==== Sys2Proof/Laws/Fq12.lean ====
section
/-! SUPPORT. Fq12 (rules R19, R264) as the quadratic algebra `K[w] / (w^2 - v)` over the field `K = Fq2[v] / (v^3 - u)` of
`p^6` elements: what the final exponentiation does to a norm, and the Miller value of `-P` (rules R267, R268, R273). -/

namespace Sys2Proof.Machine

open Polynomial

/-! ### `u` is neither a square nor a cube in Fq2 -/

/-- A power that is no 1 in Fq, in the field: Euler's criterion for 5, the norm of `u`. -/
theorem five_pow_ne_one {e : Nat} (h : powMod Config.p 5 e ≠ 1) : (5 : ZMod Config.p) ^ e ≠ 1 := by
  intro h5
  apply h
  rw [powMod_eq p_pos]
  refine eq_of_cast_eq (Nat.mod_lt _ p_pos) (by decide +kernel) ?_
  rw [ZMod.natCast_mod, Nat.cast_pow, Nat.cast_ofNat, h5, Nat.cast_one]

/-- `u` is no `n`-th power in Fq2 where 5, its norm, is none in Fq. -/
theorem fq2U_ne_pow {n e : Nat} (hne : n * e = Config.p - 1) (hp : powMod Config.p 5 e ≠ 1) (t : Fq2K Config.p) :
    t ^ n ≠ fq2U := by
  have := fact_p
  intro ht
  have hnorm : (QuadraticAlgebra.norm t) ^ n = 5 := by
    rw [← map_pow, ht, QuadraticAlgebra.norm_def]; ring
  have h0 : QuadraticAlgebra.norm t ≠ 0 := by
    intro h
    have hn : n ≠ 0 := by rintro rfl; rw [zero_mul] at hne; exact absurd hne (by decide +kernel)
    rw [h, zero_pow hn] at hnorm
    exact cast_ne_zero_of_lt (n := 5) (by norm_num) (by decide +kernel) (by exact_mod_cast hnorm.symm)
  exact five_pow_ne_one hp (by rw [← hnorm, ← pow_mul, hne, ZMod.pow_card_sub_one_eq_one h0])

theorem fq2U_ne_sq (t : Fq2K Config.p) : t ^ 2 ≠ fq2U :=
  fq2U_ne_pow (e := (Config.p - 1) / 2) (by decide +kernel) (by decide +kernel) t

theorem fq2U_ne_cube (t : Fq2K Config.p) : t ^ 3 ≠ fq2U :=
  fq2U_ne_pow (e := (Config.p - 1) / 3) (by decide +kernel) (by decide +kernel) t

/-! ### The field of `p^6` elements -/

/-- What is used of `Fq2[v] / (v^3 - u)`: a cube root `v` of `u`, independence of `1, v, v^2`, and its number of units. -/
structure CubicField {K : Type} [Field K] (ι : Fq2K Config.p →+* K) (v : K) : Prop where
  cube : v ^ 3 = ι fq2U
  independent : ∀ {a b c : Fq2K Config.p}, ι a + ι b * v + ι c * v ^ 2 = 0 → a = 0 ∧ b = 0 ∧ c = 0
  pow_card : ∀ {x : K}, x ≠ 0 → x ^ (Config.p ^ 6 - 1) = 1

theorem exists_cubicField : ∃ (K : Type) (_ : Field K) (ι : Fq2K Config.p →+* K) (v : K), CubicField ι v := by
  have := fact_p
  have := fact_nonresidue
  have hirr : Irreducible (X ^ 3 - C fq2U : (Fq2K Config.p)[X]) :=
    X_pow_sub_C_irreducible_of_prime Nat.prime_three fq2U_ne_cube
  have : Fact (Irreducible (X ^ 3 - C fq2U : (Fq2K Config.p)[X])) := ⟨hirr⟩
  have hmonic : (X ^ 3 - C fq2U : (Fq2K Config.p)[X]).Monic := monic_X_pow_sub_C _ (by norm_num)
  have hdeg : (X ^ 3 - C fq2U : (Fq2K Config.p)[X]).natDegree = 3 := natDegree_X_pow_sub_C
  refine ⟨AdjoinRoot (X ^ 3 - C fq2U), inferInstance, AdjoinRoot.of _, AdjoinRoot.root _, ?_, ?_, ?_⟩
  · have h := AdjoinRoot.eval₂_root (X ^ 3 - C fq2U : (Fq2K Config.p)[X])
    rw [eval₂_sub, eval₂_X_pow, eval₂_C, sub_eq_zero] at h
    exact h
  · intro a b c h
    have h' : AdjoinRoot.mk (X ^ 3 - C fq2U) (C a + C b * X + C c * X ^ 2) = 0 := by
      simpa only [map_add, map_mul, map_pow, AdjoinRoot.mk_C, AdjoinRoot.mk_X] using h
    have hz : (C a + C b * X + C c * X ^ 2 : (Fq2K Config.p)[X]) = 0 := by
      refine eq_zero_of_dvd_of_natDegree_lt (AdjoinRoot.mk_eq_zero.1 h') ?_
      rw [hdeg]
      refine lt_of_le_of_lt (b := 2) ?_ (by norm_num)
      compute_degree
    have key : ∀ n, (C a + C b * X + C c * X ^ 2 : (Fq2K Config.p)[X]).coeff n = 0 := fun n => by rw [hz, coeff_zero]
    have k0 := key 0
    have k1 := key 1
    have k2 := key 2
    simp [coeff_X, coeff_C, coeff_X_pow] at k0 k1 k2
    exact ⟨k0, k1, k2⟩
  · have : Module.Finite (Fq2K Config.p) (AdjoinRoot (X ^ 3 - C fq2U : (Fq2K Config.p)[X])) :=
      (AdjoinRoot.powerBasis hirr.ne_zero).finite
    have : Finite (Fq2K Config.p) := Module.finite_of_finite (ZMod Config.p)
    have : Finite (AdjoinRoot (X ^ 3 - C fq2U : (Fq2K Config.p)[X])) := Module.finite_of_finite (Fq2K Config.p)
    have := Fintype.ofFinite (AdjoinRoot (X ^ 3 - C fq2U : (Fq2K Config.p)[X]))
    have hcard : Fintype.card (AdjoinRoot (X ^ 3 - C fq2U : (Fq2K Config.p)[X])) = Config.p ^ 6 := by
      rw [← Nat.card_eq_fintype_card, Module.natCard_eq_pow_finrank (K := Fq2K Config.p),
        (AdjoinRoot.powerBasis hirr.ne_zero).finrank, AdjoinRoot.powerBasis_dim, hdeg,
        Module.natCard_eq_pow_finrank (K := ZMod Config.p), QuadraticAlgebra.finrank_eq_two, Nat.card_zmod, ← pow_mul]
    intro x hx
    rw [← hcard]
    exact FiniteField.pow_card_sub_one_eq_one x hx

/-! ### Fq12 over it -/

/-- `K[w] / (w^2 - v)`. -/
abbrev Fq12K (K : Type) [Field K] (v : K) := QuadraticAlgebra K v 0

/-- The value of an Fq12 element: its even coefficients and its odd ones (rule R264: `w^2 = v`). -/
def fq12Val {K : Type} [Field K] (ι : Fq2K Config.p →+* K) (v : K) (a : Fq12) : Fq12K K v :=
  ⟨ι (fq2Val Config.p a.a0) + ι (fq2Val Config.p a.a2) * v + ι (fq2Val Config.p a.a4) * v ^ 2,
    ι (fq2Val Config.p a.a1) + ι (fq2Val Config.p a.a3) * v + ι (fq2Val Config.p a.a5) * v ^ 2⟩

section
variable {K : Type} [Field K] {ι : Fq2K Config.p →+* K} {v : K} (h : CubicField ι v)

include h in
theorem CubicField.val_mul12 (a b : Fq12) :
    fq12Val ι v (mul12 Config.p a b) = fq12Val ι v a * fq12Val ι v b := by
  obtain ⟨x0, x1, x2, x3, x4, x5⟩ := fq2Val_mul12 a b
  have hv := h.cube
  ext
  · simp only [fq12Val, QuadraticAlgebra.re_mul, x0, x2, x4, map_add, map_mul, ← hv]; ring
  · simp only [fq12Val, QuadraticAlgebra.im_mul, x1, x3, x5, map_add, map_mul, ← hv]; ring

theorem fq12Val_one : fq12Val ι v fq12One = 1 := by
  have z1 : fq2Val Config.p fq12One.a1 = 0 := fq2Val_zero
  have z2 : fq2Val Config.p fq12One.a2 = 0 := fq2Val_zero
  have z3 : fq2Val Config.p fq12One.a3 = 0 := fq2Val_zero
  have z4 : fq2Val Config.p fq12One.a4 = 0 := fq2Val_zero
  have z5 : fq2Val Config.p fq12One.a5 = 0 := fq2Val_zero
  ext <;> simp [fq12Val, fq2Val_one, z1, z2, z3, z4, z5, QuadraticAlgebra.re_one, QuadraticAlgebra.im_one]

include h in
/-- Reduced elements with one value are equal. -/
theorem CubicField.val_injective {a b : Fq12} (ha : a.Reduced) (hb : b.Reduced)
    (hab : fq12Val ι v a = fq12Val ι v b) : a = b := by
  have split : ∀ {x0 x1 x2 y0 y1 y2 : Fq2K Config.p}, ι x0 + ι x1 * v + ι x2 * v ^ 2 = ι y0 + ι y1 * v + ι y2 * v ^ 2 →
      x0 = y0 ∧ x1 = y1 ∧ x2 = y2 := by
    intro x0 x1 x2 y0 y1 y2 e
    obtain ⟨e0, e1, e2⟩ := h.independent (a := x0 - y0) (b := x1 - y1) (c := x2 - y2)
      (by simp only [map_sub]; linear_combination e)
    exact ⟨sub_eq_zero.1 e0, sub_eq_zero.1 e1, sub_eq_zero.1 e2⟩
  obtain ⟨e0, e2, e4⟩ := split (congrArg QuadraticAlgebra.re hab)
  obtain ⟨e1, e3, e5⟩ := split (congrArg QuadraticAlgebra.im hab)
  exact Fq12.ext_val ha hb e0 e1 e2 e3 e4 e5

/-! ### Powers and the final exponentiation -/

include h in
theorem CubicField.val_pow12Bits (n : Nat) (a : Fq12) (e : Nat) (acc : Fq12) (he : e < 2 ^ n) :
    fq12Val ι v (pow12Bits Config.p n a e acc) = fq12Val ι v acc * fq12Val ι v a ^ e := by
  induction n generalizing a e acc with
  | zero => rw [show e = 0 by omega, pow_zero, mul_one]; rfl
  | succ n ih =>
    have he' : e / 2 < 2 ^ n := by rw [pow_succ] at he; omega
    rw [pow12Bits, ih _ _ _ he', h.val_mul12, ← pow_two, ← pow_mul]
    split
    · next h1 =>
      rw [h.val_mul12, mul_assoc, ← pow_succ', show 2 * (e / 2) + 1 = e by omega]
    · next h1 => rw [show 2 * (e / 2) = e by omega]

theorem reduced_pow12Bits (n : Nat) (a : Fq12) (e : Nat) {acc : Fq12} (ha : acc.Reduced) :
    (pow12Bits Config.p n a e acc).Reduced := by
  induction n generalizing a e acc with
  | zero => exact ha
  | succ n ih =>
    rw [pow12Bits]
    split
    · exact ih _ _ (reduced_mul12 _ _)
    · exact ih _ _ ha

include h in
/-- `final_exp(f) = 1`, as an equation of values (rule R268). -/
theorem CubicField.finalExponentiation_eq_one_iff (f : Fq12) :
    finalExponentiation curveTables f = fq12One ↔ fq12Val ι v f ^ Config.finalExp = 1 := by
  have e : fq12Val ι v (finalExponentiation curveTables f) = fq12Val ι v f ^ Config.finalExp := by
    show fq12Val ι v (pow12Bits Config.p (Config.finalExp.log2 + 1) f Config.finalExp fq12One) = _
    rw [h.val_pow12Bits _ _ _ _ Nat.lt_log2_self, fq12Val_one, one_mul]
  rw [← e]
  exact ⟨fun hf => by rw [hf, fq12Val_one],
    fun hf => h.val_injective (reduced_pow12Bits _ _ _ reduced_fq12One) reduced_fq12One (hf.trans fq12Val_one.symm)⟩

include h in
/-- The final exponentiation kills what lies in the field of `p^6` elements. -/
theorem CubicField.finalExp_algebraMap {x : K} (hx : x ≠ 0) :
    (algebraMap K (Fq12K K v) x) ^ Config.finalExp = 1 := by
  have hd : Config.finalExp = (Config.p ^ 6 - 1) * (Config.finalExp / (Config.p ^ 6 - 1)) := by decide +kernel
  rw [hd, pow_mul, ← map_pow, h.pow_card hx, map_one, one_pow]

/-! ### The Miller value of `-P` -/

/-- Equal up to the sign and the conjugation `w -> -w`. -/
def Conjugate (x y : Fq12K K v) : Prop := y = star x ∨ y = -star x

theorem Conjugate.mul {x y x' y' : Fq12K K v} (hx : Conjugate x y) (hx' : Conjugate x' y') :
    Conjugate (x * x') (y * y') := by
  have e : star (x * x') = star x * star x' := by rw [star_mul, mul_comm]
  rcases hx with rfl | rfl <;> rcases hx' with rfl | rfl <;> simp [Conjugate, e]

include h in
/-- The final exponentiation kills the product of an invertible value and a conjugate of it. -/
theorem CubicField.finalExp_mul_conjugate {x y : Fq12K K v} (hx : QuadraticAlgebra.norm x ≠ 0) (hxy : Conjugate x y) :
    (x * y) ^ Config.finalExp = 1 := by
  rcases hxy with rfl | rfl
  · rw [← QuadraticAlgebra.algebraMap_norm_eq_mul_star]
    exact h.finalExp_algebraMap hx
  · rw [mul_neg, ← QuadraticAlgebra.algebraMap_norm_eq_mul_star, ← map_neg]
    exact h.finalExp_algebraMap (neg_ne_zero.2 hx)

/-- The coefficients of a line that are not zero (rule R266). -/
theorem line_val (T S : Fq2 × Fq2) (xP yP : Nat) : ∃ lam c : Fq2K Config.p, ∀ y : Nat,
    fq12Val ι v (line Config.p T S xP y).1 =
      ⟨ι ((y : ZMod Config.p) • 1), ι lam + ι c * v⟩ ∧
    (line Config.p T S xP y).2 = (line Config.p T S xP yP).2 := by
  refine ⟨fq2Val Config.p (line Config.p T S xP yP).1.a1, fq2Val Config.p (line Config.p T S xP yP).1.a3,
    fun y => ⟨?_, rfl⟩⟩
  have e0 : fq2Val Config.p ⟨y, 0⟩ = (y : ZMod Config.p) • 1 := by
    ext <;> simp [fq2Val, QuadraticAlgebra.re_one, QuadraticAlgebra.im_one]
  ext
  · simp only [fq12Val, line, e0, fq2Val_zero, map_zero, zero_mul, add_zero]
  · simp only [fq12Val, line, fq2Val_zero, map_zero, zero_mul, add_zero]

include h in
/-- A line is invertible at a point that is not of order 2: `u` is no square. -/
theorem CubicField.norm_line_ne_zero (T S : Fq2 × Fq2) (xP : Nat) {yP : Nat} (hy : (yP : ZMod Config.p) ≠ 0) :
    QuadraticAlgebra.norm (fq12Val ι v (line Config.p T S xP yP).1) ≠ 0 := by
  have := fact_p
  have := fact_nonresidue
  obtain ⟨lam, c, hl⟩ := line_val (ι := ι) (v := v) T S xP yP
  rw [(hl yP).1, QuadraticAlgebra.norm_def]
  intro h0
  set y : Fq2K Config.p := (yP : ZMod Config.p) • 1 with hyd
  have hy1 : y ≠ 0 := by
    intro e
    have e' := congrArg QuadraticAlgebra.re e
    simp [hyd, QuadraticAlgebra.re_one] at e'
    exact hy e'
  obtain ⟨k0, -, -⟩ := h.independent (a := y ^ 2 - c ^ 2 * fq2U) (b := -lam ^ 2) (c := -(2 * lam * c)) (by
    simp only [map_sub, map_mul, map_pow, map_neg, map_ofNat, ← h.cube]
    linear_combination h0)
  have hc : c ≠ 0 := by
    rintro rfl
    exact hy1 (by simpa using k0)
  refine fq2U_ne_sq (y / c) ?_
  field_simp
  linear_combination k0

include h in
/-- The Miller loops of P and of -P step together: the values stay conjugate and invertible (rule R267). -/
theorem CubicField.millerBits_conjugate (count : Nat) (Q : Fq2 × Fq2) (xP : Nat) {yP yP' : Nat}
    (hy : (yP : ZMod Config.p) ≠ 0) (hy' : (yP' : ZMod Config.p) = -yP) (n : Nat) (f f' : Fq12) (T : Fq2 × Fq2)
    (hf : QuadraticAlgebra.norm (fq12Val ι v f) ≠ 0) (hff : Conjugate (fq12Val ι v f) (fq12Val ι v f')) :
    QuadraticAlgebra.norm (fq12Val ι v (millerBits Config.p count Q xP yP n f T)) ≠ 0 ∧
      Conjugate (fq12Val ι v (millerBits Config.p count Q xP yP n f T))
        (fq12Val ι v (millerBits Config.p count Q xP yP' n f' T)) := by
  have hline : ∀ T S : Fq2 × Fq2, Conjugate (fq12Val ι v (line Config.p T S xP yP).1)
      (fq12Val ι v (line Config.p T S xP yP').1) := by
    intro T S
    obtain ⟨lam, c, hl⟩ := line_val (ι := ι) (v := v) T S xP yP
    rw [(hl yP).1, (hl yP').1, hy', neg_smul, map_neg]
    exact .inr (by ext <;> simp)
  have hpt : ∀ T S : Fq2 × Fq2, (line Config.p T S xP yP').2 = (line Config.p T S xP yP).2 := fun _ _ => rfl
  induction n generalizing f f' T with
  | zero => exact ⟨hf, hff⟩
  | succ n ih =>
    have s1 : QuadraticAlgebra.norm (fq12Val ι v (mul12 Config.p (mul12 Config.p f f) (line Config.p T T xP yP).1)) ≠ 0 := by
      rw [h.val_mul12, h.val_mul12, map_mul, map_mul]
      exact mul_ne_zero (mul_ne_zero hf hf) (h.norm_line_ne_zero T T xP hy)
    have s2 : Conjugate (fq12Val ι v (mul12 Config.p (mul12 Config.p f f) (line Config.p T T xP yP).1))
        (fq12Val ι v (mul12 Config.p (mul12 Config.p f' f') (line Config.p T T xP yP').1)) := by
      simp only [h.val_mul12]
      exact (hff.mul hff).mul (hline T T)
    simp only [millerBits, hpt]
    split
    · refine ih _ _ _ ?_ ?_
      · rw [h.val_mul12, map_mul]
        exact mul_ne_zero s1 (h.norm_line_ne_zero _ _ xP hy)
      · simp only [h.val_mul12] at s2 ⊢
        exact s2.mul (hline _ _)
    · exact ih _ _ _ s1 s2

end

/-- No point of G1 has `y = 0` (rule R182): it would have order 2. -/
theorem y_ne_zero_of_isG1 {x y : Nat} (hP : isG1 (.affine x y) = true) : (y : ZMod Config.p) ≠ 0 := by
  obtain ⟨A, _, φ, h⟩ := exists_groupHom_g1
  obtain ⟨hE, hr⟩ := (isG1_iff h _).1 hP
  have hlt : y < Config.p := (((onE_iff _).1 hE).2 x y rfl).2
  intro hy
  obtain rfl : y = 0 := eq_of_cast_eq hlt p_pos (hy.trans Nat.cast_zero.symm)
  have h2 : φ (.affine x 0) + φ (.affine x 0) = 0 := by
    rw [← h.map_add hE hE, ← h.map_zero]
    congr 1
    show (if x = x then if addMod Config.p 0 0 = 0 then Point.infinity else _ else _) = _
    rw [if_pos rfl, if_pos (by decide +kernel)]
  have h1 : φ (.affine x 0) = φ .infinity := by
    have e : Config.r = 2 * (Config.r / 2) + 1 := by decide +kernel
    rw [h.map_zero, ← hr, e, add_smul, mul_comm, mul_smul, two_smul, h2, smul_zero, zero_add, one_smul]
  exact nomatch h.inj hE h.zero_valid h1

/-- The Miller values of a point of G1 and of its negative are conjugate and invertible, whatever the other point is: their
product is killed by the final exponentiation (rules R273, R276). -/
theorem CubicField.miller_neg {K : Type} [Field K] {ι : Fq2K Config.p →+* K} {v : K} (h : CubicField ι v) {P : Point Nat}
    (hP : isG1 P = true) (Q : Point Fq2) :
    (fq12Val ι v (miller curveTables P Q) *
      fq12Val ι v (miller curveTables (pointNeg (fqOps curveTables.p) P) Q)) ^ Config.finalExp = 1 := by
  have hone : QuadraticAlgebra.norm (fq12Val ι v fq12One) ≠ 0 := by
    rw [fq12Val_one, map_one]; exact one_ne_zero
  have hcone : Conjugate (fq12Val ι v fq12One) (fq12Val ι v fq12One) := .inl (by rw [fq12Val_one, star_one])
  cases P with
  | infinity => exact h.finalExp_mul_conjugate hone hcone
  | affine x y =>
    cases Q with
    | infinity => exact h.finalExp_mul_conjugate hone hcone
    | affine xQ yQ =>
      obtain ⟨h1, h2⟩ := h.millerBits_conjugate curveTables.xSeed (xQ, yQ) x (y_ne_zero_of_isG1 hP)
        (cast_negMod p_pos y) curveTables.xSeed.log2 fq12One fq12One (xQ, yQ) hone hcone
      exact h.finalExp_mul_conjugate h1 h2

end Sys2Proof.Machine
end

