-- ==== Sys2Proof/Laws/PerInstr.lean ====
section
/-! SUPPORT. Statements about every command, one lemma per constructor. -/

namespace Sys2Proof.Laws.RoundTrip

/-- The word of the command is legal, its reserved bits are 0, and it decodes to the command (rules R91, R100, R102). -/
def Statement (i : Instr) : Prop :=
  legalWord (encode i) = true ∧ fieldRsv (encode i) = 0 ∧ decode (encode i) = .ok i

theorem init : Statement .init := ⟨by decide, by decide, by decide⟩
theorem frOne : Statement .frOne := ⟨by decide, by decide, by decide⟩
theorem frAdd : Statement .frAdd := ⟨by decide, by decide, by decide⟩
theorem frSub : Statement .frSub := ⟨by decide, by decide, by decide⟩
theorem frMul : Statement .frMul := ⟨by decide, by decide, by decide⟩
theorem frInv : Statement .frInv := ⟨by decide, by decide, by decide⟩
theorem frNeg : Statement .frNeg := ⟨by decide, by decide, by decide⟩
theorem g1One : Statement .g1One := ⟨by decide, by decide, by decide⟩
theorem g1Add : Statement .g1Add := ⟨by decide, by decide, by decide⟩
theorem g1Neg : Statement .g1Neg := ⟨by decide, by decide, by decide⟩
theorem g1Mul : Statement .g1Mul := ⟨by decide, by decide, by decide⟩
theorem g1Msm : Statement .g1Msm := ⟨by decide, by decide, by decide⟩
theorem g2One : Statement .g2One := ⟨by decide, by decide, by decide⟩
theorem g2Add : Statement .g2Add := ⟨by decide, by decide, by decide⟩
theorem g2Neg : Statement .g2Neg := ⟨by decide, by decide, by decide⟩
theorem g2Mul : Statement .g2Mul := ⟨by decide, by decide, by decide⟩
theorem g2Msm : Statement .g2Msm := ⟨by decide, by decide, by decide⟩
theorem pairingCheck : Statement .pairingCheck := ⟨by decide, by decide, by decide⟩

end Sys2Proof.Laws.RoundTrip
end

