-- ==== Sys2Proof/Tests/Slice0.lean ====
section
/-! SUPPORT. The model's own tests: the smoke test of WellFormed, decoding of words written out bit by bit, at most two one-step
tests per command, and for every statement with hypotheses a witness that meets them.  Expected values are the vectors of
`95_test_vectors.md` (named in each test) or a rule's own example. -/

namespace Sys2Proof.Tests

-- One theorem at a time: checked all at once they need more threads than the memory limit allows.
set_option Elab.async false

open Sys2Proof.Machine

/-! ### WellFormed: each check refuses an ill-formed term -/

theorem test_wf_instr : Instr.wellFormed .frAdd = true := by decide
theorem test_wf_reserved_refused : reservedZero 0x00000110#32 = false := by decide
theorem test_wf_opcode_refused : opcodeAssigned 0x00000041#32 = false := by decide
theorem test_wf_legal_refuses_reserved : legalWord 0x80000010#32 = false := by decide
theorem test_wf_legal_refuses_opcode : legalWord 0x00000016#32 = false := by decide
theorem test_wf_legal : legalWord 0x00000040#32 = true := by decide

/-- A buffer. -/
def buf : Buffer := ⟨0x1000, 32⟩

theorem test_wf_line : CallLine.wellFormed ⟨.frAdd, some buf, some buf, some buf⟩ = true := by decide
theorem test_wf_line_s0_refused : CallLine.s0Ok ⟨.frOne, some buf, some buf, none⟩ = false := by decide
theorem test_wf_line_s1_refused : CallLine.s1Ok ⟨.frAdd, some buf, some buf, none⟩ = false := by decide
theorem test_wf_line_d_refused : CallLine.dOk ⟨.init, some buf, none, none⟩ = false := by decide
theorem test_wf_line_refused : CallLine.wellFormed ⟨.frInv, some buf, none, none⟩ = false := by decide

/-! ### Decoding: rule R91's fields RSV, UNIT, FN, written out bit by bit from rule R100's table -/

theorem test_decode_init : decode 0b000000000000000000000000_0000_0000#32 = .ok .init := by decide
theorem test_decode_frOne : decode 0b000000000000000000000000_0001_0000#32 = .ok .frOne := by decide
theorem test_decode_frAdd : decode 0b000000000000000000000000_0001_0001#32 = .ok .frAdd := by decide
theorem test_decode_frSub : decode 0b000000000000000000000000_0001_0010#32 = .ok .frSub := by decide
theorem test_decode_frMul : decode 0b000000000000000000000000_0001_0011#32 = .ok .frMul := by decide
theorem test_decode_frInv : decode 0b000000000000000000000000_0001_0100#32 = .ok .frInv := by decide
theorem test_decode_frNeg : decode 0b000000000000000000000000_0001_0101#32 = .ok .frNeg := by decide
theorem test_decode_g1One : decode 0b000000000000000000000000_0010_0000#32 = .ok .g1One := by decide
theorem test_decode_g1Add : decode 0b000000000000000000000000_0010_0001#32 = .ok .g1Add := by decide
theorem test_decode_g1Neg : decode 0b000000000000000000000000_0010_0010#32 = .ok .g1Neg := by decide
theorem test_decode_g1Mul : decode 0b000000000000000000000000_0010_0011#32 = .ok .g1Mul := by decide
theorem test_decode_g1Msm : decode 0b000000000000000000000000_0010_0100#32 = .ok .g1Msm := by decide
theorem test_decode_g2One : decode 0b000000000000000000000000_0011_0000#32 = .ok .g2One := by decide
theorem test_decode_g2Add : decode 0b000000000000000000000000_0011_0001#32 = .ok .g2Add := by decide
theorem test_decode_g2Neg : decode 0b000000000000000000000000_0011_0010#32 = .ok .g2Neg := by decide
theorem test_decode_g2Mul : decode 0b000000000000000000000000_0011_0011#32 = .ok .g2Mul := by decide
theorem test_decode_g2Msm : decode 0b000000000000000000000000_0011_0100#32 = .ok .g2Msm := by decide
theorem test_decode_pairingCheck : decode 0b000000000000000000000000_0100_0000#32 = .ok .pairingCheck := by decide

theorem test_decode_reserved : decode 0x00000110#32 = .error .reservedBits := by decide       -- V-AD-2
theorem test_decode_unit : decode 0x00000050#32 = .error .unassignedUnit := by decide         -- rule R102
theorem test_decode_function : decode 0x00000041#32 = .error .unassignedFunction := by decide -- V-AD-5
theorem test_decode_table : decodeTableWord 32 0x24 = some .g1Msm := by decide

/-! ### A small machine -/

/-- Port 0 with its buffers at 0x1000, 0x1400 and 0x2000. -/
def port0 (l0 l1 ld : Word64) : Port := ⟨0, false, 0x1000, l0, 0x1400, l1, 0x2000, ld⟩

/-- An initialised core whose sources hold the given bytes. -/
def machine (b0 b1 : Bytes) (ld : Word64) : State :=
  { State.reset with
    initDone := true, tables := some curveTables
    ports := [port0 (BitVec.ofNat 64 b0.length) (BitVec.ofNat 64 b1.length) ld]
    mem := memWrite (memWrite [] 0x1000 b0) 0x1400 b1 }

/-- What a call leaves: `STATUS.OK`, and the destination as one big-endian number. -/
def outcome (i : Instr) (s : State) (ld : Nat) : Option (Bool × Nat) :=
  match exec i s with
  | .next t => (t.ports.head?).map fun pt => (pt.ok, beNat (memRead t.mem 0x2000 ld))
  | .fault _ => none
  | .refused _ => none

/-- The bytes of an Fr value. -/
def fr (a : Nat) : Bytes := beBytes 32 a

/-- The bytes of a point of G1 from its flag and coordinates (rule R107). -/
def g1 (flag : Byte) (x y : Nat) : Bytes := flag :: (beBytes 48 x ++ beBytes 48 y)

/-- `enc(O)` of G1, and of G2 (rules R107, R108). -/
def g1O : Bytes := 1 :: List.replicate 96 0
def g2O : Bytes := 1 :: List.replicate 192 0

/-- The count prefix of a list. -/
def count (n : Nat) : Bytes := beBytes 4 n

/-! ### The step -/

/-- A decidable form of "the outcome is a next state, this one". -/
def nextIs (t : State) : Outcome → Bool
  | .next u => decide (u = t)
  | .fault _ => false
  | .refused _ => false

theorem next_of {o : Outcome} {t : State} (h : nextIs t o = true) : o = .next t := by
  cases o <;> simp_all [nextIs]

theorem test_step_init : step (State.reset.withFetchWord 32 0) =
    .next { State.reset with initDone := true, tables := some curveTables, ports := [⟨0, true, 0, 0, 0, 0, 0, 0⟩] } := by
  exact next_of (by decide +kernel)
theorem test_step_frOne : step (State.reset.withFetchWord 32 0x10) =       -- V-AD-3
    .next { State.reset with ports := [⟨0x10, false, 0, 0, 0, 0, 0, 0⟩] } := next_of (by decide +kernel)
theorem test_step_illegal : step (State.reset.withFetchWord 32 0x16) =     -- V-AD-1
    .next { State.reset with ports := [⟨0x16, false, 0, 0, 0, 0, 0, 0⟩] } := next_of (by decide +kernel)
theorem test_step_idle : step State.reset = .next State.reset := rfl
theorem test_step_noPort : step { State.reset with pending := [.writeCw 1 0] } = .fault .noSuchPort := rfl
theorem test_step_noAddress : step { State.reset with pending := [.storeByte 0x5000 1] } = .fault .noSuchAddress := rfl
theorem test_line_actions : callLineActions 0 (expandPseudo (.g1Dbl ⟨0x2000, 97⟩ ⟨0x1000, 97⟩)) =   -- rules R120, R121
    [.writeSlot 0 .s0p 0x1000, .writeSlot 0 .s0l 97, .writeSlot 0 .s1p 0x1000, .writeSlot 0 .s1l 97,
     .writeSlot 0 .dp 0x2000, .writeSlot 0 .dl 97, .writeCw 0 0x21] := by decide +kernel

/-! ### Fr -/

/-- The operands a and b of the vectors. -/
def frA : Nat := 0x0123456789abcdef0123456789abcdef0123456789abcdef0123456789abcdef
def frB : Nat := 0x0fedcba9876543210fedcba9876543210fedcba9876543210fedcba987654321

theorem test_frOne : outcome .frOne (machine [] [] 32) 32 = some (true, 1) := by decide +kernel   -- V-FR-1
theorem test_frOne_length : outcome .frOne (machine [] [] 33) 32 = some (false, 0) := by decide +kernel   -- V-AD-13
theorem test_frAdd : outcome .frAdd (machine (fr frA) (fr frB) 32) 32 =
    some (true, 0x1111111111111110111111111111111011111111111111101111111111111110) := by decide +kernel   -- V-FR-3
theorem test_frAdd_wraps : outcome .frAdd (machine (fr (Config.r - 1)) (fr (Config.r - 1)) 32) 32 =
    some (true, 0x12ab655e9a2ca55660b44d1e5c37b00159aa76fed00000010a117fffffffffff) := by decide +kernel   -- V-FR-5
theorem test_frSub_borrows : outcome .frSub (machine (fr frA) (fr frB) 32) 32 =
    some (true, 0x03e0df1c9c73302451e9c6dc5e7e3acf4adff0bcd2468acefb46f9be02468acf) := by decide +kernel   -- V-FR-7
theorem test_frSub : outcome .frSub (machine (fr frB) (fr frA) 32) 32 =
    some (true, 0x0eca8641fdb975320eca8641fdb975320eca8641fdb975320eca8641fdb97532) := by decide +kernel   -- V-FR-8
theorem test_frMul : outcome .frMul (machine (fr frA) (fr frB) 32) 32 =
    some (true, 0x0b26e58a052012c2cb59e3f7d8ade95f4bd04a27b367c5ff6c363cc0b6315c16) := by decide +kernel   -- V-FR-11
theorem test_frMul_range : outcome .frMul (machine (fr 1) (fr Config.r) 32) 32 = some (false, 0) := by decide +kernel   -- as V-FR-12
theorem test_frInv : outcome .frInv (machine (fr frA) [] 32) 32 =
    some (true, 0x0aa198de520caa75ab57a0b6c102a06305c5999ba3b31f80e71dd29f8aee8af1) := by decide +kernel   -- V-FR-17
theorem test_frInv_zero : outcome .frInv (machine (fr 0) [] 32) 32 = some (false, 0) := by decide +kernel   -- V-FR-22
theorem test_frNeg : outcome .frNeg (machine (fr frA) [] 32) 32 =
    some (true, 0x11881ff71080d7675f9107b6d28be212588731974654321208ee3a9876543212) := by decide +kernel   -- V-FR-23
theorem test_frNeg_zero : outcome .frNeg (machine (fr 0) [] 32) 32 = some (true, 0) := by decide +kernel   -- V-FR-24

/-! ### G1 -/

/-- G, 2G and 3G (section 3 of the vectors). -/
def ptG : Point Nat := .affine Config.gX Config.gY
def pt2G : Point Nat := .affine
  0x00ed453141939e91056edb5a4b5452ed7e61f7f3dd2a4b7ee90e97c9a2301955880661656781dc90857aed6d6a416390
  0x00cfb0b9717bc8e5ae04601813171337ad99cdae42c561cae80b12f135c64479d6a23f5675ed5ca7e2dd5e8727d7c7ed
def pt3G : Point Nat := .affine
  0x01252b781171f507db36291b433a1f911a46543890a20ca9712e11f66a5d216e63d817bd8d96cef715abc604dcf6ec2e
  0x014a00fa77c727e8987cc438b51bbe012c823a19955ae692c54ce572a61f0ea1fe5cd981533df419fd1330d1f6e6d802
/-- `enc(O)` as one number: the flag byte before 96 zero bytes. -/
def g1ONat : Nat := 256 ^ 96
def g2ONat : Nat := 256 ^ 192

theorem test_g1One : outcome .g1One (machine [] [] 97) 97 = some (true,
    0x00008848defe740a67c8fc6225bf87ff5485951e2caa9d41bb188282c8bd37cb5cd5481512ffcd394eeab9b16eb21be9ef01914a69c5102eff1f674f5d30afeec4bd7fb348ca3e52d96d182ad44fb82305c2fe3d3634a9591afd82de55559c8ea6) := by decide +kernel   -- V-G1-1
theorem test_g1Add_identity : outcome .g1Add (machine g1O g1O 97) 97 = some (true, g1ONat) := by decide +kernel   -- V-G1-14
theorem test_g1Add_law : g1Add curveTables ptG ptG = pt2G ∧ g1Add curveTables pt2G ptG = pt3G ∧
    g1Add curveTables ptG (g1Minus ptG) = .infinity := by decide +kernel   -- V-G1-2, V-G1-15, V-G1-12
theorem test_g1Neg_identity : outcome .g1Neg (machine g1O [] 97) 97 = some (true, g1ONat) := by decide +kernel   -- V-G1-19
theorem test_g1Neg_law : pointNeg (fqOps Config.p) ptG = .affine Config.gX
    0x001cefdc52b4e1eba6d3b6633bf15a765ca326aa36b6c0b5b1db375b6a5124fa540d200dfb56a6e58785e1aaaa63715b := by decide +kernel   -- V-G1-4
theorem test_g1Mul_identity : outcome .g1Mul (machine g1O (fr 5) 97) 97 = some (true, g1ONat) := by decide +kernel   -- V-SM-5
theorem test_g1Mul_walk : (walk (g1Add curveTables) ptG 3 2 ⟨.infinity, []⟩).val = pt3G := by decide +kernel   -- the last two iterations of V-SM-3
theorem test_g1Msm_empty : outcome .g1Msm (machine (count 0) [] 97) 97 = some (true, g1ONat) := by decide +kernel   -- V-SM-11
theorem test_g1Msm_count : outcome .g1Msm (machine (count 0 ++ [0]) [] 97) 97 = some (false, 0) := by decide +kernel   -- V-SM-16
theorem test_decodeG1_notOnCurve : decodeG1 curveTables (g1 0 1 1) = .error .notOnCurve ∧
    decodeG1 curveTables (g1 0 0 0) = .error .notOnCurve ∧ decodeG1 curveTables (g1 2 Config.gX Config.gY) = .error .notOnCurve ∧
    decodeG1 curveTables (g1 1 0 1) = .error .notOnCurve := by decide +kernel   -- V-G1-7 to V-G1-11
theorem test_decodeG1_outOfRange : decodeG1 curveTables (g1 1 Config.p 0) = .error .outOfRange ∧
    decodeG1 curveTables (g1 0 Config.gX Config.p) = .error .outOfRange := by decide +kernel   -- V-G1-18, V-G1-17

/-! ### G2 -/

/-- H, 2H and 3H (section 3 of the vectors). -/
def ptH : Point Fq2 := .affine ⟨Config.hXc0, Config.hXc1⟩ ⟨Config.hYc0, Config.hYc1⟩
def pt2H : Point Fq2 := .affine
  ⟨0x016d31b9f625914e7717654ae659d1c0cfe58c83f1579a83b1f0717e9e6a41a053e6e88f7f56ec0bc2fd5b6d61713d79,
   0x013314397e45ef715136c17ec005c87a36157abeb1f7a56d3543b7fc8e581da2d4ac27a0ceddfa0b1f3f55a777e94d5c⟩
  ⟨0x013106bc403f57a46a1a948f33846771dcd578b8632fbd0470e947ce81c1dcd1fcba62e57360c6859b8c6f901a2f4a2a,
   0x00e3e0ae82a18e0e5aee91c83d30519de4d2dbfa9147c43da20d55f1dcca734e600ceb36b99def794d69de8542315202⟩
def pt3H : Point Fq2 := .affine
  ⟨0x010989ed742d307e93acdd3ef1a3680e0bb12886bc4ee3fca003f51b04dc60ea6ff6d482b888da1601f96e4acccdeb2a,
   0x0069c7a695505c5042f73f3f69027e0f97c21244c0fd397209582ac6f6f58d1a8b1e6118d9550c7f3d81a461fd12b64c⟩
  ⟨0x0191cd587c9c65903e2cc24a5b031bb76ac23a2968294c604aa74e4574c8b60754fdb3abc99d7dd35707109e4f98c99a,
   0x004ffd6a638c1b4eeba9769cee5a2ef0e87bbd284704f4ee4870771ad3dbf7510c7799240851ea08209d1ea57c8e2f5a⟩

theorem test_g2One : outcome .g2One (machine [] [] 193) 193 = some (true,
    0x00018480be71c785fec89630a2a3841d01c565f071203e50317ea501f557db6b9b71889f52bb53540274e3e48f7c00519600ea6040e700403170dc5a51b1b140d5532777ee6651cecbe7223ece0799c9de5cf89984bff76fe6b26bfefa6ea16afe00690d665d446f7bd960736bcbb2efb4de03ed7274b49a58e458c282f832d204f2cf88886d8c7c2ef094094409fd4ddf00f8169fd28355189e549da3151a70aa61ef11ac3d591bf12463b01acee304c24279b83f5e52270bd9a1cdd185eb8f93) := by decide +kernel   -- V-G2-1
theorem test_g2Add_identity : outcome .g2Add (machine g2O g2O 193) 193 = some (true, g2ONat) := by decide +kernel   -- rule R212
theorem test_g2Add_law : g2Add curveTables ptH ptH = pt2H ∧ g2Add curveTables pt2H ptH = pt3H ∧
    g2Add curveTables ptH (g2Minus ptH) = .infinity := by decide +kernel   -- V-G2-2, V-G2-6, V-G2-4
theorem test_g2Neg_identity : outcome .g2Neg (machine g2O [] 193) 193 = some (true, g2ONat) := by decide +kernel   -- rule R213
theorem test_g2Neg_law : pointNeg (fq2Ops Config.p) ptH = .affine ⟨Config.hXc0, Config.hXc1⟩
    ⟨0x01452cdfba80a16eecda9254a0ee59863c1eec808c4079363a9a9facc1d675fb243bd4bbc27383d19474b6bbf602b222,
     0x00b623a64541bbd227e6681d5786d890b833c846c39bf79dfa8fb214eb26433dd491a504d1add8f4ab66f22e7a14706e⟩ := by decide +kernel   -- V-G2-3
theorem test_g2Mul_identity : outcome .g2Mul (machine g2O (fr 5) 193) 193 = some (true, g2ONat) := by decide +kernel   -- rule R236
theorem test_g2Mul_walk : (walk (g2Add curveTables) ptH 2 2 ⟨.infinity, []⟩).val = pt2H := by decide +kernel   -- the last two iterations of V-SM-8
theorem test_g2Msm_empty : outcome .g2Msm (machine (count 0) [] 193) 193 = some (true, g2ONat) := by decide +kernel   -- V-SM-19
theorem test_g2Msm_length : outcome .g2Msm (machine [0, 0, 0] [] 193) 193 = some (false, 0) := by decide +kernel   -- as V-SM-14
theorem test_decodeG2_flag : decodeG2 curveTables (1 :: (List.replicate 191 0 ++ [1])) = .error .notOnCurve := by decide +kernel   -- V-G2-7
theorem test_decodeG2_outOfRange : decodeG2 curveTables (0 :: (beBytes 48 Config.hXc0 ++ beBytes 48 Config.p ++
    beBytes 48 Config.hYc0 ++ beBytes 48 Config.hYc1)) = .error .outOfRange := by decide +kernel   -- V-G2-10

/-! ### Pairing, fields and constants -/

theorem test_fq2_products : fq2Mul Config.p ⟨0, 1⟩ ⟨0, 1⟩ = ⟨Config.p - 5, 0⟩ ∧ fq2Mul Config.p ⟨1, 1⟩ ⟨1, 1⟩ = ⟨Config.p - 4, 2⟩ ∧
    fq2Mul Config.p ⟨0, 1⟩ ⟨0, Config.bTwistC1⟩ = ⟨1, 0⟩ := by decide +kernel   -- rule R201
theorem test_mul12_w6 : mul12 Config.p ⟨⟨0, 0⟩, ⟨0, 0⟩, ⟨0, 0⟩, ⟨0, 0⟩, ⟨0, 0⟩, ⟨1, 0⟩⟩ ⟨⟨0, 0⟩, ⟨1, 0⟩, ⟨0, 0⟩, ⟨0, 0⟩, ⟨0, 0⟩, ⟨0, 0⟩⟩ =
    ⟨⟨0, 1⟩, ⟨0, 0⟩, ⟨0, 0⟩, ⟨0, 0⟩, ⟨0, 0⟩, ⟨0, 0⟩⟩ := by decide +kernel   -- rule R264: w^5 * w = u
theorem test_fq12_addSub : fq12Add Config.p fq12One (fq12Sub Config.p fq12Zero fq12One) = fq12Zero ∧
    (fq12Sub Config.p fq12Zero fq12One).a0 = ⟨Config.p - 1, 0⟩ ∧
    (fq12Add Config.p fq12One ⟨⟨Config.p - 1, 3⟩, ⟨2, 0⟩, fq2Zero, fq2Zero, fq2Zero, ⟨5, 7⟩⟩) =
      ⟨⟨0, 3⟩, ⟨2, 0⟩, fq2Zero, fq2Zero, fq2Zero, ⟨5, 7⟩⟩ := by decide +kernel   -- rule R264
theorem test_untwist : mul12 Config.p (untwist (⟨2, 3⟩, ⟨5, 7⟩)).1 ⟨⟨0, 0⟩, ⟨0, 0⟩, ⟨0, 0⟩, ⟨0, 0⟩, ⟨1, 0⟩, ⟨0, 0⟩⟩ =
    ⟨⟨Config.p - 15, 2⟩, ⟨0, 0⟩, ⟨0, 0⟩, ⟨0, 0⟩, ⟨0, 0⟩, ⟨0, 0⟩⟩ := by decide +kernel   -- rule R265: x * w^2 * w^4 = x * u
theorem test_line_point : (line Config.p (⟨Config.hXc0, Config.hXc1⟩, ⟨Config.hYc0, Config.hYc1⟩) (⟨Config.hXc0, Config.hXc1⟩, ⟨Config.hYc0, Config.hYc1⟩) Config.gX Config.gY).2 = 
    (⟨0x016d31b9f625914e7717654ae659d1c0cfe58c83f1579a83b1f0717e9e6a41a053e6e88f7f56ec0bc2fd5b6d61713d79,
      0x013314397e45ef715136c17ec005c87a36157abeb1f7a56d3543b7fc8e581da2d4ac27a0ceddfa0b1f3f55a777e94d5c⟩,
     ⟨0x013106bc403f57a46a1a948f33846771dcd578b8632fbd0470e947ce81c1dcd1fcba62e57360c6859b8c6f901a2f4a2a,
      0x00e3e0ae82a18e0e5aee91c83d30519de4d2dbfa9147c43da20d55f1dcca734e600ceb36b99def794d69de8542315202⟩) := by decide +kernel   -- rule R266: T + S = 2H
theorem test_pairingCheck_count : outcome .pairingCheck (machine (count 0) (count 1) 1) 1 = some (false, 0) := by decide +kernel   -- as V-PC-14
theorem test_pairingCheck_length : outcome .pairingCheck (machine (count 0) (count 0) 2) 1 = some (false, 0) := by decide +kernel   -- V-PC-15
theorem test_completeAdd : fromProj (fqOps Config.p) (completeAdd (fqOps Config.p) 3 (toProj (fqOps Config.p) ptG) (toProj (fqOps Config.p) ptG)) = pt2G ∧
    fromProj (fqOps Config.p) (completeAdd (fqOps Config.p) 3 (toProj (fqOps Config.p) ptG)
      (toProj (fqOps Config.p) (g1Minus ptG))) = .infinity := by decide +kernel   -- rule R180
theorem test_finalExp : Config.finalExp.log2 + 1 = 4269 ∧ Config.finalExp % 2 ^ 64 = 0x3C69000000000000 ∧
    Config.finalExp >>> 4205 = 0xD97FB460D5EE2455 := by decide +kernel   -- rule R20
theorem test_msmWindow : msmWindowDefault 7 = 1 ∧ msmWindowDefault 8 = 2 ∧ msmWindowDefault (2 ^ 40) = 16 := by decide +kernel   -- rule R243

/-! ### The order of the checks -/

theorem test_ad6 : commandResult .frAdd (machine (fr 1) (fr 1) 31) ⟨0, false, 0x9000, 32, 0x2000, 32, 0x3000, 31⟩ =
    .error .invalidLength := by decide +kernel   -- V-AD-6
theorem test_ad7 : commandResult .frAdd (machine (fr Config.r) (fr 1) 32) ⟨0, false, 0x1000, 32, 0x9000, 32, 0x3000, 32⟩ =
    .error .badAddress := by decide +kernel   -- V-AD-7
theorem test_ad9 : commandResult .frAdd (machine (fr Config.r) (fr 1) 32) ⟨0, false, 0x1000, 32, 0x1000, 32, 0x4FE0, 32⟩ =
    .error .outOfRange := by decide +kernel   -- V-AD-9
theorem test_ad11 : commandResult .frAdd (machine (fr 1) (fr 1) 32)
    ⟨0, false, 0xFFFFFFFFFFFFFFF0, 32, 0x1400, 32, 0x2000, 32⟩ = .error .badAddress := by decide +kernel   -- V-AD-11
theorem test_errorCodes : [ErrorKind.uninitialized, .invalidLength, .outOfRange, .notOnCurve, .notInSubgroup, .internalFailure,
    .illegalCommand, .badAddress, .notInvertible].map errorCode = [1, 2, 3, 4, 5, 6, 7, 8, 9] := by decide +kernel   -- rule R321
theorem test_resultCodes : resultCode (commandResult .frOne (machine [] [] 32) (port0 0 0 32)) = 0 ∧
    resultCode (wordResult 0 State.reset Port.reset) = 0 ∧ resultCode (wordResult 0x10 State.reset Port.reset) = 1 ∧
    resultCode (wordResult 0x16 State.reset Port.reset) = 7 := by decide +kernel   -- rule R321: 0 at step 9 and, for INIT, at step 2
theorem test_internalFailure_step8 :                                    -- rule R292: after lengths, addresses and decoding
    let broken (s : State) : State := { s with tables := none }
    commandResult .frInv (broken (machine (fr 1) [] 31)) (port0 32 0 31) = .error .invalidLength ∧
      commandResult .frInv (broken (machine (fr Config.r) [] 32)) (port0 32 0 32) = .error .outOfRange ∧
      commandResult .frInv (broken (machine (fr 1) [] 32)) (port0 32 0 32) = .error .internalFailure := by decide +kernel
theorem test_registerMap : [PortReg.cw, .status, .slot .s0p, .slot .s0l, .slot .s1p, .slot .s1l, .slot .dp, .slot .dl].map
    (fun x => (regIndex x, regOffset x)) =
      [(0, 0x00), (1, 0x04), (2, 0x08), (3, 0x10), (4, 0x18), (5, 0x20), (6, 0x28), (7, 0x30)] := by decide +kernel   -- rules R32, R40, R41

/-! ### Witnesses: states and operands that meet the hypotheses of each statement -/

/-- An uninitialised core with its slots written. -/
def cold : State := { State.reset with ports := [port0 32 32 32] }

/-- Two ports, initialised. -/
def twoPorts : State := { machine (fr 1) (fr 2) 32 with ports := [port0 32 32 32, port0 97 97 97] }

theorem witness_IllegalWordFailsClosed :
    0 < State.reset.ports.length ∧ ∀ i, decode 0x000000FF#32 ≠ .ok i := by
  refine ⟨by decide, fun i h => ?_⟩
  rw [show decode 0x000000FF#32 = .error .unassignedUnit by decide] at h
  exact nomatch h

theorem witness_StepRunsDecodedCommand :
    let s : State := { State.reset with pending := [.writeCw 0 0x10, .reset] }
    s.pending = .writeCw 0 0x10 :: [.reset] ∧ 0 < s.ports.length ∧ decode 0x10 = .ok .frOne ∧
      decode (BitVec.ofNat 32 0x40) = .ok .pairingCheck := by decide

theorem witness_CommandWordRegister : 1 < twoPorts.ports.length ∧ decode 0xFFFFFFFF#32 = .error .reservedBits := by
  decide

theorem witness_StatusRegister : twoPorts.ports[1]? = some (port0 97 97 97) := by decide

theorem witness_SlotRegisters : 1 < twoPorts.ports.length ∧
    exec .frOne cold = .next { cold with ports := [port0 32 32 32] } := by
  exact ⟨by decide +kernel, next_of (by decide +kernel)⟩

theorem witness_OkFlagWrittenByCallsOnly :
    Instr.frOne ≠ .init ∧ cold.ports[cold.callPort]? = some (port0 32 32 32) ∧
      hostAct (.storeByte 0x4FFF 1) State.reset = .next { State.reset with mem := [(0x4FFF, 1)] } ∧
      hostAct (.writeCw 0 0x10) cold = .next { cold with ports := [{ port0 32 32 32 with cw := 0x10 }] } := by
  exact ⟨by decide +kernel, by decide +kernel, next_of (by decide +kernel), next_of (by decide +kernel)⟩

theorem witness_StepKeepsInv :
    let s : State := { State.reset with pending := [.storeByte 0x1000 7] }
    Invariant s ∧ step s = .next { State.reset with mem := [(0x1000, 7)] } := by
  exact ⟨by decide +kernel, next_of (by decide +kernel)⟩

theorem witness_InitDoneMonotonic :
    hostAct (.readReg 0 .status) twoPorts = .next twoPorts ∧ twoPorts.initDone = true ∧
      hostAct (.writeCw 0 0) State.reset = .next { State.reset with
        initDone := true, tables := some curveTables, ports := [⟨0, true, 0, 0, 0, 0, 0, 0⟩] } := by
  exact ⟨next_of (by decide +kernel), by decide +kernel, next_of (by decide +kernel)⟩

theorem witness_RunsNeverStop :
    let s : State := { twoPorts with pending := [.writeCw 1 0x41, .reset, .loadByte 0x4FFF, .writeStatus 1 0] }
    Invariant s ∧ pendingPlaced s = true := by decide +kernel

theorem witness_UninitializedFailsClosed :
    Instr.g1One ≠ .init ∧ cold.ports[cold.callPort]? = some (port0 32 32 32) ∧ cold.initDone = false := by decide

theorem witness_InvalidLengthFails_fixed :
    let s := machine (fr 1) (fr 1) 33
    Invariant s ∧ s.ports[s.callPort]? = some (port0 32 32 33) ∧ s.initDone = true ∧
      (operandsOf .frAdd).d = .fixed .fr ∧ (33 : Word64).toNat ≠ kindWidth .fr := by decide +kernel

theorem witness_InvalidLengthFails_list :
    let s := machine [0, 0, 0] [] 97
    Invariant s ∧ s.ports[s.callPort]? = some (port0 3 0 97) ∧ s.initDone = true ∧
      (operandsOf .g1Msm).s0 = .list .g1 .fr ∧ (3 : Word64).toNat < 4 := by decide +kernel

theorem witness_BadAddressFails_map :
    let pt : Port := ⟨0, false, 0, 0, 0, 0, 0x4FE1, 32⟩
    let s : State := { machine [] [] 32 with ports := [pt] }
    Invariant s ∧ s.ports[s.callPort]? = some pt ∧ (operandsOf .frOne).d ≠ .unused ∧ pt.dp.toNat ≤ 0x5000 ∧
      0x5000 < pt.dp.toNat + pt.dl.toNat ∧ inMap s.map 0x5000 = false ∧ s.initDone = true ∧
      lengthsOk (operandsOf .frOne) pt = true := by decide +kernel

theorem witness_BadAddressFails_wrap :
    let pt : Port := ⟨0, false, 0, 0, 0, 0, 0xFFFFFFFFFFFFFFE1, 32⟩
    2 ^ 64 < pt.dp.toNat + pt.dl.toNat := by decide +kernel

theorem witness_FailureFrame :
    exec .frOne cold = .next cold ∧ cold.ports[cold.callPort]? = some (port0 32 32 32) ∧
      (cold.ports[cold.callPort]?).map Port.ok = some false := by
  exact ⟨next_of (by decide +kernel), by decide +kernel, by decide +kernel⟩

/-- The state after FR_ONE on `machine`. -/
def afterOne : State :=
  { machine [] [] 32 with ports := [{ port0 0 0 32 with ok := true }], mem := [(0x201F, 1)] }

theorem witness_SuccessFrame :
    let s := machine [] [] 32
    Invariant s ∧ Instr.frOne ≠ .init ∧ exec .frOne s = .next afterOne ∧ s.ports[s.callPort]? = some (port0 0 0 32) ∧
      (afterOne.ports[s.callPort]?).map Port.ok = some true := by
  exact ⟨by decide +kernel, by decide +kernel, next_of (by decide +kernel), by decide +kernel, by decide +kernel⟩

theorem witness_CallIsDeterministic :
    let s1 := machine [] [] 32
    let p2 : Port := ⟨0xFF, true, 0x9000, 5, 6, 7, 0x2000, 32⟩
    let s2 : State := { machine [] [] 32 with ports := [p2], mem := [(0x1000, 9)], resets := 3 }
    (Invariant s1 ∧ Invariant s2 ∧ s1.ports[s1.callPort]? = some (port0 0 0 32) ∧ s2.ports[s2.callPort]? = some p2 ∧
      s1.initDone = s2.initDone ∧ s1.map = s2.map ∧ (operandsOf .frOne).s0 = .unused ∧ (operandsOf .frOne).s1 = .unused ∧
      (port0 0 0 32).dp = p2.dp ∧ (port0 0 0 32).dl = p2.dl) ∧
    exec .frOne s1 = .next afterOne ∧ exec .frOne s2 = .next { s2 with mem := [(0x1000, 9), (0x201F, 1)] } :=
  ⟨by decide +kernel, next_of (by decide +kernel), next_of (by decide +kernel)⟩

theorem witness_RetryFailsAgain :
    exec .frOne cold = .next cold ∧ (cold.ports[cold.callPort]?).map Port.ok = some false := by
  exact ⟨next_of (by decide +kernel), by decide +kernel⟩

theorem witness_ErrorKindsPossible :
    let s := machine (fr 0) [] 32
    Invariant s ∧ Instr.frInv ≠ .init ∧ s.ports[s.callPort]? = some (port0 32 0 32) ∧
      commandResult .frInv s (port0 32 0 32) = .error .notInvertible := by decide +kernel

theorem witness_DecodeOrder_fr (i : Instr) (hi : i = .frAdd ∨ i = .frSub ∨ i = .frMul) :
    let s := machine (fr Config.r) (fr 0) 32
    let s' := machine (fr 0) (fr Config.r) 32
    let pt := port0 32 32 32
    Ready i s pt ∧ decodeFr curveTables (source0 s pt) = .error .outOfRange ∧
      Ready i s' pt ∧ decodeFr curveTables (source0 s' pt) = .ok 0 ∧
      decodeFr curveTables (source1 s' pt) = .error .outOfRange := by
  rcases hi with rfl | rfl | rfl <;> decide +kernel

/-- The first source's kind and the second's differ, so the order shows. -/
theorem witness_DecodeOrder_g1Add :
    let s := machine (g1 0 1 1) (g1 0 Config.p 0) 97
    let s' := machine g1O (g1 0 Config.p 0) 97
    let pt := port0 97 97 97
    Ready .g1Add s pt ∧ decodeG1 curveTables (source0 s pt) = .error .notOnCurve ∧
      decodeG1 curveTables (source1 s pt) = .error .outOfRange ∧
      Ready .g1Add s' pt ∧ decodeG1 curveTables (source0 s' pt) = .ok .infinity ∧
      decodeG1 curveTables (source1 s' pt) = .error .outOfRange := by decide +kernel

theorem witness_DecodeOrder_g2 :
    let bad := 2 :: List.replicate 192 0
    let s := machine bad g2O 193
    let s' := machine g2O bad 193
    let s'' := machine g2O (fr Config.r) 193
    Ready .g2Add s (port0 193 193 193) ∧
      decodeG2 curveTables (source0 s (port0 193 193 193)) = .error .notOnCurve ∧
      Ready .g2Add s' (port0 193 193 193) ∧
      decodeG2 curveTables (source0 s' (port0 193 193 193)) = .ok .infinity ∧
      decodeG2 curveTables (source1 s' (port0 193 193 193)) = .error .notOnCurve ∧
      Ready .g2Mul s'' (port0 193 32 193) ∧
      decodeG2 curveTables (source0 s'' (port0 193 32 193)) = .ok .infinity ∧
      decodeFr curveTables (source1 s'' (port0 193 32 193)) = .error .outOfRange := by decide +kernel

theorem witness_DecodeOrder_point :
    let s := machine (g1 0 1 1) (fr Config.r) 97
    Ready .g1Mul s (port0 97 32 97) ∧ decodeG1 curveTables (source0 s (port0 97 32 97)) = .error .notOnCurve := by
  decide +kernel

theorem witness_DecodeOrder_scalar :
    let s := machine g1O (fr Config.r) 97
    Ready .g1Mul s (port0 97 32 97) ∧ decodeG1 curveTables (source0 s (port0 97 32 97)) = .ok .infinity ∧
      decodeFr curveTables (source1 s (port0 97 32 97)) = .error .outOfRange := by decide +kernel

theorem witness_DecodeOrder_lists :
    let s := machine (count 1) (count 2) 1
    let s' := machine (count 0) (count 2) 1
    Ready .pairingCheck s (port0 4 4 1) ∧
      decodeG1G2List curveTables (source0 s (port0 4 4 1)) = .error .invalidLength ∧
      Ready .pairingCheck s' (port0 4 4 1) ∧ decodeG1G2List curveTables (source0 s' (port0 4 4 1)) = .ok [] ∧
      decodeG1G2List curveTables (source1 s' (port0 4 4 1)) = .error .invalidLength := by decide +kernel

theorem witness_InitResult :
    cold.ports[cold.callPort]? = some (port0 32 32 32) ∧ cold.initDone = false ∧ twoPorts.initDone = true := by decide

theorem witness_InitIdempotent :
    let s : State := { cold with ports := [port0 1 2 3, port0 32 32 32] }
    let t : State := { s with
      initDone := true, tables := some curveTables, ports := [{ port0 1 2 3 with ok := true }, port0 32 32 32] }
    1 < s.ports.length ∧ exec .init s = .next t ∧ exec .init { t with callPort := 1 } =
      .next { t with callPort := 1, ports := [{ port0 1 2 3 with ok := true }, { port0 32 32 32 with ok := true }] } := by
  exact ⟨by decide +kernel, next_of (by decide +kernel), next_of (by decide +kernel)⟩

/-! The commands: a state in which the call completes, and one in which it fails. -/

theorem witness_FrOneResult :
    let s := machine [] [] 32
    let s' := machine [] [] 31
    Invariant s ∧ s.ports[s.callPort]? = some (port0 0 0 32) ∧ Ready .frOne s (port0 0 0 32) ∧
      Invariant s' ∧ ¬ Ready .frOne s' (port0 0 0 31) := by decide +kernel

/-- For FrAddResult, FrSubResult and FrMulResult: the largest Fr value, read back from its buffer. -/
theorem witness_FrBinary (i : Instr) (hi : i = .frAdd ∨ i = .frSub ∨ i = .frMul) :
    let s := machine (fr (Config.r - 1)) (fr 2) 32
    Invariant s ∧ s.ports[s.callPort]? = some (port0 32 32 32) ∧ Ready i s (port0 32 32 32) ∧
      isFr (Config.r - 1) = true ∧ isFr 2 = true ∧ source0 s (port0 32 32 32) = encodeFr (Config.r - 1) ∧
      source1 s (port0 32 32 32) = encodeFr 2 := by
  rcases hi with rfl | rfl | rfl <;> decide +kernel

/-- A buffer whose value is not below r is the encoding of no Fr value. -/
theorem not_encodeFr {b : Bytes} {a : Nat} (hb : Config.r ≤ beNat b) (ha : isFr a = true) : b ≠ encodeFr a := by
  rintro rfl
  have ha' : a < Config.r := of_decide_eq_true ha
  have hr : Config.r < 256 ^ 32 := by decide +kernel
  rw [encodeFr, beNat_beBytes_of_lt (show a < 256 ^ Config.wFr from Nat.lt_trans ha' hr)] at hb
  omega

/-- The failing clause of FrAddResult, FrSubResult and FrMulResult: a buffer that holds r. -/
theorem witness_FrBinary_fails (i : Instr) :
    let s := machine (fr Config.r) (fr 2) 32
    Invariant s ∧ s.ports[s.callPort]? = some (port0 32 32 32) ∧
      ∀ a b, isFr a = true → isFr b = true → source0 s (port0 32 32 32) = encodeFr a →
        source1 s (port0 32 32 32) = encodeFr b → ¬ Ready i s (port0 32 32 32) := by
  refine ⟨by decide +kernel, by decide +kernel, fun a b ha _ h _ => absurd h (not_encodeFr (by decide +kernel) ha)⟩

theorem witness_FrInvResult :
    let s := machine (fr (Config.r - 1)) [] 32
    let s' := machine (fr 0) [] 32
    Invariant s ∧ s.ports[s.callPort]? = some (port0 32 0 32) ∧ Ready .frInv s (port0 32 0 32) ∧
      isFr (Config.r - 1) = true ∧ Config.r - 1 ≠ 0 ∧ source0 s (port0 32 0 32) = encodeFr (Config.r - 1) ∧
      Invariant s' ∧ Ready .frInv s' (port0 32 0 32) ∧ source0 s' (port0 32 0 32) = encodeFr 0 := by decide +kernel

theorem witness_FrNegResult :
    let s := machine (fr 0) [] 32
    Invariant s ∧ s.ports[s.callPort]? = some (port0 32 0 32) ∧ Ready .frNeg s (port0 32 0 32) ∧ isFr 0 = true ∧
      source0 s (port0 32 0 32) = encodeFr 0 := by decide +kernel

/-- The failing clause of FrInvResult and FrNegResult. -/
theorem witness_FrUnary_fails (i : Instr) :
    let s := machine (fr Config.r) [] 32
    Invariant s ∧ s.ports[s.callPort]? = some (port0 32 0 32) ∧
      ∀ a, isFr a = true → source0 s (port0 32 0 32) = encodeFr a → ¬ Ready i s (port0 32 0 32) := by
  refine ⟨by decide +kernel, by decide +kernel, fun a ha h => absurd h (not_encodeFr (by decide +kernel) ha)⟩

theorem witness_G1OneResult :
    let s := machine [] [] 97
    Invariant s ∧ s.ports[s.callPort]? = some (port0 0 0 97) ∧ Ready .g1One s (port0 0 0 97) ∧
      ¬ Ready .g1One (machine [] [] 96) (port0 0 0 96) := by decide +kernel

/-- For G1AddResult and, its source being the first, G1NegResult. -/
theorem witness_G1AddResult :
    let s := machine g1O g1O 97
    Invariant s ∧ s.ports[s.callPort]? = some (port0 97 97 97) ∧ Ready .g1Add s (port0 97 97 97) ∧
      isG1 .infinity = true ∧ source0 s (port0 97 97 97) = encodeG1 .infinity ∧
      source1 s (port0 97 97 97) = encodeG1 .infinity ∧ Ready .g1Neg s (port0 97 97 97) := by decide +kernel

theorem witness_G1MulResult :
    let s := machine g1O (fr (Config.r - 1)) 97
    Invariant s ∧ s.ports[s.callPort]? = some (port0 97 32 97) ∧ Ready .g1Mul s (port0 97 32 97) ∧
      isG1 .infinity = true ∧ isFr (Config.r - 1) = true ∧ source0 s (port0 97 32 97) = encodeG1 .infinity ∧
      source1 s (port0 97 32 97) = encodeFr (Config.r - 1) := by decide +kernel

theorem witness_G1MsmResult :
    let s := machine (count 1 ++ g1O ++ fr 7) [] 97
    Invariant s ∧ s.ports[s.callPort]? = some (port0 133 0 97) ∧ Ready .g1Msm s (port0 133 0 97) ∧
      isG1FrList [(.infinity, 7)] = true ∧
      source0 s (port0 133 0 97) = encodeList encodeG1 encodeFr [(.infinity, 7)] := by decide +kernel

/-- A destination of the wrong length makes every two-source statement's failing clause apply, whatever the sources are. -/
theorem witness_commands_fail :
    let s := machine g1O g1O 98
    Invariant s ∧ s.ports[s.callPort]? = some (port0 97 97 98) ∧
      ∀ i ∈ [Instr.g1Add, .g1Neg, .g1Mul, .g1Msm, .g2Add, .g2Neg, .g2Mul, .g2Msm, .pairingCheck],
        ¬ Ready i s (port0 97 97 98) := by decide +kernel

theorem witness_G2OneResult :
    let s := machine [] [] 193
    Invariant s ∧ s.ports[s.callPort]? = some (port0 0 0 193) ∧ Ready .g2One s (port0 0 0 193) ∧
      ¬ Ready .g2One (machine [] [] 192) (port0 0 0 192) := by decide +kernel

/-- For G2AddResult and, its source being the first, G2NegResult. -/
theorem witness_G2AddResult :
    let s := machine g2O g2O 193
    Invariant s ∧ s.ports[s.callPort]? = some (port0 193 193 193) ∧ Ready .g2Add s (port0 193 193 193) ∧
      isG2 .infinity = true ∧ source0 s (port0 193 193 193) = encodeG2 .infinity ∧
      source1 s (port0 193 193 193) = encodeG2 .infinity ∧ Ready .g2Neg s (port0 193 193 193) := by decide +kernel

theorem witness_G2MulResult :
    let s := machine g2O (fr (Config.r - 1)) 193
    Invariant s ∧ s.ports[s.callPort]? = some (port0 193 32 193) ∧ Ready .g2Mul s (port0 193 32 193) ∧
      isG2 .infinity = true ∧ isFr (Config.r - 1) = true ∧ source0 s (port0 193 32 193) = encodeG2 .infinity ∧
      source1 s (port0 193 32 193) = encodeFr (Config.r - 1) := by decide +kernel

theorem witness_G2MsmResult :
    let s := machine (count 1 ++ g2O ++ fr 7) [] 193
    Invariant s ∧ s.ports[s.callPort]? = some (port0 229 0 193) ∧ Ready .g2Msm s (port0 229 0 193) ∧
      isG2FrList [(.infinity, 7)] = true ∧
      source0 s (port0 229 0 193) = encodeList encodeG2 encodeFr [(.infinity, 7)] := by decide +kernel

theorem witness_PairingCheckResult :
    let s := machine (count 1 ++ g1O ++ g2O) (count 0) 1
    Invariant s ∧ s.ports[s.callPort]? = some (port0 294 4 1) ∧ Ready .pairingCheck s (port0 294 4 1) ∧
      isG1G2List [(.infinity, .infinity)] = true ∧ isG1G2List [] = true ∧
      source0 s (port0 294 4 1) = encodeList encodeG1 encodeG2 [(.infinity, .infinity)] ∧
      source1 s (port0 294 4 1) = encodeList encodeG1 encodeG2 [] := by decide +kernel

theorem witness_PairingIdentityPairs :
    let l : List (Point Nat × Point Fq2) := [(.infinity, ptH), (ptG, .infinity)]
    ∀ e ∈ l, e.1 = .infinity ∨ e.2 = .infinity := by decide +kernel

theorem witness_PairingOrderAndSides :
    [(ptG, ptH), (.infinity, ptH)].Perm [(.infinity, ptH), (ptG, ptH)] ∧ isG1 .infinity = true := by decide +kernel

theorem witness_FieldArithmetic :
    Config.p - 1 < Config.p ∧ Config.p - 1 ≠ 0 ∧ (⟨Config.p - 1, Config.p - 1⟩ : Fq2) ≠ ⟨0, 0⟩ := by decide +kernel

/-- Both curves have their generators on them, and E has a point of order 2 for the doubling that gives `O`. -/
theorem witness_ChordTangent :
    onE ptG = true ∧ onE pt2G = true ∧ onE (.affine (Config.p - 1) 0) = true ∧ onE (.affine 0 1) = true ∧
      onTwist ptH = true ∧ onTwist pt2H = true := by decide +kernel

/-- For G1GroupLaws, G2GroupLaws, GroupsClosed, MultiplesModR and CodecRoundTrip: each group has a point this test decides at
no cost, and Fr has its largest value.  (That G and H are in the groups is the statement CurveConstants.) -/
theorem witness_GroupLaws : isG1 .infinity = true ∧ isG2 .infinity = true ∧ isFr (Config.r - 1) = true := by decide +kernel

theorem witness_FixedWalk : onE (.affine 0 1) = true ∧ onTwist ptH = true ∧ Config.r - 1 < 2 ^ 253 := by decide +kernel

theorem witness_BucketMethod :
    (∀ e ∈ [((.infinity : Point Nat), Config.r - 1)], isG1 e.1 = true ∧ isFr e.2 = true) ∧
      ∀ e ∈ [((.infinity : Point Fq2), Config.r - 1)], isG2 e.1 = true ∧ isFr e.2 = true := by decide +kernel

theorem witness_MsmLaws :
    (∀ e ∈ [((.infinity : Point Nat), 3), (.infinity, 4)], isG1 e.1 = true) ∧
      [((.infinity : Point Nat), 3), (.infinity, 4)].Perm [(.infinity, 4), (.infinity, 3)] := by decide +kernel

theorem witness_CodecCanonical :
    decodeFr curveTables (fr (Config.r - 1)) = .ok (Config.r - 1) ∧ decodeG1 curveTables g1O = .ok .infinity ∧
      decodeG2 curveTables g2O = .ok .infinity := by decide +kernel

theorem witness_DecodeRejects :
    (fr Config.r).length = 32 ∧ Config.r ≤ beNat (fr Config.r) ∧ g1O.length ≠ 193 ∧
      (1 : Nat) < Config.p ∧ 1 * 1 % Config.p ≠ (1 * 1 * 1 + 1) % Config.p ∧
      1 * 1 % Config.p = (0 * 0 * 0 + 1) % Config.p ∧ onTwist (.affine ⟨0, 0⟩ ⟨0, 0⟩) = false := by decide +kernel

/-- At the byte level: a coordinate equal to p, an unknown flag, and the infinity flag before a body that is not zero. -/
theorem witness_DecodeRejects_bytes :
    beNat (sliceBytes (g1 0 0 Config.p) 49 97) = Config.p ∧ flagByte (g1 2 Config.gX Config.gY) = 2 ∧
      flagByte (g1 1 0 1) = 1 ∧ beNat (sliceBytes (g1 1 0 1) 49 97) = 1 ∧
      (2 :: List.replicate 192 0 : Bytes).length = 193 ∧ flagByte (2 :: List.replicate 192 0) = 2 := by decide +kernel

/-- `(0, 1)` is on E, has order 3 and is outside G1 (rules R14, R134). -/
theorem witness_DecodeRejects_order3 :
    onE (.affine 0 1) = true ∧ g1Times (.affine 0 1) Config.r ≠ .infinity := by
  have hE : onE (.affine 0 1) = true := by decide +kernel
  refine ⟨hE, fun h0 => ?_⟩
  obtain ⟨A, _, φ, h⟩ := exists_groupHom_g1
  have h3 : 3 • φ (.affine 0 1) = 0 := by
    rw [← (h.toAddHom.map_foldMul hE 3).2, ← h.map_zero]
    exact congrArg φ (by decide +kernel)
  have hr : Config.r • φ (.affine 0 1) = 0 := by
    rw [← (h.toAddHom.map_foldMul hE Config.r).2, ← h.map_zero]
    exact congrArg φ h0
  rw [show Config.r = 3 * (Config.r / 3) + 1 by decide +kernel, add_smul, one_smul, mul_comm, mul_smul, h3, smul_zero,
    zero_add, ← h.map_zero] at hr
  exact nomatch h.inj hE h.zero_valid hr

/-- S, with `x = (2, 0)` (section 3 of the vectors). -/
def ptS : Point Fq2 := .affine ⟨2, 0⟩
  ⟨0x017ec7b8aafa9390ce7e93b4ae59691f23c4e04bd4480efbfc6ca6d1518764aa45bdbdf03e9bcba347f3951cd2475ad6,
   0x009cb7e17b71e87a17785cdec275db96340f87db51d759c1bd791cda4b977e0e18bf327cc5a93cfc451bac7933cbad5c⟩

/-- S is on E' and outside G2 (rule R135, V-G2-5): the one full walk of these tests. -/
theorem witness_DecodeRejects_S : onTwist ptS = true ∧ g2Times ptS Config.r ≠ .infinity := by
  have hE : onTwist ptS = true := by decide +kernel
  have hwalk : g2Smul curveTables ptS Config.r ≠ .infinity := by decide +kernel
  obtain ⟨A, _, φ, h⟩ := exists_groupHom_g2
  exact ⟨hE, fun h0 => hwalk ((h.smul_eq_foldMul hE r_lt).trans h0)⟩

/-- A list of three whose first entry is good: the second entry's point fails, then its scalar. -/
theorem witness_ListCodec_firstFailure :
    decodeG1 curveTables g1O = .ok .infinity ∧ decodeFr curveTables (fr 1) = .ok 1 ∧ g1O.length = 97 ∧
      (fr 1).length = 32 ∧ decodeG1 curveTables (g1 0 1 1) = .error .notOnCurve ∧ (g1 0 1 1).length = 97 ∧
      decodeFr curveTables (fr Config.r) = .error .outOfRange ∧ (fr Config.r).length = 32 ∧
      decodeG2 curveTables (2 :: List.replicate 192 0) = .error .notOnCurve ∧
      decodeG1FrList curveTables (count 3 ++ (g1O ++ fr 1) ++ (g1 0 1 1 ++ fr Config.r) ++ List.replicate 129 0) =
        .error .notOnCurve := by decide +kernel

theorem witness_HostMemoryAccess :
    Invariant State.reset ∧ inMap State.reset.map 0x1000 = true ∧ inMap State.reset.map 0x4FFF = true ∧
      inMap State.reset.map 0xFFF = false ∧ inMap State.reset.map 0x5000 = false := by decide +kernel

theorem witness_ListCodec :
    isG1FrList [(.infinity, Config.r - 1)] = true ∧ isG2FrList [(.infinity, 0)] = true ∧
      isG1G2List [(.infinity, .infinity)] = true ∧ (count 1).length ≠ 4 + beNat ((count 1).take 4) * 129 := by
  decide +kernel


end Sys2Proof.Tests
end

section
/-! Fq and Fq2 are fields (rules R16, R170, R200): the reduced operations satisfy the field equations. -/

namespace Sys2Proof.Machine

/-- The inverse modulo a prime (rules R158, R170). -/
theorem mul_invMod_mod {m : Nat} [Fact m.Prime] (hm : 2 < m) {a : Nat} (ha : a < m) (h0 : a ≠ 0) :
    a * invMod m a % m = 1 := by
  have hz : (a : ZMod m) ≠ 0 := fun h => h0 (eq_of_cast_eq ha (by omega) (h.trans Nat.cast_zero.symm))
  refine eq_of_cast_eq (Nat.mod_lt _ (by omega)) (by omega) ?_
  rw [ZMod.natCast_mod, Nat.cast_mul, cast_invMod hm, mul_inv_cancel₀ hz, Nat.cast_one]

/-- `subMod` is a difference modulo `m`, whatever the size of its operands. -/
theorem subMod_add_mod {m : Nat} (hm : 0 < m) (a b : Nat) : (subMod m a b + b) % m = a % m := by
  rw [← ZMod.natCast_eq_natCast_iff', Nat.cast_add, cast_subMod hm, sub_add_cancel]

/-- Rule R16: a non-zero element of Fq2 times its inverse is 1. -/
theorem fq2Mul_fq2Inv {a : Fq2} (ha : a.c0 < Config.p ∧ a.c1 < Config.p) (h0 : a ≠ ⟨0, 0⟩) :
    fq2Mul Config.p a (fq2Inv Config.p a) = ⟨1, 0⟩ := by
  have := fact_p
  have := fact_nonresidue
  have hz : fq2Val Config.p a ≠ 0 := fun h =>
    h0 (fq2Val_injective ha ⟨p_pos, p_pos⟩ (h.trans fq2Val_zero.symm))
  have hred : (fq2Mul Config.p a (fq2Inv Config.p a)).c0 < Config.p ∧
      (fq2Mul Config.p a (fq2Inv Config.p a)).c1 < Config.p := ⟨subMod_lt p_pos _ _, addMod_lt p_pos _ _⟩
  have hone : 1 < Config.p := two_lt_p.trans' one_lt_two
  refine fq2Val_injective hred ⟨hone, p_pos⟩ ?_
  rw [fq2Val_mul, fq2Val_inv two_lt_p, mul_inv_cancel₀ hz]
  exact fq2Val_one.symm

/-- `nonresidue`, in residues. -/
theorem sq_add_five_mod_ne_zero (t : Nat) : (t * t + 5) % Config.p ≠ 0 := by
  intro h
  have hsum : (t : ZMod Config.p) * t + 5 = 0 := by
    exact_mod_cast (ZMod.natCast_eq_zero_iff (t * t + 5) Config.p).2 (Nat.dvd_of_mod_eq_zero h)
  exact nonresidue t (by linear_combination hsum)

/-- Settles O45: the operations on residues are those of the fields `ZMod p` and `Fq2K p`. -/
theorem fieldArithmetic : Obligations.FieldArithmetic := by
  have := fact_p
  refine ⟨fun a ha h0 => ⟨invMod_lt p_pos a, mul_invMod_mod two_lt_p ha h0⟩, fun a b => ?_,
    fun a h0 h1 => fq2Mul_fq2Inv ⟨h0, h1⟩, sq_add_five_mod_ne_zero⟩
  exact ⟨subMod_lt p_pos _ _, addMod_lt p_pos _ _, subMod_add_mod p_pos _ _, rfl, rfl⟩

end Sys2Proof.Machine
end

section
/-! The constants of rules R11 to R20 agree with one another: computations on the numbers themselves, one lemma for each
constant or point. -/

namespace Sys2Proof.Machine

/-- Rules R11, R12, R14: `r`, `p` and `h1` are the polynomials of the BLS12 family in `x_seed`. -/
theorem r_p_h1_eq_xSeed_polynomials :
    Config.r = Config.xSeed ^ 4 - Config.xSeed ^ 2 + 1 ∧
    3 * (Config.p - Config.xSeed) = (Config.xSeed - 1) ^ 2 * Config.r ∧
    Config.p + 1 - (Config.xSeed + 1) = Config.h1 * Config.r ∧ 3 * Config.h1 = (Config.xSeed - 1) ^ 2 ∧
    Config.h1 % Config.r ≠ 0 := by decide +kernel

/-- Rule R14: 3 kills `(0, 1)`, a point of E. -/
theorem g1Times_three_of_order_three : onE (.affine 0 1) = true ∧ g1Times (.affine 0 1) 3 = .infinity := by decide +kernel

/-- Rule R14: 2 kills `(p - 1, 0)`, a point of E. -/
theorem g1Times_two_of_order_two :
    onE (.affine (Config.p - 1) 0) = true ∧ g1Times (.affine (Config.p - 1) 0) 2 = .infinity := by decide +kernel

/-- Rule R17: `h2 * r` lies in the Hasse interval of Fq2. -/
theorem h2_bounds :
    Config.h2.log2 + 1 = 502 ∧ Config.h2 % Config.r ≠ 0 ∧
    Config.h2 * Config.r ≤ Config.p ^ 2 + 1 + 2 * Config.p ∧
    Config.p ^ 2 + 1 ≤ Config.h2 * Config.r + 2 * Config.p := by decide +kernel

/-- Rule R20: the division that defines the final exponent is exact. -/
theorem finalExp_mul_r : Config.finalExp * Config.r = Config.p ^ 12 - 1 ∧ Config.finalExp.log2 + 1 = 4269 := by
  decide +kernel

/-- Rule R15: the generator is on E and the fixed walk over `r` takes it to `O` (rule R139). -/
theorem isG1_generator : isG1 (.affine Config.gX Config.gY) = true := by decide +kernel

/-- Rule R18, likewise on E'. -/
theorem isG2_generator :
    isG2 (.affine ⟨Config.hXc0, Config.hXc1⟩ ⟨Config.hYc0, Config.hYc1⟩) = true := by decide +kernel

/-- Rule R17: `b'.c1` is `-1/5` modulo p. -/
theorem five_mul_bTwistC1_add_one_mod : (5 * Config.bTwistC1 + 1) % Config.p = 0 := by decide +kernel

/-- Settles O55: the computations above, one after another. -/
theorem curveConstants : Obligations.CurveConstants := by
  obtain ⟨hr, hp, hn, hh, hd⟩ := r_p_h1_eq_xSeed_polynomials
  obtain ⟨hlog, hdvd, hupper, hlower⟩ := h2_bounds
  obtain ⟨hexact, hbits⟩ := finalExp_mul_r
  exact ⟨hr, hp, hn, hh, hd, g1Times_three_of_order_three, g1Times_two_of_order_two, five_mul_bTwistC1_add_one_mod,
    hlog, hdvd, hupper, hlower, hexact, hbits, isG1_generator, isG2_generator⟩

end Sys2Proof.Machine
end

section
/-! What a host action does, said once (rules R30, R40, R41, R302, R360): an equation per action, the inversion of an
action that answers a next state, and what a call does to the ports.  The registers, `INIT_DONE`, the invariant and
determinism are read off from these and from `exec_cases`. -/

namespace Sys2Proof.Machine

/-! ### Starting a call -/

theorem startCall_of_decode {w : Word32} {i : Instr} (h : decode w = .ok i) (s : State) : startCall w s = exec i s := by
  simp only [startCall, h]

/-- Rule R102: an illegal word fails closed, in every state. -/
theorem startCall_of_illegal {w : Word32} (h : ∀ i, decode w ≠ .ok i) (s : State) :
    startCall w s = .next (afterFailure s) := by
  cases hd : decode w with
  | ok i => exact absurd hd (h i)
  | error e => simp only [startCall, hd]; rfl

/-- Everything a call can do when it answers a next state: fail on an illegal word, or run the command. -/
theorem startCall_cases {w : Word32} {s t : State} (h : startCall w s = .next t) :
    ((∀ i, decode w ≠ .ok i) ∧ t = afterFailure s) ∨ ∃ i, decode w = .ok i ∧ exec i s = .next t := by
  by_cases hd : ∃ i, decode w = .ok i
  · obtain ⟨i, hi⟩ := hd
    exact .inr ⟨i, hi, startCall_of_decode hi s ▸ h⟩
  · have hill : ∀ i, decode w ≠ .ok i := fun i hi => hd ⟨i, hi⟩
    rw [startCall_of_illegal hill] at h
    exact .inl ⟨hill, (Host.Outcome.next.inj h).symm⟩

/-- A command changes no more of the ports than `OK` of the calling one. -/
theorem exec_ports {i : Instr} {s t : State} (h : exec i s = .next t) :
    ∃ b, t.ports = s.ports.modify s.callPort (withOk b) := by
  obtain ⟨pt, -, ⟨-, rfl⟩ | ⟨-, k, -, rfl⟩ | ⟨-, bytes, -, rfl⟩⟩ := exec_cases h
  · exact ⟨true, by simp⟩
  · exact ⟨false, rfl⟩
  · exact ⟨true, rfl⟩

/-- A call changes no more of the ports than `OK` of the calling one. -/
theorem startCall_ports {w : Word32} {s t : State} (h : startCall w s = .next t) :
    ∃ b, t.ports = s.ports.modify s.callPort (withOk b) := by
  obtain ⟨-, rfl⟩ | ⟨i, -, hi⟩ := startCall_cases h
  · exact ⟨false, rfl⟩
  · exact exec_ports hi

/-- Rule R42: a command leaves `INIT_DONE` as it is, but INIT sets it. -/
theorem exec_initDone {i : Instr} {s t : State} (h : exec i s = .next t) :
    t.initDone = (decide (i = .init) || s.initDone) := by
  obtain ⟨pt, -, ⟨rfl, rfl⟩ | ⟨hi, k, -, rfl⟩ | ⟨hi, bytes, -, rfl⟩⟩ := exec_cases h
  · simp
  · simp [hi]
  · simp [hi]

/-! ### The host actions -/

section
variable {s : State} {port : Nat} (h : port < s.ports.length)
include h

theorem hostAct_writeCw (w : Word32) : hostAct (.writeCw port w) s = startCall w (storeCw port w s) := if_pos h

theorem hostAct_writeStatus (w : Word32) : hostAct (.writeStatus port w) s = .next s := if_pos h

theorem hostAct_writeSlot (x : Slot) (v : Word64) :
    hostAct (.writeSlot port x v) s = .next { s with ports := s.ports.modify port (writeSlot x v) } := if_pos h

theorem hostAct_readReg (reg : PortReg) : hostAct (.readReg port reg) s = .next s := if_pos h

/-- A word written to an existing port's `CW` starts a call that answers a next state, whatever the word is. -/
theorem exists_next_writeCw (w : Word32) : ∃ t, hostAct (.writeCw port w) s = .next t := by
  have hp : (storeCw port w s).ports[(storeCw port w s).callPort]? =
      some { s.ports[port] with cw := w } := by simp [h]
  obtain ⟨t, ht, -⟩ := startCall_code hp w
  exact ⟨t, (hostAct_writeCw h w).trans ht⟩

end

/-- A guarded action that answers a next state passed its guard. -/
theorem of_guard_eq_next {c : Prop} [Decidable c] {o : Outcome} {r : Fault} {t : State}
    (h : (if c then o else .fault r) = .next t) : c ∧ o = .next t := by
  split at h
  · next hc => exact ⟨hc, h⟩
  · cases h

/-- Everything a host action can do when it answers a next state. -/
theorem hostAct_cases {a : HostAction} {s t : State} (h : hostAct a s = .next t) :
    (∃ port w, a = .writeCw port w ∧ port < s.ports.length ∧ startCall w (storeCw port w s) = .next t) ∨
    (∃ port x v, a = .writeSlot port x v ∧ port < s.ports.length ∧
      t = { s with ports := s.ports.modify port (writeSlot x v) }) ∨
    (∃ addr b, a = .storeByte addr b ∧ inMap s.map addr = true ∧ t = { s with mem := s.mem.write addr b }) ∨
    (a = .reset ∧ t = resetCore s) ∨
    (((∃ port w, a = .writeStatus port w) ∨ (∃ port reg, a = .readReg port reg) ∨ ∃ addr, a = .loadByte addr) ∧
      t = s) := by
  cases a with
  | writeCw port w =>
    obtain ⟨hport, hcall⟩ := of_guard_eq_next h
    exact .inl ⟨port, w, rfl, hport, hcall⟩
  | writeSlot port x v =>
    obtain ⟨hport, ht⟩ := of_guard_eq_next h
    exact .inr (.inl ⟨port, x, v, rfl, hport, (Host.Outcome.next.inj ht).symm⟩)
  | storeByte addr b =>
    obtain ⟨hin, ht⟩ := of_guard_eq_next h
    exact .inr (.inr (.inl ⟨addr, b, rfl, hin, (Host.Outcome.next.inj ht).symm⟩))
  | reset => exact .inr (.inr (.inr (.inl ⟨rfl, (Host.Outcome.next.inj h).symm⟩)))
  | writeStatus port w =>
    obtain ⟨-, ht⟩ := of_guard_eq_next h
    exact .inr (.inr (.inr (.inr ⟨.inl ⟨port, w, rfl⟩, (Host.Outcome.next.inj ht).symm⟩)))
  | readReg port reg =>
    obtain ⟨-, ht⟩ := of_guard_eq_next h
    exact .inr (.inr (.inr (.inr ⟨.inr (.inl ⟨port, reg, rfl⟩), (Host.Outcome.next.inj ht).symm⟩)))
  | loadByte addr =>
    obtain ⟨-, ht⟩ := of_guard_eq_next h
    exact .inr (.inr (.inr (.inr ⟨.inr (.inr ⟨addr, rfl⟩), (Host.Outcome.next.inj ht).symm⟩)))


/-! ### The invariant -/

/-- A call that wrote its destination keeps the invariant: the result is as wide as the destination, which is admitted. -/
theorem invariant_afterSuccess {i : Instr} {s : State} {pt : Port} {bytes : Bytes} (hs : Invariant s) (hi : i ≠ .init)
    (hr : commandResult i s pt = .ok bytes) : Invariant (afterSuccess s pt bytes) := by
  obtain ⟨hwf, hmap, htab, hport⟩ := hs
  obtain ⟨k, -, hwidth, hlen, hadm⟩ := destination_of_ok hi hr
  obtain ⟨-, hin⟩ := (admitted_iff _ _ _).1 hadm
  refine ⟨wf_memWrite hwf _ _, fun c hc => ?_, htab, by simpa using hport⟩
  rcases mem_memWrite hc with hc | ⟨hlo, hhi⟩
  · exact hmap c hc
  · exact hin _ hlo (by omega)

/-- INIT keeps the invariant: `TABLES` gets its value together with `INIT_DONE`. -/
theorem invariant_init {s : State} (hs : Invariant s) : Invariant (setOk true (initShared s)) := by
  obtain ⟨hwf, hmap, htab, hport⟩ := hs
  refine ⟨by simpa using hwf, by simpa using hmap, ?_, by simpa using hport⟩
  rw [setOk_tables, initShared_tables, htab]
  cases hd : s.initDone <;> simp

theorem invariant_afterFailure {s : State} (hs : Invariant s) : Invariant (afterFailure s) := by
  obtain ⟨hwf, hmap, htab, hport⟩ := hs
  exact ⟨hwf, hmap, htab, by simpa using hport⟩

theorem exec_keeps_invariant {i : Instr} {s t : State} (hs : Invariant s) (h : exec i s = .next t) : Invariant t := by
  obtain ⟨pt, -, ⟨-, rfl⟩ | ⟨-, k, -, rfl⟩ | ⟨hi, bytes, hr, rfl⟩⟩ := exec_cases h
  · exact invariant_init hs
  · exact invariant_afterFailure hs
  · exact invariant_afterSuccess hs hi hr

theorem invariant_storeCw {s : State} {port : Nat} (hs : Invariant s) (hport : port < s.ports.length) (w : Word32) :
    Invariant (storeCw port w s) := by
  obtain ⟨hwf, hmap, htab, -⟩ := hs
  exact ⟨hwf, hmap, htab, by simpa using hport⟩

theorem startCall_keeps_invariant {w : Word32} {s t : State} (hs : Invariant s) (h : startCall w s = .next t) :
    Invariant t := by
  obtain ⟨-, rfl⟩ | ⟨i, -, hi⟩ := startCall_cases h
  · exact invariant_afterFailure hs
  · exact exec_keeps_invariant hs hi

theorem invariant_storeByte {s : State} {addr : Nat} (hs : Invariant s) (hin : inMap s.map addr = true) (b : Byte) :
    Invariant { s with mem := s.mem.write addr b } := by
  obtain ⟨hwf, hmap, htab, hport⟩ := hs
  refine ⟨Memory.wf_write hwf _ _, fun c hc => ?_, htab, hport⟩
  rcases Memory.mem_write hc with hc | ⟨rfl, -⟩
  · exact hmap c hc
  · exact hin

theorem invariant_resetCore {s : State} (hs : Invariant s) : Invariant (resetCore s) := by
  obtain ⟨-, -, -, hport⟩ := hs
  exact ⟨wf_unspecifiedMemory _ _, fun c hc => mem_unspecifiedMemory hc, rfl, by simp; omega⟩

/-- Every host action keeps the invariant. -/
theorem hostAct_keeps_invariant {a : HostAction} {s t : State} (hs : Invariant s) (h : hostAct a s = .next t) :
    Invariant t := by
  obtain ⟨port, w, -, hport, hcall⟩ | ⟨port, x, v, -, -, rfl⟩ | ⟨addr, b, -, hin, rfl⟩ | ⟨-, rfl⟩ | ⟨-, rfl⟩ :=
    hostAct_cases h
  · exact startCall_keeps_invariant (invariant_storeCw hs hport w) hcall
  · obtain ⟨hwf, hmap, htab, hport⟩ := hs
    exact ⟨hwf, hmap, htab, by simpa using hport⟩
  · exact invariant_storeByte hs hin b
  · exact invariant_resetCore hs
  · exact hs

/-- Settles O11: a step is the idle one or a host action, and each host action keeps the invariant. -/
theorem stepKeepsInv : Obligations.StepKeepsInv := by
  intro s t hs h
  unfold step at h
  split at h
  · exact Host.Outcome.next.inj h ▸ hs
  · next a rest _ => exact hostAct_keeps_invariant (s := { s with pending := rest }) hs h

/-- Settles O10: the memory list is empty, `TABLES` has no value and port 0 exists. -/
theorem invAtReset : Obligations.InvAtReset := ⟨Memory.wf_nil, nofun, rfl, Nat.zero_lt_one⟩

end Sys2Proof.Machine
end

section
/-! The registers of the ports as the host sees them (rules R32, R40, R41), `INIT_DONE`, reset, memory, and determinism:
each read off from the inversions of host actions and commands. -/

namespace Sys2Proof.Machine

/-! ### Reading registers -/

theorem hostReadReg_of_port {s : State} {port : Nat} {pt : Port} (h : s.ports[port]? = some pt) (reg : PortReg) :
    hostReadReg s port reg = some (readReg s pt reg) := by simp only [hostReadReg, h, Option.map_some]

/-- A register reads as before when the update of a port does not show in it. -/
theorem hostReadReg_of_modify {s t : State} {c : Nat} {f : Port → Port} (ht : t.ports = s.ports.modify c f) {q : Nat}
    {reg : PortReg} (h : ∀ pt, readReg t (if c = q then f pt else pt) reg = readReg s pt reg) :
    hostReadReg t q reg = hostReadReg s q reg := by
  rw [hostReadReg, hostReadReg, ht, List.getElem?_modify]
  cases s.ports[q]? with
  | none => rfl
  | some pt => exact congrArg some (h pt)

@[simp] theorem readSlot_withOk (b : Bool) (pt : Port) (x : Slot) : readSlot (withOk b pt) x = readSlot pt x := by
  cases x <;> rfl

/-- `OK` shows in no register but `STATUS`. -/
theorem hostReadReg_of_withOk {s t : State} {c : Nat} {b : Bool} (ht : t.ports = s.ports.modify c (withOk b)) (q : Nat)
    {reg : PortReg} (hreg : reg ≠ .status) : hostReadReg t q reg = hostReadReg s q reg := by
  refine hostReadReg_of_modify ht fun pt => ?_
  cases reg with
  | status => exact absurd rfl hreg
  | cw => split <;> rfl
  | slot x => split <;> simp [readReg]

theorem storeCw_getElem?_ne (s : State) {port q : Nat} (w : Word32) (hq : q ≠ port) :
    (storeCw port w s).ports[q]? = s.ports[q]? := by
  rw [storeCw_ports, List.getElem?_modify_ne _ _ (Ne.symm hq)]

/-- `OK` of the calling port after an update of it. -/
theorem ok_of_withOk {s t : State} {b : Bool} {pt : Port} (hp : s.ports[s.callPort]? = some pt)
    (ht : t.ports = s.ports.modify s.callPort (withOk b)) : (t.ports[s.callPort]?).map Port.ok = some b := by
  rw [(ports_of_modify hp ht).1, Option.map_some, withOk_ok]

theorem isOk_iff (x : Except ErrorKind Bytes) : x.isOk = true ↔ ∃ bytes, x = .ok bytes := by
  cases x with
  | error k => exact ⟨nofun, nofun⟩
  | ok bytes => exact ⟨fun _ => ⟨bytes, rfl⟩, fun _ => rfl⟩

/-- The flag a command leaves says whether its engine-level result is a success (rules R38, R298). -/
theorem exec_ok {i : Instr} (hi : i ≠ .init) {s t : State} {pt : Port} (hp : s.ports[s.callPort]? = some pt)
    (h : exec i s = .next t) : (t.ports[s.callPort]?).map Port.ok = some (commandResult i s pt).isOk := by
  rw [exec_eq hi hp, Host.Outcome.next.injEq] at h
  subst h
  cases commandResult i s pt with
  | error k => exact ok_of_withOk hp (afterFailure_ports s)
  | ok bytes => exact ok_of_withOk hp (afterSuccess_ports s pt bytes)

/-- The destination buffer of a successful command holds its result (rule R296). -/
theorem exec_memRead {i : Instr} (hi : i ≠ .init) {s t : State} (hs : Invariant s) {pt : Port} {bytes : Bytes}
    (hp : s.ports[s.callPort]? = some pt) (h : exec i s = .next t) (hr : commandResult i s pt = .ok bytes) :
    memRead t.mem pt.dp.toNat pt.dl.toNat = bytes := by
  obtain ⟨hwf, -⟩ := hs
  obtain ⟨k, -, hwidth, hlen, -⟩ := destination_of_ok hi hr
  rw [exec_of_ok hi hp hr, Host.Outcome.next.injEq] at h
  rw [← h, afterSuccess_mem, hlen, ← hwidth, memRead_memWrite hwf]

/-- Rule R41: `OK` in bit 0, `INIT` in bit 1, zeros above. -/
theorem getLsbD_statusWord (ok initDone : Bool) (n : Nat) :
    (statusWord ok initDone).getLsbD n = if n = 0 then ok else if n = 1 then initDone else false := by
  match n with
  | 0 => simp only [statusWord, BitVec.getLsbD_append]; simp
  | 1 => simp only [statusWord, BitVec.getLsbD_append]; simp
  | n + 2 => simp only [statusWord, BitVec.getLsbD_append]; simp

/-! ### The statements about registers -/

/-- Settles O4: the word is stored, the port is the calling one, and the call of a legal word is its command. -/
theorem stepRunsDecodedCommand : Obligations.StepRunsDecodedCommand := by
  refine ⟨fun s port w rest i hpend hport hdec => ⟨storeCw port w { s with pending := rest }, ?_, rfl, rfl, rfl, rfl, rfl,
    rfl, rfl, rfl⟩, fun s w i hport hdec => ?_⟩
  · simp only [step, hpend]
    exact (hostAct_writeCw (s := { s with pending := rest }) hport w).trans (startCall_of_decode hdec _)
  · have hword : BitVec.ofNat 32 (w % 2 ^ 32) = BitVec.ofNat 32 w :=
      BitVec.eq_of_toNat_eq (by simp only [BitVec.toNat_ofNat, Nat.mod_mod])
    simp only [step, State.withFetchWord, hword]
    exact (hostAct_writeCw hport _).trans (startCall_of_decode hdec _)

/-- Settles O5: the call changes only `OK` after the word is stored, and `OK` does not show in `CW`. -/
theorem commandWordRegister : Obligations.CommandWordRegister := by
  refine ⟨fun s port w hport => ?_, fun s port hport => hostAct_readReg hport .cw, rfl⟩
  obtain ⟨t, ht⟩ := exists_next_writeCw hport w
  have hcall : startCall w (storeCw port w s) = .next t := (hostAct_writeCw hport w).symm.trans ht
  obtain ⟨b, hports⟩ := startCall_ports hcall
  have hread : ∀ q, hostReadReg t q .cw = hostReadReg (storeCw port w s) q .cw :=
    fun q => hostReadReg_of_withOk hports q nofun
  refine ⟨t, ht, fun i hi => (startCall_of_decode hi _).symm.trans hcall, fun hill => ?_, ?_, fun q hq => ?_⟩
  · exact (Host.Outcome.next.inj ((startCall_of_illegal hill _).symm.trans hcall)).symm
  · rw [hread, hostReadReg_of_port (pt := { s.ports[port] with cw := w }) (by simp [hport])]
    rfl
  · rw [hread]
    exact hostReadReg_of_modify (storeCw_ports s port w) fun pt => by rw [if_neg (Ne.symm hq)]; rfl

/-- Settles O6, bit by bit. -/
theorem statusRegister : Obligations.StatusRegister := by
  refine ⟨fun s port pt hp => ⟨⟨_, hostReadReg_of_port hp .status, ?_, ?_, fun n hn => ?_⟩, fun w => ?_⟩, rfl⟩
  · simp only [readReg, BitVec.getLsbD_setWidth, getLsbD_statusWord]; rfl
  · simp only [readReg, BitVec.getLsbD_setWidth, getLsbD_statusWord]; rfl
  · simp [readReg, getLsbD_statusWord, show n ≠ 0 by omega, show n ≠ 1 by omega]
  · exact hostAct_writeStatus (List.getElem?_eq_some_iff.1 hp).1 w

/-- A slot write shows in no other register of its port. -/
theorem readReg_writeSlot_of_ne {s t : State} (hd : t.initDone = s.initDone) {x : Slot} {reg : PortReg}
    (hreg : reg ≠ .slot x) (v : Word64) (pt : Port) : readReg t (writeSlot x v pt) reg = readReg s pt reg := by
  cases reg with
  | cw => simp [readReg]
  | status => simp [readReg, hd]
  | slot y =>
    have hyx : y ≠ x := fun h => hreg (congrArg PortReg.slot h)
    simp [readReg, readSlot_writeSlot, hyx]

/-- Settles O7: a slot write is an update of one slot of one port, and a command updates no more of a port than `OK`. -/
theorem slotRegisters : Obligations.SlotRegisters := by
  refine ⟨fun s port x v hport => ⟨_, hostAct_writeSlot hport x v, ?_, fun reg hreg => ?_, fun q hq => ?_, rfl, rfl, rfl,
    rfl⟩, fun i s t q x h => ?_⟩
  · rw [hostReadReg_of_port (pt := writeSlot x v s.ports[port]) (by simp [hport])]
    simp [readReg, readSlot_writeSlot]
  · exact hostReadReg_of_modify rfl fun pt => by rw [if_pos rfl]; exact readReg_writeSlot_of_ne rfl hreg v pt
  · exact List.getElem?_modify_ne _ _ (Ne.symm hq)
  · obtain ⟨b, hports⟩ := exec_ports h
    exact hostReadReg_of_withOk hports q nofun

/-- A host action that is neither a write of `CW` nor a reset leaves every `OK` as it is (rule R38). -/
theorem hostAct_ok {a : HostAction} {s t : State} (h : hostAct a s = .next t) (hcw : ∀ port w, a ≠ .writeCw port w)
    (hreset : a ≠ .reset) (q : Nat) : (t.ports[q]?).map Port.ok = (s.ports[q]?).map Port.ok := by
  obtain ⟨port, w, ha, -⟩ | ⟨port, x, v, -, -, rfl⟩ | ⟨addr, b, -, -, rfl⟩ | ⟨ha, -⟩ | ⟨-, rfl⟩ := hostAct_cases h
  · exact absurd ha (hcw port w)
  · rw [List.getElem?_modify]
    cases s.ports[q]? with
    | none => rfl
    | some pt => by_cases hq : port = q <;> simp [hq]
  · rfl
  · exact absurd ha hreset
  · rfl

/-- The call that a write of `CW` starts leaves the other ports as they are (rule R343). -/
theorem writeCw_other_port {s t : State} {port q : Nat} {w : Word32} (h : hostAct (.writeCw port w) s = .next t)
    (hq : q ≠ port) : t.ports[q]? = s.ports[q]? := by
  obtain ⟨-, hcall⟩ := of_guard_eq_next h
  obtain ⟨b, hports⟩ := startCall_ports hcall
  rw [hports, storeCw_callPort, List.getElem?_modify_ne _ _ (Ne.symm hq), storeCw_getElem?_ne s w hq]

/-- Settles O8: a call ends with `OK` 1 exactly when its result is a success, and updates its own port only. -/
theorem okFlagWrittenByCallsOnly : Obligations.OkFlagWrittenByCallsOnly := by
  refine ⟨fun i s pt hi hp => ?_, fun a s t h hcw hreset q => hostAct_ok h hcw hreset q, fun s t port q w h hq =>
    writeCw_other_port h hq⟩
  obtain ⟨t, h⟩ := exists_next i hp
  exact ⟨t, _, h, exec_ok hi hp h, isOk_iff _⟩

/-! ### Reset and `INIT_DONE` -/

/-- Settles O9: the fields of `resetCore` (rules R50, R360, R361). -/
theorem resetState : Obligations.ResetState := by
  refine ⟨⟨rfl, rfl, rfl, fun pt hpt => ?_⟩, fun s => ⟨resetCore s, rfl, rfl, rfl, rfl, rfl, wf_unspecifiedMemory _ _,
    fun c hc => mem_unspecifiedMemory hc⟩⟩
  exact List.eq_of_mem_replicate hpt

/-- Unit and function of each assigned pair are those of its command (rule R100's table). -/
theorem unitFn_of_decodeUnitFn : ∀ unit fn : BitVec 4,
    (decodeUnitFn unit.toNat fn.toNat).toOption.all (fun i => unitFn i == (unit, fn)) = true := by decide

theorem append_fields (w : Word32) : fieldRsv w ++ fieldUnit w ++ fieldFn w = w := by
  have hlow : fieldUnit w ++ fieldFn w = w.extractLsb' 0 8 := BitVec.extractLsb'_append_extractLsb'_eq_extractLsb' rfl
  rw [BitVec.append_assoc, hlow]
  exact BitVec.extractLsb'_append_extractLsb'

/-- A legal word is the encoding of its command (rules R91, R100). -/
theorem eq_encode_of_decode {w : Word32} {i : Instr} (h : decode w = .ok i) : w = encode i := by
  unfold decode at h
  split at h
  · next hrsv =>
    have hunit := unitFn_of_decodeUnitFn (fieldUnit w) (fieldFn w)
    rw [h] at hunit
    have hpair : unitFn i = (fieldUnit w, fieldFn w) := by simpa [Except.toOption] using hunit
    rw [encode, hpair, ← hrsv, append_fields]
  · cases h

/-- What a host action does to `INIT_DONE`: nothing, unless it is a reset or a write of the INIT word (rules R42, R303). -/
theorem hostAct_initDone {a : HostAction} {s t : State} (h : hostAct a s = .next t) :
    t.initDone = s.initDone ∨ (a = .reset ∧ t.initDone = false) ∨
      ((∃ port, a = .writeCw port (encode .init)) ∧ t.initDone = true) := by
  obtain ⟨port, w, rfl, -, hcall⟩ | ⟨port, x, v, -, -, rfl⟩ | ⟨addr, b, -, -, rfl⟩ | ⟨rfl, rfl⟩ | ⟨-, rfl⟩ :=
    hostAct_cases h
  · obtain ⟨-, rfl⟩ | ⟨i, hdec, hexec⟩ := startCall_cases hcall
    · exact .inl rfl
    · have hinit := exec_initDone hexec
      by_cases hi : i = .init
      · subst hi
        exact .inr (.inr ⟨⟨port, by rw [eq_encode_of_decode hdec]⟩, by simpa using hinit⟩)
      · exact .inl (by simpa [hi] using hinit)
  · exact .inl rfl
  · exact .inl rfl
  · exact .inr (.inl ⟨rfl, rfl⟩)
  · exact .inl rfl

/-- Settles O12, case by case of what an action does to `INIT_DONE`. -/
theorem initDoneMonotonic : Obligations.InitDoneMonotonic := by
  intro a s t h
  obtain hkeep | ⟨hreset, hclear⟩ | ⟨hword, hset⟩ := hostAct_initDone h
  · exact ⟨fun hd _ => hkeep.trans hd, fun hd ht => absurd ((hkeep.trans hd).symm.trans ht) nofun⟩
  · exact ⟨fun _ hne => absurd hreset hne, fun _ ht => absurd (hclear.symm.trans ht) nofun⟩
  · exact ⟨fun _ _ => hset, fun _ _ => hword⟩

/-! ### Memory and determinism -/

/-- Settles O60: the read after the write of one byte, and the guard on `MAP`. -/
theorem hostMemoryAccess : Obligations.HostMemoryAccess := by
  rintro s a b ⟨hwf, -⟩
  refine ⟨fun hin => ⟨⟨_, if_pos hin, ?_, fun a' ha => ?_, rfl, rfl, rfl, rfl, rfl, rfl, rfl⟩, if_pos hin, if_pos hin⟩,
    fun hout => ?_⟩
  · simp [hostLoadByte, hin, Memory.read_write hwf]
  · simp [hostLoadByte, Memory.read_write hwf, ha]
  · simp [hostAct, hostLoadByte, hout]

/-- Settles O19: the two calls have one engine-level result (`commandResult_congr`), and it decides the flag and the
bytes. -/
theorem callIsDeterministic : Obligations.CallIsDeterministic := by
  intro i s1 s2 t1 t2 p1 p2 hs1 hs2 hp1 hp2 hinit hmap h0 h1 hd hexec1 hexec2
  by_cases hi : i = .init
  · subst hi
    rw [exec_init hp1, Host.Outcome.next.injEq] at hexec1
    rw [exec_init hp2, Host.Outcome.next.injEq] at hexec2
    subst hexec1 hexec2
    refine ⟨?_, fun _ hd => absurd rfl hd⟩
    rw [ok_of_withOk (b := true) hp1 (by simp), ok_of_withOk (b := true) hp2 (by simp)]
  · have htables : s1.tables = s2.tables := by
      obtain ⟨-, -, htab1, -⟩ := hs1
      obtain ⟨-, -, htab2, -⟩ := hs2
      rw [htab1, htab2, hinit]
    have hr : commandResult i s1 p1 = commandResult i s2 p2 := commandResult_congr hinit htables hmap h0 h1 hd
    rw [exec_ok hi hp1 hexec1, exec_ok hi hp2 hexec2, hr]
    refine ⟨rfl, fun hok _ => ?_⟩
    obtain ⟨bytes, hbytes⟩ := (isOk_iff _).1 (Option.some.inj hok)
    rw [exec_memRead hi hs1 hp1 hexec1 (hr.trans hbytes), exec_memRead hi hs2 hp2 hexec2 hbytes]

end Sys2Proof.Machine
end

section
/-! The codec (rules R112, R130 to R143): a byte string decodes to a value exactly when it is the encoding of that valid
value.  One equivalence per decoder says both that decoding inverts encoding (rule R142) and that decoding is canonical
(rule R143). -/

namespace Sys2Proof.Machine

/-- The decoder answers exactly the valid values, each from its encoding alone, and every encoding has `w` bytes. -/
structure IsCodec {α : Type} (dec : Bytes → Except ErrorKind α) (enc : α → Bytes) (valid : α → Bool) (w : Nat) : Prop where
  length_enc : ∀ a, (enc a).length = w
  ok_iff : ∀ b a, dec b = .ok a ↔ valid a = true ∧ enc a = b

/-! ### Buffers field by field -/

/-- A buffer that starts with `be_n(v)`. -/
theorem beBytes_append_eq_iff {n v : Nat} (hv : v < 256 ^ n) (rest b : Bytes) :
    beBytes n v ++ rest = b ↔ n ≤ b.length ∧ beNat (b.take n) = v ∧ b.drop n = rest := by
  constructor
  · rintro rfl
    have hlen : (beBytes n v).length = n := length_beBytes n v
    refine ⟨by simp, ?_, List.drop_left' hlen⟩
    rw [List.take_left' hlen, beNat_beBytes_of_lt hv]
  · rintro ⟨hlen, rfl, rfl⟩
    have htake : (b.take n).length = n := List.length_take_of_le hlen
    calc beBytes n (beNat (b.take n)) ++ b.drop n
        = beBytes (b.take n).length (beNat (b.take n)) ++ b.drop n := by rw [htake]
      _ = b := by rw [beBytes_beNat, List.take_append_drop]

/-- A buffer that starts with a flag byte. -/
theorem flag_cons_eq_iff (flag : Byte) (rest b : Bytes) :
    flag :: rest = b ↔ 1 ≤ b.length ∧ flagByte b = flag ∧ b.drop 1 = rest := by
  cases b with
  | nil => simp
  | cons x xs => simp [flagByte, eq_comm]

/-! ### The tests of a point decoder -/

/-- A test that rejects: past it, decoding goes on. -/
theorem ite_error_eq_ok_iff {α : Type} {c : Prop} [Decidable c] {k : ErrorKind} {o : Except ErrorKind α} {a : α} :
    (if c then .error k else o) = .ok a ↔ ¬ c ∧ o = .ok a := by
  split
  · next hc => exact ⟨nofun, fun h => absurd hc h.1⟩
  · next hc => exact ⟨fun h => ⟨hc, h⟩, fun h => h.2⟩

/-- Rules R134 and R135: what the tests of a point decoder let through, for G1 and G2 alike. -/
theorem pointTests_ok_iff {F : Type} {len w : Nat} {outside nonzero : Prop} [Decidable outside] [Decidable nonzero]
    {flag : Byte} {curve sub : Bool} {A P : Point F} (hzero : ¬ nonzero → ¬ outside) :
    (if len ≠ w then .error .invalidLength else if outside then .error .outOfRange
      else if flag = 1 then if nonzero then .error .notOnCurve else .ok .infinity
      else if flag ≠ 0 then .error .notOnCurve else if curve = false then .error .notOnCurve
      else if sub = false then .error .notInSubgroup else .ok A) = Except.ok (ε := ErrorKind) P ↔
    len = w ∧ ((flag = 1 ∧ ¬ nonzero ∧ P = .infinity) ∨
      (flag = 0 ∧ P = A ∧ ¬ outside ∧ curve = true ∧ sub = true)) := by
  by_cases hone : flag = 1
  · subst hone
    simp only [ite_error_eq_ok_iff, if_true, ne_eq, not_not, Except.ok.injEq]
    constructor
    · rintro ⟨hlen, -, hnz, rfl⟩
      exact ⟨hlen, .inl ⟨trivial, hnz, rfl⟩⟩
    · rintro ⟨hlen, ⟨-, hnz, rfl⟩ | ⟨hflag, -⟩⟩
      · exact ⟨hlen, hzero hnz, hnz, rfl⟩
      · exact absurd hflag (by decide)
  · simp only [ite_error_eq_ok_iff, hone, if_false, ne_eq, not_not, Bool.not_eq_false, Except.ok.injEq]
    constructor
    · rintro ⟨hlen, hin, hflag, hcurve, hsub, rfl⟩
      exact ⟨hlen, .inr ⟨hflag, rfl, hin, hcurve, hsub⟩⟩
    · rintro ⟨hlen, ⟨h, -⟩ | ⟨hflag, rfl, hin, hcurve, hsub⟩⟩
      · exact absurd h id
      · exact ⟨hlen, hin, hflag, hcurve, hsub, rfl⟩

/-! ### G1 -/

/-- The fields of a G1 buffer (rule R107). -/
theorem g1Bytes_eq_iff {flag : Byte} {x y : Nat} (hx : x < 256 ^ 48) (hy : y < 256 ^ 48) (b : Bytes) :
    flag :: (beBytes 48 x ++ beBytes 48 y) = b ↔
      b.length = 97 ∧ flagByte b = flag ∧ beNat (sliceBytes b 1 49) = x ∧ beNat (sliceBytes b 49 97) = y := by
  rw [← List.append_nil (beBytes 48 y), flag_cons_eq_iff, eq_comm (a := b.drop 1), beBytes_append_eq_iff hx,
    eq_comm (a := (b.drop 1).drop 48), beBytes_append_eq_iff hy]
  simp only [List.drop_drop, List.length_drop, List.drop_eq_nil_iff, sliceBytes]
  constructor
  · rintro ⟨h1, hflag, h2, hx, h3, hy, h4⟩
    exact ⟨by omega, hflag, hx, hy⟩
  · rintro ⟨hlen, hflag, hx, hy⟩
    exact ⟨by omega, hflag, by omega, hx, by omega, hy, by omega⟩

theorem isG1_affine_iff (x y : Nat) : isG1 (.affine x y) = true ↔ ¬ (curveTables.p ≤ x ∨ curveTables.p ≤ y) ∧
    onCurve (fqOps curveTables.p) curveTables.bG1 (.affine x y) = true ∧ inG1 curveTables (.affine x y) = true := by
  simp only [isG1, onE, Bool.and_eq_true, decide_eq_true_eq, and_assoc, not_or, not_le]

theorem decodeG1_ok_iff (b : Bytes) (P : Point Nat) :
    decodeG1 curveTables b = .ok P ↔ b.length = 97 ∧
      ((flagByte b = 1 ∧ ¬ (beNat (sliceBytes b 1 49) ≠ 0 ∨ beNat (sliceBytes b 49 97) ≠ 0) ∧ P = .infinity) ∨
       (flagByte b = 0 ∧ P = .affine (beNat (sliceBytes b 1 49)) (beNat (sliceBytes b 49 97)) ∧ isG1 P = true)) := by
  have hp : 0 < curveTables.p := p_pos
  refine (pointTests_ok_iff (by omega)).trans ?_
  refine and_congr_right fun _ => or_congr_right (and_congr_right fun _ => and_congr_right ?_)
  rintro rfl
  exact (isG1_affine_iff _ _).symm

theorem isG1_infinity : isG1 .infinity = true := by decide +kernel

theorem encodeG1_infinity : encodeG1 .infinity = 1 :: (beBytes 48 0 ++ beBytes 48 0) := by decide +kernel

/-- Rules R134, R137, R142, R143 for G1. -/
theorem isCodec_g1 : IsCodec (decodeG1 curveTables) encodeG1 isG1 97 where
  length_enc := length_encodeG1
  ok_iff b P := by
    rw [decodeG1_ok_iff]
    cases P with
    | infinity => simp [isG1_infinity, encodeG1_infinity, g1Bytes_eq_iff]
    | affine x y =>
      have henc : isG1 (.affine x y) = true → (encodeG1 (.affine x y) = b ↔ b.length = 97 ∧ flagByte b = 0 ∧
          beNat (sliceBytes b 1 49) = x ∧ beNat (sliceBytes b 49 97) = y) := by
        intro hvalid
        obtain ⟨hin, -⟩ := (isG1_affine_iff x y).1 hvalid
        have hp : curveTables.p < 256 ^ 48 := p_lt
        exact g1Bytes_eq_iff (by omega) (by omega) b
      rw [and_congr_right henc]
      simp only [reduceCtorEq, Point.affine.injEq]
      tauto

/-! ### G2 -/

/-- The fields of a G2 buffer (rule R108). -/
theorem g2Bytes_eq_iff {flag : Byte} {x y : Fq2} (hx0 : x.c0 < 256 ^ 48) (hx1 : x.c1 < 256 ^ 48)
    (hy0 : y.c0 < 256 ^ 48) (hy1 : y.c1 < 256 ^ 48) (b : Bytes) :
    flag :: (encodeFq2 x ++ encodeFq2 y) = b ↔ b.length = 193 ∧ flagByte b = flag ∧
      (beNat (sliceBytes b 1 49) = x.c0 ∧ beNat (sliceBytes b 49 97) = x.c1) ∧
      beNat (sliceBytes b 97 145) = y.c0 ∧ beNat (sliceBytes b 145 193) = y.c1 := by
  have hfields : encodeFq2 x ++ encodeFq2 y =
      beBytes 48 x.c0 ++ (beBytes 48 x.c1 ++ (beBytes 48 y.c0 ++ (beBytes 48 y.c1 ++ []))) := by
    simp only [encodeFq2, Config.wFq, List.append_assoc, List.append_nil]
  rw [hfields, flag_cons_eq_iff, eq_comm (a := b.drop 1), beBytes_append_eq_iff hx0,
    eq_comm (a := (b.drop 1).drop 48), beBytes_append_eq_iff hx1, eq_comm (a := ((b.drop 1).drop 48).drop 48),
    beBytes_append_eq_iff hy0, eq_comm (a := (((b.drop 1).drop 48).drop 48).drop 48), beBytes_append_eq_iff hy1]
  simp only [List.drop_drop, List.length_drop, List.drop_eq_nil_iff, sliceBytes]
  constructor
  · rintro ⟨h1, hflag, h2, hx0, h3, hx1, h4, hy0, h5, hy1, h6⟩
    exact ⟨by omega, hflag, ⟨hx0, hx1⟩, hy0, hy1⟩
  · rintro ⟨hlen, hflag, ⟨hx0, hx1⟩, hy0, hy1⟩
    exact ⟨by omega, hflag, by omega, hx0, by omega, hx1, by omega, hy0, by omega, hy1, by omega⟩

theorem isG2_affine_iff (x y : Fq2) : isG2 (.affine x y) = true ↔
    ¬ (curveTables.p ≤ x.c0 ∨ curveTables.p ≤ x.c1 ∨ curveTables.p ≤ y.c0 ∨ curveTables.p ≤ y.c1) ∧
    onCurve (fq2Ops curveTables.p) curveTables.bG2 (.affine x y) = true ∧ inG2 curveTables (.affine x y) = true := by
  simp only [isG2, onTwist, Bool.and_eq_true, decide_eq_true_eq, and_assoc, not_or, not_le]

theorem decodeG2_ok_iff (b : Bytes) (Q : Point Fq2) :
    decodeG2 curveTables b = .ok Q ↔ b.length = 193 ∧
      ((flagByte b = 1 ∧ ¬ (beNat (sliceBytes b 1 49) ≠ 0 ∨ beNat (sliceBytes b 49 97) ≠ 0 ∨
          beNat (sliceBytes b 97 145) ≠ 0 ∨ beNat (sliceBytes b 145 193) ≠ 0) ∧ Q = .infinity) ∨
       (flagByte b = 0 ∧ Q = .affine ⟨beNat (sliceBytes b 1 49), beNat (sliceBytes b 49 97)⟩
          ⟨beNat (sliceBytes b 97 145), beNat (sliceBytes b 145 193)⟩ ∧ isG2 Q = true)) := by
  have hp : 0 < curveTables.p := p_pos
  refine (pointTests_ok_iff (by omega)).trans ?_
  refine and_congr_right fun _ => or_congr_right (and_congr_right fun _ => and_congr_right ?_)
  rintro rfl
  exact (isG2_affine_iff ⟨_, _⟩ ⟨_, _⟩).symm

theorem isG2_infinity : isG2 .infinity = true := by decide +kernel

theorem encodeG2_infinity : encodeG2 .infinity = 1 :: (encodeFq2 ⟨0, 0⟩ ++ encodeFq2 ⟨0, 0⟩) := by decide +kernel

/-- Rules R135, R138, R142, R143 for G2. -/
theorem isCodec_g2 : IsCodec (decodeG2 curveTables) encodeG2 isG2 193 where
  length_enc := length_encodeG2
  ok_iff b Q := by
    rw [decodeG2_ok_iff]
    cases Q with
    | infinity => simp [isG2_infinity, encodeG2_infinity, g2Bytes_eq_iff, and_assoc]
    | affine x y =>
      have henc : isG2 (.affine x y) = true → (encodeG2 (.affine x y) = b ↔ b.length = 193 ∧ flagByte b = 0 ∧
          (beNat (sliceBytes b 1 49) = x.c0 ∧ beNat (sliceBytes b 49 97) = x.c1) ∧
          beNat (sliceBytes b 97 145) = y.c0 ∧ beNat (sliceBytes b 145 193) = y.c1) := by
        intro hvalid
        obtain ⟨hin, -⟩ := (isG2_affine_iff x y).1 hvalid
        have hp : curveTables.p < 256 ^ 48 := p_lt
        exact g2Bytes_eq_iff (by omega) (by omega) (by omega) (by omega) b
      rw [and_congr_right henc]
      cases x
      cases y
      simp only [reduceCtorEq, Point.affine.injEq, Fq2.mk.injEq]
      tauto

/-! ### Lists -/

section
variable {α β : Type} {decA : Bytes → Except ErrorKind α} {decB : Bytes → Except ErrorKind β} {encA : α → Bytes}
  {encB : β → Bytes} {validA : α → Bool} {validB : β → Bool} {wA wB : Nat}

theorem decodeEntries_succ_ok_iff (n : Nat) (b : Bytes) (l : List (α × β)) :
    decodeEntries decA decB wA wB (n + 1) b = .ok l ↔ ∃ x y rest, decA (b.take wA) = .ok x ∧
      decB ((b.drop wA).take wB) = .ok y ∧ decodeEntries decA decB wA wB n (b.drop (wA + wB)) = .ok rest ∧
      l = (x, y) :: rest := by
  constructor
  · intro h
    rw [decodeEntries] at h
    split at h
    · cases h
    · next x hx =>
      split at h
      · cases h
      · next y hy =>
        split at h
        · cases h
        · next rest hrest => exact ⟨x, y, rest, hx, hy, hrest, (Except.ok.inj h).symm⟩
  · rintro ⟨x, y, rest, hx, hy, hrest, rfl⟩
    simp only [decodeEntries, hx, hy, hrest]

variable (hA : IsCodec decA encA validA wA) (hB : IsCodec decB encB validB wB)
include hA hB

/-- Entries decode to the valid pairs that the buffer encodes one after another (rule R141). -/
theorem decodeEntries_ok_iff {n : Nat} {b : Bytes} (hlen : b.length = n * (wA + wB)) (l : List (α × β)) :
    decodeEntries decA decB wA wB n b = .ok l ↔ l.length = n ∧
      (∀ e ∈ l, validA e.1 = true ∧ validB e.2 = true) ∧ l.flatMap (fun e => encA e.1 ++ encB e.2) = b := by
  induction n generalizing b l with
  | zero =>
    have hb : b = [] := List.eq_nil_of_length_eq_zero (by simpa using hlen)
    subst hb
    constructor
    · intro h
      obtain rfl : [] = l := Except.ok.inj h
      exact ⟨rfl, nofun, rfl⟩
    · rintro ⟨hl, -, -⟩
      obtain rfl : l = [] := List.eq_nil_of_length_eq_zero hl
      rfl
  | succ n ih =>
    have hrestlen : (b.drop (wA + wB)).length = n * (wA + wB) := by
      rw [List.length_drop, hlen, Nat.succ_mul, Nat.add_sub_cancel]
    rw [decodeEntries_succ_ok_iff]
    constructor
    · rintro ⟨x, y, rest, hx, hy, hrest, rfl⟩
      obtain ⟨hvx, hex⟩ := (hA.ok_iff _ _).1 hx
      obtain ⟨hvy, hey⟩ := (hB.ok_iff _ _).1 hy
      obtain ⟨hl, hvalid, henc⟩ := (ih hrestlen rest).1 hrest
      refine ⟨congrArg (· + 1) hl, List.forall_mem_cons.2 ⟨⟨hvx, hvy⟩, hvalid⟩, ?_⟩
      rw [List.flatMap_cons, hex, hey, henc, ← List.drop_drop, List.append_assoc, List.take_append_drop,
        List.take_append_drop]
    · rintro ⟨hl, hvalid, henc⟩
      cases l with
      | nil => cases hl
      | cons e rest =>
        obtain ⟨⟨hvx, hvy⟩, hvrest⟩ := List.forall_mem_cons.1 hvalid
        rw [List.flatMap_cons, List.append_assoc] at henc
        have hdropA : b.drop wA = encB e.2 ++ rest.flatMap fun e => encA e.1 ++ encB e.2 := by
          rw [← henc, List.drop_left' (hA.length_enc _)]
        refine ⟨e.1, e.2, rest, (hA.ok_iff _ _).2 ⟨hvx, ?_⟩, (hB.ok_iff _ _).2 ⟨hvy, ?_⟩,
          (ih hrestlen rest).2 ⟨Nat.succ.inj hl, hvrest, ?_⟩, rfl⟩
        · rw [← henc, List.take_left' (hA.length_enc _)]
        · rw [hdropA, List.take_left' (hB.length_enc _)]
        · rw [← List.drop_drop, hdropA, List.drop_left' (hB.length_enc _)]

theorem length_flatMap_enc (l : List (α × β)) :
    (l.flatMap fun e => encA e.1 ++ encB e.2).length = l.length * (wA + wB) := by
  induction l with
  | nil => simp
  | cons e rest ih =>
    rw [List.flatMap_cons, List.length_append, List.length_append, hA.length_enc, hB.length_enc, ih, List.length_cons,
      Nat.succ_mul, Nat.add_comm]

/-- Rules R112, R141 to R143 for lists: a buffer decodes to a list exactly when it is the encoding of that list, the list
is short enough for its count and each entry is a value of its kinds. -/
theorem decodeList_ok_iff (b : Bytes) (l : List (α × β)) : decodeList decA decB wA wB b = .ok l ↔
    (decide (l.length < 2 ^ 32) && l.all fun e => validA e.1 && validB e.2) = true ∧ encodeList encA encB l = b := by
  refine (ite_error_eq_ok_iff.trans (and_congr_right fun _ => ite_error_eq_ok_iff)).trans ?_
  simp only [encodeList, Config.wCount, not_lt, ne_eq, not_not, Bool.and_eq_true, decide_eq_true_eq, List.all_eq_true]
  constructor
  · rintro ⟨h4, hlen, hentries⟩
    have hdrop : (b.drop 4).length = beNat (b.take 4) * (wA + wB) := by rw [List.length_drop, hlen]; omega
    obtain ⟨hl, hvalid, henc⟩ := (decodeEntries_ok_iff hA hB hdrop l).1 hentries
    have hcount : l.length < 256 ^ 4 := by
      have hbound := beNat_lt (b.take 4)
      rwa [List.length_take_of_le h4, ← hl] at hbound
    exact ⟨⟨hcount, hvalid⟩, (beBytes_append_eq_iff hcount _ _).2 ⟨h4, hl.symm, henc.symm⟩⟩
  · rintro ⟨⟨hcount, hvalid⟩, hb⟩
    obtain ⟨h4, hl, henc⟩ := (beBytes_append_eq_iff (show l.length < 256 ^ 4 from hcount) _ _).1 hb
    have hdrop : (b.drop 4).length = beNat (b.take 4) * (wA + wB) := by rw [henc, hl, length_flatMap_enc hA hB]
    refine ⟨h4, ?_, (decodeEntries_ok_iff hA hB hdrop l).2 ⟨hl.symm, hvalid, henc.symm⟩⟩
    rw [← hdrop, List.length_drop]
    omega

end

/-- LIST(G1, G2) (rule R113). -/
theorem decodeG1G2List_ok_iff (b : Bytes) (l : List (Point Nat × Point Fq2)) :
    decodeG1G2List curveTables b = .ok l ↔ isG1G2List l = true ∧ encodeList encodeG1 encodeG2 l = b :=
  decodeList_ok_iff isCodec_g1 isCodec_g2 b l

end Sys2Proof.Machine
end

section
/-! Commands with two sources (rule R292 steps 7 to 9): a ready call completes exactly when both sources are encodings of
valid values. -/

namespace Sys2Proof.Machine

/-- Both sources decode: the engine computes and encodes (rule R292 steps 7 to 9). -/
theorem engine2_of_ok {α β γ : Type} {decA : Tables → Bytes → Except ErrorKind α}
    {decB : Tables → Bytes → Except ErrorKind β} {enc : γ → Bytes} {f : Tables → α → β → Except ErrorKind γ}
    (T : Tables) {b0 b1 : Bytes} {a : α} {b : β} (ha : decA curveTables b0 = .ok a) (hb : decB curveTables b1 = .ok b) :
    engine2 decA decB enc f (some T) b0 b1 = (f T a b).map enc := by
  simp only [engine2, ha, hb, computeResult_some]

/-- The result of a ready command with two sources is its engine on the two source buffers. -/
theorem commandResult_of_ready_two {i : Instr} {s : State} {pt : Port} (h : Ready i s pt)
    (h0 : slotUsed (operandsOf i).s0 = true) (h1 : slotUsed (operandsOf i).s1 = true) :
    commandResult i s pt = engineOf i (some curveTables) (source0 s pt) (source1 s pt) := by
  simp only [commandResult_of_ready h, sourceBytes, h0, h1, if_true, source0, source1]

section
variable {i : Instr} {α β γ : Type} {decA : Tables → Bytes → Except ErrorKind α}
  {decB : Tables → Bytes → Except ErrorKind β} {encA : α → Bytes} {encB : β → Bytes} {validA : α → Bool}
  {validB : β → Bool} {enc : γ → Bytes} {f : Tables → α → β → γ}
  (hi : i ≠ .init) (hengine : engineOf i = engine2 decA decB enc fun T a b => .ok (f T a b))
  (h0 : slotUsed (operandsOf i).s0 = true) (h1 : slotUsed (operandsOf i).s1 = true)
  (hA : ∀ b a, decA curveTables b = .ok a ↔ validA a = true ∧ encA a = b)
  (hB : ∀ b a, decB curveTables b = .ok a ↔ validB a = true ∧ encB a = b)
  {s : State} {pt : Port} (hp : s.ports[s.callPort]? = some pt)
include hi hengine h0 h1 hA hB hp

/-- A ready command with two valid sources completes with the encoding of its function's value. -/
theorem exec_two_of_valid {a : α} {b : β} (hready : Ready i s pt) (ha : validA a = true) (hb : validB b = true)
    (hs0 : source0 s pt = encA a) (hs1 : source1 s pt = encB b) :
    exec i s = .next (afterSuccess s pt (enc (f curveTables a b))) := by
  refine exec_of_ok hi hp ?_
  rw [commandResult_of_ready_two hready h0 h1, hengine,
    engine2_of_ok curveTables ((hA _ _).2 ⟨ha, hs0.symm⟩) ((hB _ _).2 ⟨hb, hs1.symm⟩)]
  rfl

/-- In every other state of the invariant it fails: what does not decode is no encoding of a valid value. -/
theorem exec_two_of_not_valid (hs : Invariant s)
    (h : ∀ a b, validA a = true → validB b = true → source0 s pt = encA a → source1 s pt = encB b → ¬ Ready i s pt) :
    exec i s = .next (afterFailure s) := by
  obtain ⟨-, -, htab, -⟩ := hs
  obtain ⟨k, hk⟩ : ∃ k, commandResult i s pt = .error k := by
    by_cases hready : Ready i s pt
    · rw [commandResult_of_ready_two hready h0 h1, hengine]
      cases hdecA : decA curveTables (source0 s pt) with
      | error k => exact ⟨k, engine2_first_error hdecA⟩
      | ok a =>
        cases hdecB : decB curveTables (source1 s pt) with
        | error k => exact ⟨k, engine2_second_error hdecA hdecB⟩
        | ok b =>
          obtain ⟨hva, hea⟩ := (hA _ _).1 hdecA
          obtain ⟨hvb, heb⟩ := (hB _ _).1 hdecB
          exact absurd hready (h a b hva hvb hea.symm heb.symm)
    · exact commandResult_of_not_ready hp htab hready
  exact exec_of_error hi hp hk

end

/-- Settles O41: both sources are lists of pairs, and the destination is the byte of the verdict. -/
theorem pairingCheckResult : Obligations.PairingCheckResult := by
  intro s pt hs hp
  refine ⟨fun l r hready hl hr hs0 hs1 => ?_, fun h => ?_⟩
  · exact exec_two_of_valid (i := .pairingCheck) nofun rfl rfl rfl decodeG1G2List_ok_iff decodeG1G2List_ok_iff hp
      hready hl hr hs0 hs1
  · exact exec_two_of_not_valid (i := .pairingCheck) nofun rfl rfl rfl decodeG1G2List_ok_iff decodeG1G2List_ok_iff hp
      hs h

end Sys2Proof.Machine
end

section
/-! Buffers that are not admitted (rules R61, R64) and INIT repeated (rules R300, R303). -/

namespace Sys2Proof.Machine

/-! ### Admission of the used buffers -/

theorem slotUsed_iff (k : SlotKind) : slotUsed k = true ↔ k ≠ .unused := by
  cases k with
  | unused => exact ⟨nofun, fun h => absurd rfl h⟩
  | fixed => exact ⟨nofun, fun _ => rfl⟩
  | list => exact ⟨nofun, fun _ => rfl⟩

/-- Rule R64: a buffer fails the test of call step 5 when it is used and passes 2^64 or has an address outside `MAP`. -/
theorem addressOk_eq_false_iff (map : List Region) (k : SlotKind) (ptr len : Nat) :
    addressOk map k ptr len = false ↔
      k ≠ .unused ∧ (2 ^ 64 < ptr + len ∨ ∃ a, ptr ≤ a ∧ a < ptr + len ∧ inMap map a = false) := by
  rw [addressOk, Bool.or_eq_false_iff, Bool.not_eq_false', slotUsed_iff, ← Bool.not_eq_true, admitted_iff,
    not_and_or, Nat.not_le]
  push Not
  simp only [Bool.not_eq_true]

/-- The test of call step 5 fails when one of the three buffers fails it. -/
theorem addressesOk_eq_false_iff (ops : Operands) (map : List Region) (pt : Port) :
    addressesOk ops map pt = false ↔
      ∃ x ∈ [(ops.s0, pt.s0p, pt.s0l), (ops.s1, pt.s1p, pt.s1l), (ops.d, pt.dp, pt.dl)],
        addressOk map x.1 x.2.1.toNat x.2.2.toNat = false := by
  simp only [addressesOk, Bool.and_eq_false_iff, List.mem_cons, List.not_mem_nil, or_false, exists_eq_or_imp,
    exists_eq_left, or_assoc]

/-- INIT uses no buffer, so it has none that is not admitted. -/
theorem addressesOk_init (map : List Region) (pt : Port) : addressesOk (operandsOf .init) map pt = true := rfl

/-- Call step 5 (rule R292): after the good lengths of an initialised core the addresses decide. -/
theorem commandResult_badAddress {i : Instr} {s : State} {pt : Port} (hinit : s.initDone = true)
    (hlen : lengthsOk (operandsOf i) pt = true) (haddr : addressesOk (operandsOf i) s.map pt = false) :
    commandResult i s pt = .error .badAddress := by
  simp [commandResult, callResult, precheck, hinit, hlen, haddr]

/-- Settles O16: a used buffer that is not admitted fails call step 5, so the call is not ready. -/
theorem badAddressFails : Obligations.BadAddressFails := by
  intro i s pt ⟨_, _, htab, _⟩ hp ⟨x, hx, hbad⟩
  have haddr : addressesOk (operandsOf i) s.map pt = false :=
    (addressesOk_eq_false_iff ..).2 ⟨x, hx, (addressOk_eq_false_iff ..).2 hbad⟩
  refine ⟨?_, fun hinit hlen => commandResult_badAddress hinit hlen haddr⟩
  have hi : i ≠ .init := by
    rintro rfl
    exact Bool.noConfusion ((addressesOk_init s.map pt).symm.trans haddr)
  have hready : ¬ Ready i s pt := fun ⟨_, _, _, _, hok⟩ => Bool.noConfusion (hok.symm.trans haddr)
  obtain ⟨k, hk⟩ := commandResult_of_not_ready hp htab hready
  exact exec_of_error hi hp hk

/-! ### INIT repeated -/

/-- Everything INIT does when it answers a next state (rule R300). -/
theorem exec_init_cases {s t : State} (h : exec .init s = .next t) :
    t = setOk true (initShared s) ∧ (t.ports[s.callPort]?).map Port.ok = some true := by
  obtain ⟨pt, hp⟩ := exists_port_of_next h
  rw [exec_init hp, Host.Outcome.next.injEq] at h
  exact ⟨h.symm, ok_of_withOk hp (by rw [← h, setOk_ports, initShared_ports, initShared_callPort])⟩

/-- Rule R303: an INIT that finds `INIT_DONE` set leaves the shared state as it is. -/
theorem exec_init_of_initDone {s t : State} (hs : s.initDone = true) (h : exec .init s = .next t) :
    t = setOk true s := by
  rw [(exec_init_cases h).1, initShared, if_pos hs]

/-- The result of a call reads nothing of the state but the shared part (rules R77, R291). -/
theorem commandResult_of_shared {s t : State} (hinit : s.initDone = t.initDone) (htab : s.tables = t.tables)
    (hmap : s.map = t.map) (hmem : s.mem = t.mem) (i : Instr) (pt : Port) :
    commandResult i s pt = commandResult i t pt :=
  commandResult_congr hinit htab hmap (fun _ => ⟨rfl, rfl, by rw [source0, source0, hmem]⟩)
    (fun _ => ⟨rfl, rfl, by rw [source1, source1, hmem]⟩) fun _ => ⟨rfl, rfl⟩

/-- Settles O24: the first INIT sets `INIT_DONE`, so the second changes no more than its port's `OK`, which no later
call reads. -/
theorem initIdempotent : Obligations.InitIdempotent := by
  intro s t u q _ hst htu
  obtain ⟨ht, htok⟩ := exec_init_cases hst
  obtain ⟨-, huok⟩ := exec_init_cases htu
  have htinit : t.initDone = true := by rw [ht, setOk_initDone, initShared_initDone]
  have htmem : t.mem = s.mem := by rw [ht, setOk_mem, initShared_mem]
  obtain rfl := exec_init_of_initDone (s := { t with callPort := q }) htinit htu
  exact ⟨htinit, rfl, rfl, htmem, htok, huok, fun i p _ => commandResult_of_shared rfl rfl rfl rfl i p⟩

end Sys2Proof.Machine
end

section
/-! The decoder of command words on all 2^32 words (rules R91, R100, R102): it inverts the encoder, and the words that
decode are those that `legalWord` accepts. -/

namespace Sys2Proof.Machine

/-- The command-by-command statements of `Laws.RoundTrip`, as one. -/
theorem roundTrip_statement (i : Instr) : Laws.RoundTrip.Statement i := by
  cases i with
  | init => exact Laws.RoundTrip.init
  | frOne => exact Laws.RoundTrip.frOne
  | frAdd => exact Laws.RoundTrip.frAdd
  | frSub => exact Laws.RoundTrip.frSub
  | frMul => exact Laws.RoundTrip.frMul
  | frInv => exact Laws.RoundTrip.frInv
  | frNeg => exact Laws.RoundTrip.frNeg
  | g1One => exact Laws.RoundTrip.g1One
  | g1Add => exact Laws.RoundTrip.g1Add
  | g1Neg => exact Laws.RoundTrip.g1Neg
  | g1Mul => exact Laws.RoundTrip.g1Mul
  | g1Msm => exact Laws.RoundTrip.g1Msm
  | g2One => exact Laws.RoundTrip.g2One
  | g2Add => exact Laws.RoundTrip.g2Add
  | g2Neg => exact Laws.RoundTrip.g2Neg
  | g2Mul => exact Laws.RoundTrip.g2Mul
  | g2Msm => exact Laws.RoundTrip.g2Msm
  | pairingCheck => exact Laws.RoundTrip.pairingCheck

theorem decode_encode (i : Instr) : decode (encode i) = .ok i := by
  obtain ⟨-, -, hdec⟩ := roundTrip_statement i
  exact hdec

theorem legalWord_encode (i : Instr) : legalWord (encode i) = true := by
  obtain ⟨hlegal, -, -⟩ := roundTrip_statement i
  exact hlegal

/-- Settles O2: `eq_encode_of_decode` in one direction, `decode_encode` in the other. -/
theorem decodeEncodeAgree : Obligations.DecodeEncodeAgree := by
  intro w i
  refine ⟨eq_encode_of_decode, ?_⟩
  rintro rfl
  exact decode_encode i

/-- Settles O1: the words of the table are the encodings of its commands, written out. -/
theorem opcodeTableDecodes : Obligations.OpcodeTableDecodes :=
  ⟨decode_encode .init, decode_encode .frOne, decode_encode .frAdd, decode_encode .frSub, decode_encode .frMul,
    decode_encode .frInv, decode_encode .frNeg, decode_encode .g1One, decode_encode .g1Add, decode_encode .g1Neg,
    decode_encode .g1Mul, decode_encode .g1Msm, decode_encode .g2One, decode_encode .g2Add, decode_encode .g2Neg,
    decode_encode .g2Mul, decode_encode .g2Msm, decode_encode .pairingCheck⟩

/-! ### Legal words -/

/-- The two conditions of rule R102. -/
theorem legalWord_iff (w : Word32) : legalWord w = true ↔
    w.extractLsb' 8 24 = 0#24 ∧ (w.extractLsb' 0 8).toNat ∈
      [0x00, 0x10, 0x11, 0x12, 0x13, 0x14, 0x15, 0x20, 0x21, 0x22, 0x23, 0x24, 0x30, 0x31, 0x32, 0x33, 0x34, 0x40] := by
  rw [legalWord, reservedZero, opcodeAssigned, Bool.and_eq_true, beq_iff_eq, List.contains_iff_mem]
  rfl

/-- A word is its reserved bits followed by its low byte. -/
theorem zero_append_lowByte {w : Word32} (h : w.extractLsb' 8 24 = 0#24) : 0#24 ++ w.extractLsb' 0 8 = w := by
  rw [← h]
  exact BitVec.extractLsb'_append_extractLsb'

/-- Each opcode of rule R102's list belongs to a command: the 256 low bytes one by one. -/
theorem exists_encode_of_legalWord_lowByte :
    ∀ c : BitVec 8, legalWord (0#24 ++ c) = true → ∃ i ∈ Instr.all, encode i = 0#24 ++ c := by decide

/-- Rule R102: the words that decode are the legal ones. -/
theorem exists_decode_iff_legalWord (w : Word32) : (∃ i, decode w = .ok i) ↔ legalWord w = true := by
  constructor
  · rintro ⟨i, hi⟩
    rw [eq_encode_of_decode hi]
    exact legalWord_encode i
  · intro hlegal
    obtain ⟨hrsv, -⟩ := (legalWord_iff w).1 hlegal
    rw [← zero_append_lowByte hrsv] at hlegal ⊢
    obtain ⟨i, -, hi⟩ := exists_encode_of_legalWord_lowByte _ hlegal
    exact ⟨i, hi ▸ decode_encode i⟩

/-- Settles O3: the legal words are those of `exists_decode_iff_legalWord`, and the call of any other fails in every
state. -/
theorem illegalWordFailsClosed : Obligations.IllegalWordFailsClosed :=
  ⟨fun w => (exists_decode_iff_legalWord w).trans (legalWord_iff w),
    fun _ _ w hport hill => (hostAct_writeCw hport w).trans (startCall_of_illegal hill _)⟩

end Sys2Proof.Machine
end

section
/-! The codec of scalars, and what a list decoder answers in each case (rules R112, R113, R133, R141). -/

namespace Sys2Proof.Machine

/-- Rules R133, R136, R142, R143 for Fr. -/
theorem isCodec_fr : IsCodec (decodeFr curveTables) encodeFr isFr 32 where
  length_enc := length_encodeFr
  ok_iff b a := by
    have hr : Config.r < 256 ^ 32 := r_lt.trans (by norm_num)
    refine (ite_error_eq_ok_iff.trans (and_congr_right fun _ => ite_error_eq_ok_iff)).trans ?_
    rw [isFr, decide_eq_true_eq, Except.ok.injEq, not_not, not_le]
    constructor
    · rintro ⟨hlen, hlt, rfl⟩
      refine ⟨hlt, ?_⟩
      rw [encodeFr, ← hlen, beBytes_beNat]
    · rintro ⟨hlt, rfl⟩
      have hval : beNat (encodeFr a) = a := beNat_beBytes_of_lt (hlt.trans hr)
      exact ⟨length_encodeFr a, hval.symm ▸ hlt, hval⟩

/-- Settles O57: one direction of the three codecs. -/
theorem codecCanonical : Obligations.CodecCanonical :=
  ⟨fun b a => (isCodec_fr.ok_iff b a).1, fun b P => (isCodec_g1.ok_iff b P).1, fun b Q => (isCodec_g2.ok_iff b Q).1⟩

section
variable {α β : Type} {decA : Bytes → Except ErrorKind α} {decB : Bytes → Except ErrorKind β} {wA wB : Nat}

/-- Rule R141: the tests of the length come before any entry. -/
theorem decodeList_invalidLength {b : Bytes} (h : b.length < 4 ∨ b.length ≠ 4 + beNat (b.take 4) * (wA + wB)) :
    decodeList decA decB wA wB b = .error .invalidLength := by
  by_cases h4 : b.length < 4
  · exact if_pos h4
  · exact (if_neg h4).trans (if_pos (h.resolve_left h4))

/-- A list of the right length is decoded entry by entry. -/
theorem decodeList_beBytes_append {n : Nat} {body : Bytes} (hn : n < 2 ^ 32) (hlen : body.length = n * (wA + wB)) :
    decodeList decA decB wA wB (beBytes 4 n ++ body) = decodeEntries decA decB wA wB n body := by
  obtain ⟨h4, hcount, hdrop⟩ := (beBytes_append_eq_iff (show n < 256 ^ 4 from hn) body _).1 rfl
  have htotal : (beBytes 4 n ++ body).length = 4 + n * (wA + wB) := by
    rw [List.length_append, length_beBytes, hlen]
  have hlong : ¬ (beBytes 4 n ++ body).length < 4 := Nat.not_lt.2 h4
  rw [decodeList, Config.wCount, if_neg hlong, hcount, hdrop, if_neg (not_not.2 htotal)]

/-! ### The first failing element -/

theorem decodeEntries_first_error {a : Bytes} {k : ErrorKind} (ha : a.length = wA) (h : decA a = .error k) (n : Nat)
    (rest : Bytes) : decodeEntries decA decB wA wB (n + 1) (a ++ rest) = .error k := by
  simp only [decodeEntries, List.take_left' ha, h]

theorem decodeEntries_second_error {a b : Bytes} {x : α} {k : ErrorKind} (ha : a.length = wA) (hb : b.length = wB)
    (hx : decA a = .ok x) (h : decB b = .error k) (n : Nat) (rest : Bytes) :
    decodeEntries decA decB wA wB (n + 1) (a ++ (b ++ rest)) = .error k := by
  simp only [decodeEntries, List.take_left' ha, List.drop_left' ha, List.take_left' hb, hx, h]

theorem decodeEntries_later_error {a b : Bytes} {x : α} {y : β} {k : ErrorKind} (ha : a.length = wA) (hb : b.length = wB)
    (hx : decA a = .ok x) (hy : decB b = .ok y) {n : Nat} {rest : Bytes}
    (h : decodeEntries decA decB wA wB n rest = .error k) :
    decodeEntries decA decB wA wB (n + 1) (a ++ (b ++ rest)) = .error k := by
  simp only [decodeEntries, List.take_left' ha, List.drop_left' ha, List.take_left' hb, ← List.drop_drop,
    List.drop_left' hb, hx, hy, h]

/-- Entries that decode pass the decision on to what follows them. -/
theorem decodeEntries_flatMap_append_error {n : Nat} {tail : Bytes} {k : ErrorKind}
    (h : decodeEntries decA decB wA wB n tail = .error k) (good : List (Bytes × Bytes))
    (hgood : ∀ e ∈ good, e.1.length = wA ∧ e.2.length = wB ∧ (∃ x, decA e.1 = .ok x) ∧ ∃ y, decB e.2 = .ok y) :
    decodeEntries decA decB wA wB (good.length + n) (good.flatMap (fun e => e.1 ++ e.2) ++ tail) = .error k := by
  induction good with
  | nil => simpa using h
  | cons e good ih =>
    obtain ⟨⟨ha, hb, ⟨x, hx⟩, y, hy⟩, hrest⟩ := List.forall_mem_cons.1 hgood
    rw [List.flatMap_cons, List.append_assoc, List.append_assoc, List.length_cons, Nat.succ_add]
    exact decodeEntries_later_error ha hb hx hy (ih hrest)

theorem length_flatMap_entries {good : List (Bytes × Bytes)} (h : ∀ e ∈ good, e.1.length = wA ∧ e.2.length = wB) :
    (good.flatMap fun e => e.1 ++ e.2).length = good.length * (wA + wB) := by
  induction good with
  | nil => simp
  | cons e good ih =>
    obtain ⟨⟨ha, hb⟩, hrest⟩ := List.forall_mem_cons.1 h
    rw [List.flatMap_cons, List.length_append, List.length_append, ha, hb, ih hrest, List.length_cons, Nat.succ_mul,
      Nat.add_comm]

/-- Rule R141's order, for the elements of any two kinds. -/
theorem firstFailureDecides_decodeList : FirstFailureDecides decA decB wA wB (decodeList decA decB wA wB) := by
  intro good a b rest n k hgood ha hb hn hlt hrest buffer
  obtain ⟨m, rfl⟩ : ∃ m, n = good.length + (m + 1) := ⟨n - good.length - 1, by omega⟩
  have hbuffer : buffer = beBytes 4 (good.length + (m + 1)) ++
      (good.flatMap (fun e => e.1 ++ e.2) ++ (a ++ (b ++ rest))) := by
    simp only [buffer, List.append_assoc]
  have hlen : (good.flatMap (fun e => e.1 ++ e.2) ++ (a ++ (b ++ rest))).length =
      (good.length + (m + 1)) * (wA + wB) := by
    have hgoodlen := length_flatMap_entries fun e he =>
      have ⟨hea, heb, _⟩ := hgood e he
      ⟨hea, heb⟩
    rw [show good.length + (m + 1) - good.length - 1 = m by omega] at hrest
    simp only [List.length_append, hgoodlen, ha, hb, hrest]
    ring
  rw [hbuffer, decodeList_beBytes_append hn hlen]
  refine ⟨fun h => ?_, fun x hx h => ?_⟩
  · exact decodeEntries_flatMap_append_error (decodeEntries_first_error ha h m _) good hgood
  · exact decodeEntries_flatMap_append_error (decodeEntries_second_error ha hb hx h m rest) good hgood

end

/-- Settles O59: one list decoder serves the three lists, so each clause is one lemma at three pairs of kinds. -/
theorem listCodec : Obligations.ListCodec := by
  refine ⟨fun l hl => ?_, fun l hl => ?_, fun l hl => ?_, ⟨?_, ?_, ?_⟩, fun b => ⟨?_, ?_, ?_⟩⟩
  · exact (decodeList_ok_iff isCodec_g1 isCodec_fr _ l).2 ⟨hl, rfl⟩
  · exact (decodeList_ok_iff isCodec_g2 isCodec_fr _ l).2 ⟨hl, rfl⟩
  · exact (decodeG1G2List_ok_iff _ l).2 ⟨hl, rfl⟩
  · exact firstFailureDecides_decodeList
  · exact firstFailureDecides_decodeList
  · exact firstFailureDecides_decodeList
  · exact decodeList_invalidLength (wA := 97) (wB := 32)
  · exact decodeList_invalidLength (wA := 193) (wB := 32)
  · exact decodeList_invalidLength (wA := 97) (wB := 193)

end Sys2Proof.Machine
end

section
/-! The round trip of values, and what a decoder rejects (rules R130, R133 to R135, R142, R144). -/

namespace Sys2Proof.Machine

/-- Settles O56: the direction of the three codecs that `codecCanonical` leaves. -/
theorem codecRoundTrip : Obligations.CodecRoundTrip :=
  ⟨fun a ha => (isCodec_fr.ok_iff _ a).2 ⟨ha, rfl⟩, fun P hP => (isCodec_g1.ok_iff _ P).2 ⟨hP, rfl⟩,
    fun Q hQ => (isCodec_g2.ok_iff _ Q).2 ⟨hQ, rfl⟩⟩

/-! ### The failures of a point decoder, for G1 and G2 alike -/

/-- The tests of rules R134 and R135 in their order: the point `A` of the body passes, or the first failure decides. -/
def pointTests {F : Type} (w : Nat) (outside nonzero : Prop) [Decidable outside] [Decidable nonzero] (curve sub : Bool)
    (A : Point F) (b : Bytes) : Except ErrorKind (Point F) :=
  if b.length ≠ w then .error .invalidLength
  else if outside then .error .outOfRange
  else if flagByte b = 1 then if nonzero then .error .notOnCurve else .ok .infinity
  else if flagByte b ≠ 0 then .error .notOnCurve
  else if curve = false then .error .notOnCurve
  else if sub = false then .error .notInSubgroup
  else .ok A

section
variable {F : Type} {w : Nat} {outside nonzero : Prop} [Decidable outside] [Decidable nonzero] {curve sub : Bool}
  {A : Point F} {b : Bytes}

theorem pointTests_invalidLength (hlen : b.length ≠ w) :
    pointTests w outside nonzero curve sub A b = .error .invalidLength := if_pos hlen

theorem pointTests_outOfRange (hlen : b.length = w) (hout : outside) :
    pointTests w outside nonzero curve sub A b = .error .outOfRange :=
  (if_neg (not_not.2 hlen)).trans (if_pos hout)

/-- Rule R109: a flag that is neither of the two, or the identity's flag before a body that is not zero. -/
theorem pointTests_badFlag (hlen : b.length = w) (hin : ¬ outside) (hflag : flagByte b ≠ 0)
    (hbad : flagByte b ≠ 1 ∨ nonzero) : pointTests w outside nonzero curve sub A b = .error .notOnCurve := by
  rw [pointTests, if_neg (not_not.2 hlen), if_neg hin]
  by_cases hone : flagByte b = 1
  · rw [if_pos hone, if_pos (hbad.resolve_left (not_not.2 hone))]
  · rw [if_neg hone, if_pos hflag]

theorem pointTests_notOnCurve (hlen : b.length = w) (hin : ¬ outside) (hflag : flagByte b = 0) (hcurve : curve = false) :
    pointTests w outside nonzero curve sub A b = .error .notOnCurve := by
  simp [pointTests, hlen, hin, hflag, hcurve]

theorem pointTests_notInSubgroup (hlen : b.length = w) (hin : ¬ outside) (hflag : flagByte b = 0)
    (hcurve : curve = true) (hsub : sub = false) :
    pointTests w outside nonzero curve sub A b = .error .notInSubgroup := by
  simp [pointTests, hlen, hin, hflag, hcurve, hsub]

end

theorem decodeG1_eq_pointTests {b : Bytes} {x y : Nat} (hx : beNat (sliceBytes b 1 49) = x)
    (hy : beNat (sliceBytes b 49 97) = y) : decodeG1 curveTables b = pointTests 97 (Config.p ≤ x ∨ Config.p ≤ y)
      (x ≠ 0 ∨ y ≠ 0) (onCurve (fqOps Config.p) Config.bG1 (.affine x y)) (inG1 curveTables (.affine x y))
      (.affine x y) b := by
  subst hx hy
  rfl

theorem decodeG2_eq_pointTests {b : Bytes} {x y : Fq2} (hx0 : beNat (sliceBytes b 1 49) = x.c0)
    (hx1 : beNat (sliceBytes b 49 97) = x.c1) (hy0 : beNat (sliceBytes b 97 145) = y.c0)
    (hy1 : beNat (sliceBytes b 145 193) = y.c1) : decodeG2 curveTables b = pointTests 193
      (Config.p ≤ x.c0 ∨ Config.p ≤ x.c1 ∨ Config.p ≤ y.c0 ∨ Config.p ≤ y.c1)
      (x.c0 ≠ 0 ∨ x.c1 ≠ 0 ∨ y.c0 ≠ 0 ∨ y.c1 ≠ 0) (onCurve (fq2Ops Config.p) ⟨0, Config.bTwistC1⟩ (.affine x y))
      (inG2 curveTables (.affine x y)) (.affine x y) b := by
  obtain ⟨x0, x1⟩ := x
  obtain ⟨y0, y1⟩ := y
  subst hx0 hx1 hy0 hy1
  rfl

/-! ### The curve equation and the subgroup test -/

/-- The equation of E (rule R171), its products reduced once. -/
theorem onCurve_fqOps_iff (x y : Nat) : onCurve (fqOps Config.p) Config.bG1 (.affine x y) = true ↔
    y * y % Config.p = (x * x * x + 1) % Config.p := by
  have hrhs : addMod Config.p (mulMod Config.p (mulMod Config.p x x) x) Config.bG1 = (x * x * x + 1) % Config.p := by
    simp only [addMod, mulMod, Config.bG1, Nat.mod_mul_mod, Nat.mod_add_mod]
  rw [← hrhs]
  exact decide_eq_true_iff

/-- The walk of rule R139 decides the multiple of rule R177. -/
theorem inG1_eq_false {P : Point Nat} (hP : onE P = true) (h : g1Times P Config.r ≠ .infinity) :
    inG1 curveTables P = false := by
  obtain ⟨A, _, φ, hφ⟩ := exists_groupHom_g1
  exact decide_eq_false fun h0 => h ((hφ.smul_eq_foldMul hP r_lt).symm.trans h0)

theorem inG2_eq_false {Q : Point Fq2} (hQ : onTwist Q = true) (h : g2Times Q Config.r ≠ .infinity) :
    inG2 curveTables Q = false := by
  obtain ⟨A, _, φ, hφ⟩ := exists_groupHom_g2
  exact decide_eq_false fun h0 => h ((hφ.smul_eq_foldMul hQ r_lt).symm.trans h0)

/-! ### What `decode` answers on the encoding of a pair of coordinates -/

section
variable {x y : Nat} (hx : x < Config.p) (hy : y < Config.p)
include hx hy

theorem onE_affine : onE (.affine x y) = onCurve (fqOps Config.p) Config.bG1 (.affine x y) := by
  rw [Bool.eq_iff_iff, onE_iff, and_iff_left]
  rintro _ _ ⟨⟩
  exact ⟨hx, hy⟩

/-- The encoding of reduced coordinates passes the tests of length, range and flag. -/
theorem encodeG1_affine_fields : flagByte (encodeG1 (.affine x y)) = 0 ∧
    beNat (sliceBytes (encodeG1 (.affine x y)) 1 49) = x ∧ beNat (sliceBytes (encodeG1 (.affine x y)) 49 97) = y :=
  ((g1Bytes_eq_iff (hx.trans p_lt) (hy.trans p_lt) _).1 rfl).2

theorem decodeG1_notOnCurve (h : y * y % Config.p ≠ (x * x * x + 1) % Config.p) :
    decodeG1 curveTables (encodeG1 (.affine x y)) = .error .notOnCurve := by
  obtain ⟨hflag, hx', hy'⟩ := encodeG1_affine_fields hx hy
  rw [decodeG1_eq_pointTests hx' hy']
  exact pointTests_notOnCurve (length_encodeG1 _) (by omega) hflag (Bool.eq_false_iff.2 (mt (onCurve_fqOps_iff x y).1 h))

theorem decodeG1_notInSubgroup (h : y * y % Config.p = (x * x * x + 1) % Config.p)
    (hr : g1Times (.affine x y) Config.r ≠ .infinity) :
    decodeG1 curveTables (encodeG1 (.affine x y)) = .error .notInSubgroup := by
  obtain ⟨hflag, hx', hy'⟩ := encodeG1_affine_fields hx hy
  have hcurve := (onCurve_fqOps_iff x y).2 h
  rw [decodeG1_eq_pointTests hx' hy']
  exact pointTests_notInSubgroup (length_encodeG1 _) (by omega) hflag hcurve
    (inG1_eq_false ((onE_affine hx hy).trans hcurve) hr)

end

section
variable {x y : Fq2} (hx0 : x.c0 < Config.p) (hx1 : x.c1 < Config.p) (hy0 : y.c0 < Config.p) (hy1 : y.c1 < Config.p)
include hx0 hx1 hy0 hy1

theorem onTwist_affine : onTwist (.affine x y) = onCurve (fq2Ops Config.p) ⟨0, Config.bTwistC1⟩ (.affine x y) := by
  rw [Bool.eq_iff_iff, onTwist_iff, and_iff_left]
  rintro _ _ ⟨⟩
  exact ⟨⟨hx0, hx1⟩, hy0, hy1⟩

theorem encodeG2_affine_fields : flagByte (encodeG2 (.affine x y)) = 0 ∧
    (beNat (sliceBytes (encodeG2 (.affine x y)) 1 49) = x.c0 ∧ beNat (sliceBytes (encodeG2 (.affine x y)) 49 97) = x.c1) ∧
    beNat (sliceBytes (encodeG2 (.affine x y)) 97 145) = y.c0 ∧
    beNat (sliceBytes (encodeG2 (.affine x y)) 145 193) = y.c1 :=
  ((g2Bytes_eq_iff (hx0.trans p_lt) (hx1.trans p_lt) (hy0.trans p_lt) (hy1.trans p_lt) _).1 rfl).2

theorem decodeG2_notOnCurve (h : onTwist (.affine x y) = false) :
    decodeG2 curveTables (encodeG2 (.affine x y)) = .error .notOnCurve := by
  obtain ⟨hflag, ⟨hx0', hx1'⟩, hy0', hy1'⟩ := encodeG2_affine_fields hx0 hx1 hy0 hy1
  rw [decodeG2_eq_pointTests hx0' hx1' hy0' hy1']
  exact pointTests_notOnCurve (length_encodeG2 _) (by omega) hflag ((onTwist_affine hx0 hx1 hy0 hy1).symm.trans h)

theorem decodeG2_notInSubgroup (h : onTwist (.affine x y) = true)
    (hr : g2Times (.affine x y) Config.r ≠ .infinity) :
    decodeG2 curveTables (encodeG2 (.affine x y)) = .error .notInSubgroup := by
  obtain ⟨hflag, ⟨hx0', hx1'⟩, hy0', hy1'⟩ := encodeG2_affine_fields hx0 hx1 hy0 hy1
  rw [decodeG2_eq_pointTests hx0' hx1' hy0' hy1']
  exact pointTests_notInSubgroup (length_encodeG2 _) (by omega) hflag
    ((onTwist_affine hx0 hx1 hy0 hy1).symm.trans h) (inG2_eq_false h hr)

end

/-- Settles O58: each clause is one test of the decoder, the tests before it passed. -/
theorem decodeRejects : Obligations.DecodeRejects := by
  refine ⟨fun b => ⟨fun hlen => if_pos hlen, fun hlen => ?_, fun hlen => ?_, fun hlen hr => ?_⟩,
    fun b hlen x y hx hy => ?_, fun b hlen x0 x1 y0 y1 hx0 hx1 hy0 hy1 => ?_,
    fun x y hx hy => ⟨decodeG1_notOnCurve hx hy, decodeG1_notInSubgroup hx hy⟩,
    fun x y hx0 hx1 hy0 hy1 => ⟨decodeG2_notOnCurve hx0 hx1 hy0 hy1, decodeG2_notInSubgroup hx0 hx1 hy0 hy1⟩⟩
  · exact (decodeG1_eq_pointTests rfl rfl).trans (pointTests_invalidLength hlen)
  · exact (decodeG2_eq_pointTests (x := ⟨_, _⟩) (y := ⟨_, _⟩) rfl rfl rfl rfl).trans (pointTests_invalidLength hlen)
  · exact (if_neg (not_not.2 hlen)).trans (if_pos hr)
  · rw [decodeG1_eq_pointTests hx.symm hy.symm]
    exact ⟨pointTests_outOfRange hlen, fun hxp hyp => pointTests_badFlag hlen (by omega)⟩
  · rw [decodeG2_eq_pointTests (x := ⟨x0, x1⟩) (y := ⟨y0, y1⟩) hx0.symm hx1.symm hy0.symm hy1.symm]
    exact ⟨pointTests_outOfRange hlen, fun hx0p hx1p hy0p hy1p => pointTests_badFlag hlen (by dsimp only; omega)⟩

end Sys2Proof.Machine
end

section
/-! Commands without a source and with one (rule R292 steps 7 to 9), beside those with two: a ready call is its engine on
the source it has, and completes when that source decodes and the command's function has a value there. -/

namespace Sys2Proof.Machine

/-- In a state of the invariant a call that does not pass steps 3 to 5 fails closed. -/
theorem exec_of_not_ready {i : Instr} (hi : i ≠ .init) {s : State} {pt : Port} (hp : s.ports[s.callPort]? = some pt)
    (hs : Invariant s) (h : ¬ Ready i s pt) : exec i s = .next (afterFailure s) := by
  obtain ⟨-, -, htab, -⟩ := hs
  obtain ⟨k, hk⟩ := commandResult_of_not_ready hp htab h
  exact exec_of_error hi hp hk

/-- A command without a source: it completes in every ready state. -/
theorem exec_zero_of_ready {i : Instr} {γ : Type} {enc : γ → Bytes} {f : Tables → γ} (hi : i ≠ .init)
    (hengine : engineOf i = engine0 enc f) {s : State} {pt : Port} (hp : s.ports[s.callPort]? = some pt)
    (h : Ready i s pt) : exec i s = .next (afterSuccess s pt (enc (f curveTables))) := by
  refine exec_of_ok hi hp ?_
  rw [commandResult_of_ready h, hengine]
  rfl

/-! ### One source -/

/-- The source decodes: the engine computes and encodes. -/
theorem engine1_of_ok {α γ : Type} {dec : Tables → Bytes → Except ErrorKind α} {enc : γ → Bytes}
    {f : Tables → α → Except ErrorKind γ} (T : Tables) {b0 : Bytes} (b1 : Bytes) {a : α}
    (h : dec curveTables b0 = .ok a) : engine1 dec enc f (some T) b0 b1 = (f T a).map enc := by
  simp only [engine1, h, computeResult_some]

/-- A source that does not decode decides the kind. -/
theorem engine1_source_error {α γ : Type} {dec : Tables → Bytes → Except ErrorKind α} {enc : γ → Bytes}
    {f : Tables → α → Except ErrorKind γ} {tables : Option Tables} {b0 : Bytes} (b1 : Bytes) {k : ErrorKind}
    (h : dec curveTables b0 = .error k) : engine1 dec enc f tables b0 b1 = .error k := by
  simp only [engine1, h]

section
variable {i : Instr} {α γ : Type} {dec : Tables → Bytes → Except ErrorKind α} {encA : α → Bytes} {valid : α → Bool}
  {enc : γ → Bytes} {f : Tables → α → Except ErrorKind γ}
  (hengine : engineOf i = engine1 dec enc f) (h0 : slotUsed (operandsOf i).s0 = true)
  {s : State} {pt : Port}
include hengine h0

/-- The result of a ready command with one source is its engine on the source buffer, whatever slot S1 holds. -/
theorem commandResult_of_ready_one (h : Ready i s pt) :
    commandResult i s pt = engine1 dec enc f (some curveTables) (source0 s pt) [] := by
  rw [commandResult_of_ready h, hengine, sourceBytes, if_pos h0]
  rfl

variable (hA : ∀ b a, dec curveTables b = .ok a ↔ valid a = true ∧ encA a = b)
include hA

/-- On a valid source the command's function decides, be it a value or a kind. -/
theorem commandResult_one_of_valid {a : α} (hready : Ready i s pt) (ha : valid a = true) (hs0 : source0 s pt = encA a) :
    commandResult i s pt = (f curveTables a).map enc := by
  rw [commandResult_of_ready_one hengine h0 hready]
  exact engine1_of_ok curveTables [] ((hA _ _).2 ⟨ha, hs0.symm⟩)

variable (hi : i ≠ .init) (hp : s.ports[s.callPort]? = some pt)
include hi hp

/-- A ready command completes on a valid source where its function has a value. -/
theorem exec_one_of_valid {a : α} {v : γ} (hready : Ready i s pt) (ha : valid a = true) (hs0 : source0 s pt = encA a)
    (hv : f curveTables a = .ok v) : exec i s = .next (afterSuccess s pt (enc v)) := by
  refine exec_of_ok hi hp ?_
  rw [commandResult_one_of_valid hengine h0 hA hready ha hs0, hv]
  rfl

/-- In every other state of the invariant it fails: the source does not decode, or the function has no value there. -/
theorem exec_one_of_not_valid (hs : Invariant s)
    (h : ∀ a v, valid a = true → f curveTables a = .ok v → source0 s pt = encA a → ¬ Ready i s pt) :
    exec i s = .next (afterFailure s) := by
  by_cases hready : Ready i s pt
  · cases hdec : dec curveTables (source0 s pt) with
    | error k =>
      exact exec_of_error hi hp ((commandResult_of_ready_one hengine h0 hready).trans (engine1_source_error [] hdec))
    | ok a =>
      obtain ⟨hva, hea⟩ := (hA _ _).1 hdec
      cases hf : f curveTables a with
      | error k =>
        refine exec_of_error hi hp (k := k) ?_
        rw [commandResult_one_of_valid hengine h0 hA hready hva hea.symm, hf]
        rfl
      | ok v => exact absurd hready (h a v hva hf hea.symm)
  · exact exec_of_not_ready hi hp hs hready

end

end Sys2Proof.Machine
end

section
/-! The commands of the scalar field (rules R154 to R159). -/

namespace Sys2Proof.Machine

theorem isFr_iff (a : Nat) : isFr a = true ↔ a < Config.r := decide_eq_true_iff

/-! ### Two sources -/

/-- A command on two Fr values whose function is `g` on residues writes the encoding of `g a b`, and fails closed on
everything that is not two Fr values. -/
theorem exec_fr_binary {i : Instr} {f : Tables → Nat → Nat → Nat} {g : Nat → Nat → Nat} (hi : i ≠ .init)
    (hops : operandsOf i = ⟨.fixed .fr, .fixed .fr, .fixed .fr⟩)
    (hengine : engineOf i = engine2 decodeFr decodeFr encodeFr fun T a b => .ok (f T a b))
    (hfun : ∀ {a b}, a < Config.r → b < Config.r → f curveTables a b = g a b)
    (s : State) (pt : Port) (hs : Invariant s) (hp : s.ports[s.callPort]? = some pt) :
    (∀ a b, Ready i s pt → isFr a = true → isFr b = true → source0 s pt = encodeFr a → source1 s pt = encodeFr b →
      exec i s = .next (afterSuccess s pt (encodeFr (g a b)))) ∧
    ((∀ a b, isFr a = true → isFr b = true → source0 s pt = encodeFr a → source1 s pt = encodeFr b →
        ¬ Ready i s pt) →
      exec i s = .next (afterFailure s)) := by
  have h0 : slotUsed (operandsOf i).s0 = true := by rw [hops]; rfl
  have h1 : slotUsed (operandsOf i).s1 = true := by rw [hops]; rfl
  refine ⟨fun a b hready ha hb hs0 hs1 => ?_, fun h => ?_⟩
  · rw [← hfun ((isFr_iff a).1 ha) ((isFr_iff b).1 hb)]
    exact exec_two_of_valid hi hengine h0 h1 isCodec_fr.ok_iff isCodec_fr.ok_iff hp hready ha hb hs0 hs1
  · exact exec_two_of_not_valid hi hengine h0 h1 isCodec_fr.ok_iff isCodec_fr.ok_iff hp hs h

/-- Settles O26: `addMod` is the sum reduced once. -/
theorem frAddResult : Obligations.FrAddResult :=
  exec_fr_binary (f := fun T => addMod T.r) (g := fun a b => (a + b) % Config.r) nofun rfl rfl fun _ _ => rfl

/-- Settles O27: `subMod` of residues is the two cases of rule R156. -/
theorem frSubResult : Obligations.FrSubResult :=
  exec_fr_binary (f := fun T => subMod T.r) (g := fun a b => if b ≤ a then a - b else a + Config.r - b) nofun rfl rfl
    subMod_of_lt

/-- Settles O28: `mulMod` is the product reduced once. -/
theorem frMulResult : Obligations.FrMulResult :=
  exec_fr_binary (f := fun T => mulMod T.r) (g := fun a b => a * b % Config.r) nofun rfl rfl fun _ _ => rfl

/-! ### No source and one source -/

/-- Rules R136, R154: 31 zero bytes and 0x01. -/
theorem encodeFr_one : encodeFr 1 = List.replicate 31 0#8 ++ [1#8] := by decide

/-- Settles O25: FR_ONE has nothing to decode, so only the call algorithm can fail. -/
theorem frOneResult : Obligations.FrOneResult := by
  intro s pt hs hp
  refine ⟨fun hready => ?_, exec_of_not_ready (i := .frOne) nofun hp hs⟩
  rw [← encodeFr_one]
  exact exec_zero_of_ready (i := .frOne) (f := fun _ => 1) nofun rfl hp hready

/-- Settles O30: `negMod` of a residue is the two cases of rule R159. -/
theorem frNegResult : Obligations.FrNegResult := by
  intro s pt hs hp
  refine ⟨fun a hready ha hs0 => ?_, fun h => ?_⟩
  · exact exec_one_of_valid (i := .frNeg) rfl rfl isCodec_fr.ok_iff nofun hp hready ha hs0
      (congrArg Except.ok (negMod_of_lt ((isFr_iff a).1 ha)))
  · exact exec_one_of_not_valid (i := .frNeg) rfl rfl isCodec_fr.ok_iff nofun hp hs fun a _ ha _ => h a ha

/-! ### The inverse -/

/-- A residue has at most one inverse. -/
theorem inverse_unique {m a b c : Nat} (hb : b < m) (hc : c < m) (hab : a * b % m = 1) (hac : a * c % m = 1) : c = b := by
  have hcast : ∀ {x}, a * x % m = 1 → (a : ZMod m) * x = 1 := fun h => by
    rw [← Nat.cast_mul, ← ZMod.natCast_mod, h, Nat.cast_one]
  exact eq_of_cast_eq hc hb (left_inv_eq_right_inv ((mul_comm _ _).trans (hcast hac)) (hcast hab))

/-- FR_INV's function (rule R158). -/
def frInverse (T : Tables) (a : Nat) : Except ErrorKind Nat :=
  if a = 0 then .error .notInvertible else .ok (invMod T.r a)

theorem frInvEngine_eq : engineOf .frInv = engine1 decodeFr encodeFr frInverse := rfl

theorem frInverse_of_ne_zero {a : Nat} (h : a ≠ 0) : frInverse curveTables a = .ok (invMod Config.r a) := if_neg h

/-- Zero has no value (rule R158). -/
theorem ne_zero_of_frInverse_ok {a v : Nat} (h : frInverse curveTables a = .ok v) : a ≠ 0 :=
  (ite_error_eq_ok_iff.1 h).1

/-- Settles O29: r is prime (`prime_r`), so the engine's power is an inverse, and a residue has no second one; 0 decodes
but has no value. -/
theorem frInvResult : Obligations.FrInvResult := by
  have : Fact Config.r.Prime := ⟨prime_r⟩
  intro s pt hs hp
  refine ⟨fun a hready ha hne hs0 => ?_, fun h => ?_, fun hready hs0 => ?_⟩
  · have hlt := invMod_lt r_pos a
    have hinv := mul_invMod_mod two_lt_r ((isFr_iff a).1 ha) hne
    have hpos : invMod Config.r a ≠ 0 := fun h => by simp [h] at hinv
    exact ⟨invMod Config.r a, Nat.pos_of_ne_zero hpos, hlt, hinv, fun c hc => inverse_unique hlt hc hinv,
      exec_one_of_valid frInvEngine_eq rfl isCodec_fr.ok_iff nofun hp hready ha hs0 (frInverse_of_ne_zero hne)⟩
  · exact exec_one_of_not_valid frInvEngine_eq rfl isCodec_fr.ok_iff nofun hp hs fun a _ ha hv =>
      h a ha (ne_zero_of_frInverse_ok hv)
  · exact commandResult_one_of_valid frInvEngine_eq rfl isCodec_fr.ok_iff hready ((isFr_iff 0).2 r_pos) hs0

end Sys2Proof.Machine
end

section
/-! The commands G1_ONE, G1_ADD and G1_NEG (rules R181 to R183): the call algorithm over the codec of G1. -/

namespace Sys2Proof.Machine

/-- Settles O31: G1_ONE has nothing to decode, so only the call algorithm can fail. -/
theorem g1OneResult : Obligations.G1OneResult := fun _ _ hs hp =>
  ⟨exec_zero_of_ready (i := .g1One) (f := fun T => T.genG1) nofun rfl hp, exec_of_not_ready (i := .g1One) nofun hp hs⟩

/-- Settles O32: both sources are points of G1 and the function is the addition of rule R176. -/
theorem g1AddResult : Obligations.G1AddResult := by
  intro s pt hs hp
  refine ⟨fun a b hready ha hb hs0 hs1 => ?_, fun h => ?_⟩
  · exact exec_two_of_valid (i := .g1Add) nofun rfl rfl rfl isCodec_g1.ok_iff isCodec_g1.ok_iff hp hready ha hb hs0 hs1
  · exact exec_two_of_not_valid (i := .g1Add) (f := g1Add) nofun rfl rfl rfl isCodec_g1.ok_iff isCodec_g1.ok_iff hp hs h

/-- On reduced coordinates the engine's negation is that of rule R173. -/
theorem pointNeg_eq_g1Minus {P : Point Nat} (hP : onE P = true) : pointNeg (fqOps Config.p) P = g1Minus P := by
  obtain ⟨-, hred⟩ := (onE_iff P).1 hP
  cases P with
  | infinity => rfl
  | affine x y =>
    obtain ⟨-, hy⟩ := hred x y rfl
    show Point.affine x ((Config.p - y % Config.p) % Config.p) = .affine x ((Config.p - y) % Config.p)
    rw [Nat.mod_eq_of_lt hy]

theorem onE_of_isG1 {P : Point Nat} (h : isG1 P = true) : onE P = true := (Bool.and_eq_true_iff.1 h).1

/-- Settles O33: the source is a point of G1, so its coordinates are reduced and the engine negates by rule R173. -/
theorem g1NegResult : Obligations.G1NegResult := by
  intro s pt hs hp
  refine ⟨fun a hready ha hs0 => ?_, fun h => ?_⟩
  · exact exec_one_of_valid (i := .g1Neg) rfl rfl isCodec_g1.ok_iff nofun hp hready ha hs0
      (congrArg Except.ok (pointNeg_eq_g1Minus (onE_of_isG1 ha)))
  · exact exec_one_of_not_valid (i := .g1Neg) rfl rfl isCodec_g1.ok_iff nofun hp hs fun a _ ha _ => h a ha

end Sys2Proof.Machine
end

section
/-! The addition law of rule R176, equation by equation: over any field that a record of operations models, a finite sum is
the point of a slope, and that slope is the tangent's or the chord's. -/

namespace Sys2Proof.Machine

/-! ### The point of a slope, and the two slopes -/

section
variable {F K : Type} [Field K] {O : FieldOps F} {M : FieldModel O K} {b x1 y1 x2 y2 : F}

/-- The point of a slope has reduced coordinates and satisfies the two equations of rule R176. -/
theorem FieldModel.pointOfSlope_equations (lam : F) {x3 y3 : F} (h : pointOfSlope O lam x1 y1 x2 = (x3, y3)) :
    M.reduced x3 ∧ M.reduced y3 ∧ M.val x3 + M.val x1 + M.val x2 = M.val lam * M.val lam ∧
      M.val y3 + M.val y1 + M.val lam * M.val x3 = M.val lam * M.val x1 := by
  obtain ⟨rfl, rfl⟩ := Prod.mk.inj h
  refine ⟨M.reduced_sub _ _, M.reduced_sub _ _, ?_, ?_⟩
  · simp only [M.val_sub, M.val_mul]; ring
  · simp only [M.val_sub, M.val_mul]; ring

theorem FieldModel.val_slopeTangent (h : 2 * M.val y1 ≠ 0) :
    M.val (slopeTangent O x1 y1) * (2 * M.val y1) = 3 * (M.val x1 * M.val x1) := by
  simp only [slopeTangent, M.val_mul, M.val_small, M.val_inv, Nat.cast_ofNat]
  exact inv_mul_cancel_right₀ h _

theorem FieldModel.val_slopeChord (h : M.val x1 ≠ M.val x2) :
    M.val (slopeChord O x1 y1 x2 y2) * M.val x2 + M.val y1 =
      M.val (slopeChord O x1 y1 x2 y2) * M.val x1 + M.val y2 := by
  have hslope : M.val (slopeChord O x1 y1 x2 y2) * (M.val x2 - M.val x1) = M.val y2 - M.val y1 := by
    simp only [slopeChord, M.val_mul, M.val_sub, M.val_inv]
    exact inv_mul_cancel_right₀ (sub_ne_zero.2 h.symm) _
  linear_combination hslope

variable [DecidableEq F]

/-! ### The cases of `pointAdd` -/

theorem pointAdd_infinity (P : Point F) : pointAdd O P .infinity = P := by
  cases P with
  | infinity => rfl
  | affine x y => rfl

theorem pointAdd_opposite (h : O.add y1 y2 = O.zero) : pointAdd O (.affine x1 y1) (.affine x1 y2) = .infinity := by
  rw [pointAdd, if_pos rfl, if_pos h]

theorem pointAdd_tangent (h : O.add y1 y2 ≠ O.zero) {x3 y3 : F}
    (ht : pointOfSlope O (slopeTangent O x1 y1) x1 y1 x1 = (x3, y3)) :
    pointAdd O (.affine x1 y1) (.affine x1 y2) = .affine x3 y3 := by
  rw [pointAdd, if_pos rfl, if_neg h, ht]

theorem pointAdd_chord (h : x1 ≠ x2) {x3 y3 : F}
    (ht : pointOfSlope O (slopeChord O x1 y1 x2 y2) x1 y1 x2 = (x3, y3)) :
    pointAdd O (.affine x1 y1) (.affine x2 y2) = .affine x3 y3 := by
  rw [pointAdd, if_neg h, ht]

/-! ### The slope of a sum -/

/-- Two points of the curve over one abscissa are equal or opposite. -/
theorem FieldModel.val_eq_of_not_opposite (h1 : M.Valid b (.affine x1 y1)) (h2 : M.Valid b (.affine x1 y2))
    (h : M.val y1 + M.val y2 ≠ 0) : M.val y1 = M.val y2 := by
  obtain ⟨-, -, he1⟩ := M.valid_affine.1 h1
  obtain ⟨-, -, he2⟩ := M.valid_affine.1 h2
  have hsq : (M.val y1 - M.val y2) * (M.val y1 + M.val y2) = 0 := by linear_combination he1 - he2
  exact sub_eq_zero.1 ((mul_eq_zero.1 hsq).resolve_right h)

/-- Rule R176 in the field: a sum of affine points that are not opposite, with its slope. -/
theorem FieldModel.exists_slope_pointAdd (h1 : M.Valid b (.affine x1 y1)) (h2 : M.Valid b (.affine x2 y2))
    (h : ¬ (x1 = x2 ∧ O.add y1 y2 = O.zero)) :
    ∃ lam x3 y3, pointAdd O (.affine x1 y1) (.affine x2 y2) = .affine x3 y3 ∧
      pointOfSlope O lam x1 y1 x2 = (x3, y3) ∧
      (x1 = x2 → y1 = y2 ∧ M.val lam * (2 * M.val y1) = 3 * (M.val x1 * M.val x1)) ∧
      (x1 ≠ x2 → M.val lam * M.val x2 + M.val y1 = M.val lam * M.val x1 + M.val y2) := by
  obtain ⟨hx1, hy1, -⟩ := M.valid_affine.1 h1
  obtain ⟨hx2, hy2, -⟩ := M.valid_affine.1 h2
  by_cases hx : x1 = x2
  · subst hx
    have hne : O.add y1 y2 ≠ O.zero := fun hy => h ⟨rfl, hy⟩
    have hsum : M.val y1 + M.val y2 ≠ 0 := fun h0 =>
      hne (M.inj (M.reduced_add _ _) M.reduced_zero (by rw [M.val_add, M.val_zero, h0]))
    obtain rfl : y1 = y2 := M.inj hy1 hy2 (FieldModel.val_eq_of_not_opposite h1 h2 hsum)
    exact ⟨slopeTangent O x1 y1, _, _, pointAdd_tangent hne rfl, rfl,
      fun _ => ⟨rfl, FieldModel.val_slopeTangent (two_mul (M.val y1) ▸ hsum)⟩, absurd rfl⟩
  · exact ⟨slopeChord O x1 y1 x2 y2, _, _, pointAdd_chord hx rfl, rfl, fun h0 => absurd h0 hx,
      fun _ => FieldModel.val_slopeChord fun h0 => hx (M.inj hx1 hx2 h0)⟩

end

/-! ### The two curves -/

/-- Settles O46: the equations of `ZMod p`, read as congruences. -/
theorem chordTangentG1 : Obligations.ChordTangentG1 := by
  have := fact_p
  have cong : ∀ {a b : Nat}, (a : ZMod Config.p) = b → a % Config.p = b % Config.p := fun h =>
    (ZMod.natCast_eq_natCast_iff' _ _ _).1 h
  intro P Q hP hQ
  refine ⟨?_, ?_, ?_⟩
  · rintro rfl; rfl
  · rintro rfl; exact pointAdd_infinity P
  · rintro x1 y1 x2 y2 rfl rfl
    refine ⟨?_, fun h => ?_⟩
    · rintro ⟨rfl, hy⟩; exact pointAdd_opposite hy
    · obtain ⟨lam, x3, y3, hsum, hpoint, htangent, hchord⟩ :=
        FieldModel.exists_slope_pointAdd (M := fqModel two_lt_p) ((onE_iff _).1 hP) ((onE_iff _).1 hQ) h
      obtain ⟨hx3, hy3, hex, hey⟩ := FieldModel.pointOfSlope_equations (M := fqModel two_lt_p) lam hpoint
      refine ⟨lam, x3, y3, hx3, hy3, hsum, fun hx => ?_, fun hx => cong ?_, cong ?_, cong ?_⟩
      · obtain ⟨hy, hslope⟩ := htangent hx
        exact ⟨hy, cong (by push_cast; exact hslope)⟩
      · push_cast; exact hchord hx
      · push_cast; exact hex
      · push_cast; exact hey

theorem fq2Add_reduced (a b : Fq2) : (fq2Add Config.p a b).c0 < Config.p ∧ (fq2Add Config.p a b).c1 < Config.p :=
  ⟨addMod_lt p_pos _ _, addMod_lt p_pos _ _⟩

theorem fq2Mul_reduced (a b : Fq2) : (fq2Mul Config.p a b).c0 < Config.p ∧ (fq2Mul Config.p a b).c1 < Config.p :=
  ⟨subMod_lt p_pos _ _, addMod_lt p_pos _ _⟩

theorem fq2Val_three : fq2Val Config.p ⟨3, 0⟩ = 3 := by
  ext
  · rw [QuadraticAlgebra.re_ofNat]; exact Nat.cast_ofNat
  · rw [QuadraticAlgebra.im_ofNat]; exact Nat.cast_zero

/-- Settles O47: the equations of `Fq2K p`, each side reduced. -/
theorem chordTangentG2 : Obligations.ChordTangentG2 := by
  have := fact_p
  have := fact_nonresidue
  intro P Q hP hQ
  refine ⟨?_, ?_, ?_⟩
  · rintro rfl; rfl
  · rintro rfl; exact pointAdd_infinity P
  · rintro x1 y1 x2 y2 rfl rfl
    refine ⟨?_, fun h => ?_⟩
    · rintro ⟨rfl, hy⟩; exact pointAdd_opposite hy
    · obtain ⟨lam, x3, y3, hsum, hpoint, htangent, hchord⟩ :=
        FieldModel.exists_slope_pointAdd (M := fq2Model two_lt_p) ((onTwist_iff _).1 hP) ((onTwist_iff _).1 hQ) h
      obtain ⟨⟨hx30, hx31⟩, ⟨hy30, hy31⟩, hex, hey⟩ :=
        FieldModel.pointOfSlope_equations (M := fq2Model two_lt_p) lam hpoint
      refine ⟨lam, x3, y3, hx30, hx31, hy30, hy31, hsum, fun hx => ?_, fun hx => ?_, ?_, ?_⟩
      · obtain ⟨hy, hslope⟩ := htangent hx
        refine ⟨hy, fq2Val_injective (fq2Mul_reduced _ _) (fq2Mul_reduced _ _) ?_⟩
        rw [fq2Val_mul, fq2Val_mul, fq2Val_mul, fq2Val_add, fq2Val_three, ← two_mul]
        exact hslope
      · refine fq2Val_injective (fq2Add_reduced _ _) (fq2Add_reduced _ _) ?_
        rw [fq2Val_add, fq2Val_add, fq2Val_mul, fq2Val_mul]
        exact hchord hx
      · refine fq2Val_injective (fq2Add_reduced _ _) (fq2Mul_reduced _ _) ?_
        rw [fq2Val_add, fq2Val_add, fq2Val_mul]
        exact hex
      · refine fq2Val_injective (fq2Add_reduced _ _) (fq2Mul_reduced _ _) ?_
        rw [fq2Val_add, fq2Val_add, fq2Val_mul, fq2Val_mul]
        exact hey

end Sys2Proof.Machine
end

section
/-! The groups G1 and G2 (rules R177 to R179, R207, R238): each is closed under the model's addition and negation and embeds
in an abelian group that r annihilates, so every law is one of that group. -/

namespace Sys2Proof.Machine

section
variable {G A : Type} [AddCommGroup A] {add : G → G → G} {zero : G} {neg neg' : G → G} {V V' : G → Prop} {φ : G → A}
  (h : GroupHom add zero neg V φ) {P Q R : G}
include h

/-! ### The part that a number annihilates, and other names for the same operations -/

/-- The valid values that `r` annihilates are closed under the operations. -/
theorem GroupHom.torsion (r : Nat) : GroupHom add zero neg (fun P => V P ∧ r • φ P = 0) φ where
  zero_valid := ⟨h.zero_valid, by rw [h.map_zero, smul_zero]⟩
  map_zero := h.map_zero
  add_valid := fun ⟨hP, hrP⟩ ⟨hQ, hrQ⟩ => ⟨h.add_valid hP hQ, by rw [h.map_add hP hQ, smul_add, hrP, hrQ, add_zero]⟩
  map_add := fun ⟨hP, _⟩ ⟨hQ, _⟩ => h.map_add hP hQ
  inj := fun ⟨hP, _⟩ ⟨hQ, _⟩ => h.inj hP hQ
  neg_valid := fun ⟨hP, hrP⟩ => ⟨h.neg_valid hP, by rw [h.map_neg hP, smul_neg, hrP, neg_zero]⟩
  map_neg := fun ⟨hP, _⟩ => h.map_neg hP

theorem GroupHom.congr (hV : ∀ P, V' P ↔ V P) (hneg : ∀ P, V P → neg P = neg' P) : GroupHom add zero neg' V' φ := by
  obtain rfl : V' = V := funext fun P => propext (hV P)
  exact { h with
    neg_valid := fun hP => hneg _ hP ▸ h.neg_valid hP
    map_neg := fun hP => hneg _ hP ▸ h.map_neg hP }

/-! ### Laws of the abelian group, for valid values -/

theorem GroupHom.add_zero_eq (hP : V P) : add P zero = P :=
  h.inj (h.add_valid hP h.zero_valid) hP (by rw [h.map_add hP h.zero_valid, h.map_zero, add_zero])

theorem GroupHom.add_eq_swap (hP : V P) (hQ : V Q) : add P Q = add Q P :=
  h.inj (h.add_valid hP hQ) (h.add_valid hQ hP) (by rw [h.map_add hP hQ, h.map_add hQ hP, add_comm])

theorem GroupHom.add_neg_eq (hP : V P) : add P (neg P) = zero :=
  h.inj (h.add_valid hP (h.neg_valid hP)) h.zero_valid
    (by rw [h.map_add hP (h.neg_valid hP), h.map_neg hP, h.map_zero, add_neg_cancel])

theorem GroupHom.add_add_eq (hP : V P) (hQ : V Q) (hR : V R) : add (add P Q) R = add P (add Q R) := by
  have hPQ := h.add_valid hP hQ
  have hQR := h.add_valid hQ hR
  exact h.inj (h.add_valid hPQ hR) (h.add_valid hP hQR)
    (by rw [h.map_add hPQ hR, h.map_add hP hQ, h.map_add hP hQR, h.map_add hQ hR, add_assoc])

/-! ### Multiples -/

theorem GroupHom.foldMul_valid (hP : V P) (k : Nat) : V (foldMul add zero P k) := (h.toAddHom.map_foldMul hP k).1

theorem GroupHom.map_foldMul_eq_smul (hP : V P) (k : Nat) : φ (foldMul add zero P k) = k • φ P :=
  (h.toAddHom.map_foldMul hP k).2

theorem GroupHom.foldMul_add_point (hP : V P) (hQ : V Q) (k : Nat) :
    foldMul add zero (add P Q) k = add (foldMul add zero P k) (foldMul add zero Q k) := by
  have hkP := h.foldMul_valid hP k
  have hkQ := h.foldMul_valid hQ k
  refine h.inj (h.foldMul_valid (h.add_valid hP hQ) k) (h.add_valid hkP hkQ) ?_
  rw [h.map_foldMul_eq_smul (h.add_valid hP hQ), h.map_add hP hQ, h.map_add hkP hkQ, h.map_foldMul_eq_smul hP,
    h.map_foldMul_eq_smul hQ, smul_add]

theorem GroupHom.foldMul_neg (hP : V P) (k : Nat) : foldMul add zero (neg P) k = neg (foldMul add zero P k) := by
  have hkP := h.foldMul_valid hP k
  refine h.inj (h.foldMul_valid (h.neg_valid hP) k) (h.neg_valid hkP) ?_
  rw [h.map_foldMul_eq_smul (h.neg_valid hP), h.map_neg hP, h.map_neg hkP, h.map_foldMul_eq_smul hP, smul_neg]

variable {r : Nat} (hr : ∀ P, V P → r • φ P = 0)
include hr

/-- A scalar is reduced modulo the number that annihilates the group. -/
theorem GroupHom.map_foldMul_mod (hP : V P) (k : Nat) : φ (foldMul add zero P (k % r)) = k • φ P := by
  have hsplit : k • φ P = (k % r) • φ P + (k / r) • r • φ P := by
    rw [smul_smul, ← add_smul, mul_comm, Nat.mod_add_div]
  rw [h.map_foldMul_eq_smul hP, hsplit, hr P hP, smul_zero, add_zero]

theorem GroupHom.foldMul_mod (hP : V P) (k : Nat) : foldMul add zero P k = foldMul add zero P (k % r) :=
  h.inj (h.foldMul_valid hP _) (h.foldMul_valid hP _) (by rw [h.map_foldMul_mod hr hP, h.map_foldMul_eq_smul hP])

theorem GroupHom.foldMul_add_mod (hP : V P) (a b : Nat) :
    foldMul add zero P ((a + b) % r) = add (foldMul add zero P a) (foldMul add zero P b) := by
  have haP := h.foldMul_valid hP a
  have hbP := h.foldMul_valid hP b
  refine h.inj (h.foldMul_valid hP _) (h.add_valid haP hbP) ?_
  rw [h.map_foldMul_mod hr hP, h.map_add haP hbP, h.map_foldMul_eq_smul hP, h.map_foldMul_eq_smul hP, add_smul]

theorem GroupHom.foldMul_mul_mod (hP : V P) (a b : Nat) :
    foldMul add zero P (a * b % r) = foldMul add zero (foldMul add zero P b) a := by
  have hbP := h.foldMul_valid hP b
  refine h.inj (h.foldMul_valid hP _) (h.foldMul_valid hbP a) ?_
  rw [h.map_foldMul_mod hr hP, h.map_foldMul_eq_smul hbP, h.map_foldMul_eq_smul hP, mul_smul]

end

/-! ### G1 and G2 -/

/-- On reduced coordinates the engine's negation is that of rules R200 and R204. -/
theorem pointNeg_eq_g2Minus {Q : Point Fq2} (hQ : onTwist Q = true) : pointNeg (fq2Ops Config.p) Q = g2Minus Q := by
  obtain ⟨-, hred⟩ := (onTwist_iff Q).1 hQ
  cases Q with
  | infinity => rfl
  | affine x y =>
    obtain ⟨-, hy0, hy1⟩ := hred x y rfl
    show Point.affine x ⟨(Config.p - y.c0 % Config.p) % Config.p, (Config.p - y.c1 % Config.p) % Config.p⟩ =
      .affine x ⟨(Config.p - y.c0) % Config.p, (Config.p - y.c1) % Config.p⟩
    rw [Nat.mod_eq_of_lt hy0, Nat.mod_eq_of_lt hy1]

/-- G1 is an abelian group that r annihilates, its negation that of rule R173. -/
theorem exists_groupHom_isG1 : ∃ (A : Type) (_ : AddCommGroup A) (φ : Point Nat → A),
    GroupHom (g1Add curveTables) .infinity g1Minus (fun P => isG1 P = true) φ ∧
      ∀ P, isG1 P = true → Config.r • φ P = 0 := by
  obtain ⟨A, hA, φ, h⟩ := exists_groupHom_g1
  exact ⟨A, hA, φ, (h.torsion Config.r).congr (isG1_iff h) fun _ ⟨hP, _⟩ => pointNeg_eq_g1Minus hP,
    fun P hP => ((isG1_iff h P).1 hP).2⟩

/-- G2 likewise, its negation that of rule R204. -/
theorem exists_groupHom_isG2 : ∃ (A : Type) (_ : AddCommGroup A) (φ : Point Fq2 → A),
    GroupHom (g2Add curveTables) .infinity g2Minus (fun Q => isG2 Q = true) φ ∧
      ∀ Q, isG2 Q = true → Config.r • φ Q = 0 := by
  obtain ⟨A, hA, φ, h⟩ := exists_groupHom_g2
  exact ⟨A, hA, φ, (h.torsion Config.r).congr (isG2_iff h) fun _ ⟨hQ, _⟩ => pointNeg_eq_g2Minus hQ,
    fun Q hQ => ((isG2_iff h Q).1 hQ).2⟩

/-- Settles O48: the laws of the group of `exists_groupHom_isG1`. -/
theorem g1GroupLaws : Obligations.G1GroupLaws := by
  obtain ⟨A, _, φ, h, -⟩ := exists_groupHom_isG1
  exact fun a b c ha hb hc =>
    ⟨h.add_zero_eq ha, h.add_eq_swap ha hb, h.add_neg_eq ha, h.add_add_eq ha hb hc, h.add_zero_eq h.zero_valid⟩

/-- Settles O49: the laws of the group of `exists_groupHom_isG2`. -/
theorem g2GroupLaws : Obligations.G2GroupLaws := by
  obtain ⟨A, _, φ, h, -⟩ := exists_groupHom_isG2
  exact fun a b c ha hb hc =>
    ⟨h.add_zero_eq ha, h.add_eq_swap ha hb, h.add_neg_eq ha, h.add_add_eq ha hb hc, h.add_zero_eq h.zero_valid⟩

/-- Settles O50: the points that r annihilates are a subgroup. -/
theorem groupsClosed : Obligations.GroupsClosed := by
  obtain ⟨A1, _, φ1, h1, -⟩ := exists_groupHom_isG1
  obtain ⟨A2, _, φ2, h2, -⟩ := exists_groupHom_isG2
  exact ⟨fun a b ha hb => ⟨h1.add_valid ha hb, h1.neg_valid ha, h1.foldMul_valid ha⟩,
    fun a b ha hb => ⟨h2.add_valid ha hb, h2.neg_valid ha, h2.foldMul_valid ha⟩⟩

/-- Settles O51: the k-fold sum is the multiple by k in a group that r annihilates. -/
theorem multiplesModR : Obligations.MultiplesModR := by
  obtain ⟨A1, _, φ1, h1, hr1⟩ := exists_groupHom_isG1
  obtain ⟨A2, _, φ2, h2, hr2⟩ := exists_groupHom_isG2
  refine ⟨fun P Q hP hQ a b => ?_, fun P Q hP hQ a b => ?_⟩
  · exact ⟨h1.foldMul_mod hr1 hP a, h1.foldMul_add_mod hr1 hP a b, h1.foldMul_mul_mod hr1 hP a b,
      h1.foldMul_add_point hP hQ a, h1.foldMul_neg hP a⟩
  · exact ⟨h2.foldMul_mod hr2 hP a, h2.foldMul_add_mod hr2 hP a b, h2.foldMul_mul_mod hr2 hP a b,
      h2.foldMul_add_point hP hQ a, h2.foldMul_neg hP a⟩

end Sys2Proof.Machine
end

section
/-! The commands G2_ONE, G2_ADD and G2_NEG (rules R211 to R213): the call algorithm over the codec of G2. -/

namespace Sys2Proof.Machine

/-- Settles O36: G2_ONE has nothing to decode, so only the call algorithm can fail. -/
theorem g2OneResult : Obligations.G2OneResult := fun _ _ hs hp =>
  ⟨exec_zero_of_ready (i := .g2One) (f := fun T => T.genG2) nofun rfl hp, exec_of_not_ready (i := .g2One) nofun hp hs⟩

/-- Settles O37: both sources are points of G2 and the function is the addition of rule R206. -/
theorem g2AddResult : Obligations.G2AddResult := by
  intro s pt hs hp
  refine ⟨fun a b hready ha hb hs0 hs1 => ?_, fun h => ?_⟩
  · exact exec_two_of_valid (i := .g2Add) nofun rfl rfl rfl isCodec_g2.ok_iff isCodec_g2.ok_iff hp hready ha hb hs0 hs1
  · exact exec_two_of_not_valid (i := .g2Add) (f := g2Add) nofun rfl rfl rfl isCodec_g2.ok_iff isCodec_g2.ok_iff hp hs h

theorem onTwist_of_isG2 {Q : Point Fq2} (h : isG2 Q = true) : onTwist Q = true := (Bool.and_eq_true_iff.1 h).1

/-- Settles O38: the source is a point of G2, so its coordinates are reduced and the engine negates by rule R204. -/
theorem g2NegResult : Obligations.G2NegResult := by
  intro s pt hs hp
  refine ⟨fun a hready ha hs0 => ?_, fun h => ?_⟩
  · exact exec_one_of_valid (i := .g2Neg) rfl rfl isCodec_g2.ok_iff nofun hp hready ha hs0
      (congrArg Except.ok (pointNeg_eq_g2Minus (onTwist_of_isG2 ha)))
  · exact exec_one_of_not_valid (i := .g2Neg) rfl rfl isCodec_g2.ok_iff nofun hp hs fun a _ ha _ => h a ha

end Sys2Proof.Machine
end

section
/-! The multi-scalar sum and the bucket method in a commutative monoid (rules R240, R241): one weighted sum over the list of
pairs is the value of the sequential fold, of a window's accumulation pass and of all the windows together. -/

namespace Sys2Proof.Machine

/-- `P` is a valid value and stands, through `φ`, for `a`. -/
structure Denotes {G A : Type} (V : G → Prop) (φ : G → A) (P : G) (a : A) : Prop where
  valid : V P
  value : φ P = a

/-- `sum of k_i * P_i` over any addition, as rule R240 defines it. -/
def foldSum {G : Type} (add : G → G → G) (zero : G) (pairs : List (G × Nat)) : G :=
  pairs.foldl (fun acc pk => add acc (foldMul add zero pk.1 pk.2)) zero

theorem g1Sum_eq_foldSum : g1Sum = foldSum (g1Add curveTables) .infinity := rfl

theorem g2Sum_eq_foldSum : g2Sum = foldSum (g2Add curveTables) .infinity := rfl

/-- The sum of the list's points, each times a number read off its scalar. -/
def weightedSum {G A : Type} [AddCommMonoid A] (φ : G → A) (weight : Nat → Nat) (pairs : List (G × Nat)) : A :=
  (pairs.map fun e => weight e.2 • φ e.1).sum

/-- Digit `j` of a scalar in base `2^w` (rule R241). -/
def windowDigit (w j k : Nat) : Nat := (k >>> (j * w)) % 2 ^ w

section
variable {G A : Type} [AddCommMonoid A] {φ : G → A} {weight weight' : Nat → Nat}

@[simp] theorem weightedSum_nil : weightedSum φ weight [] = 0 := rfl

@[simp] theorem weightedSum_cons (e : G × Nat) (l : List (G × Nat)) :
    weightedSum φ weight (e :: l) = weight e.2 • φ e.1 + weightedSum φ weight l := rfl

theorem weightedSum_congr {l : List (G × Nat)} (h : ∀ e ∈ l, weight e.2 = weight' e.2) :
    weightedSum φ weight l = weightedSum φ weight' l :=
  congrArg List.sum (List.map_congr_left fun e he => by rw [h e he])

theorem weightedSum_perm {l l' : List (G × Nat)} (h : l.Perm l') : weightedSum φ weight l = weightedSum φ weight l' :=
  (h.map _).sum_eq

theorem smul_weightedSum_add (n : Nat) (l : List (G × Nat)) :
    n • weightedSum φ weight l + weightedSum φ weight' l = weightedSum φ (fun k => n * weight k + weight' k) l := by
  induction l with
  | nil => simp
  | cons e l ih =>
    simp only [weightedSum_cons, ← ih, smul_add, add_smul, mul_smul]
    exact add_add_add_comm _ _ _ _

/-- Sorting the points into buckets by their digit and weighting each bucket by its digit loses nothing (rule R241). -/
theorem sum_smul_weightedSum_indicator {n : Nat} {digit : Nat → Nat} (hdigit : ∀ k, digit k < n) (l : List (G × Nat)) :
    ∑ d ∈ Finset.range n, d • weightedSum φ (fun k => if digit k = d then 1 else 0) l = weightedSum φ digit l := by
  induction l with
  | nil => simp
  | cons e l ih =>
    have hpick : ∑ d ∈ Finset.range n, d • (if digit e.2 = d then 1 else 0) • φ e.1 = digit e.2 • φ e.1 := by
      simp [ite_smul, hdigit]
    simp only [weightedSum_cons, smul_add, Finset.sum_add_distrib, ih, hpick]

end

/-! ### Digits -/

theorem bucket_eq_foldl_windowDigit {G : Type} (add : G → G → G) (zero : G) (l : List (G × Nat)) (w j d : Nat) :
    bucket add zero l w j d = l.foldl (fun P e => if windowDigit w j e.2 = d then add P e.1 else P) zero := rfl

theorem windowDigit_lt (w j k : Nat) : windowDigit w j k < 2 ^ w := Nat.mod_lt _ (Nat.two_pow_pos w)

/-- One more window on top of the lower ones. -/
theorem mod_two_pow_windows_succ (w j k : Nat) :
    k % 2 ^ ((j + 1) * w) = 2 ^ (j * w) * windowDigit w j k + k % 2 ^ (j * w) := by
  rw [windowDigit, Nat.shiftRight_eq_div_pow, Nat.succ_mul, pow_add, Nat.mod_mul, Nat.add_comm]

/-- The windows of rule R241 reach every bit of a scalar. -/
theorem nbitsR_le_windows {w : Nat} (hw : 1 ≤ w) : Config.nbitsR ≤ (Config.nbitsR + w - 1) / w * w := by
  have hdiv := Nat.div_add_mod (Config.nbitsR + w - 1) w
  have hmod := Nat.mod_lt (Config.nbitsR + w - 1) hw
  rw [Nat.mul_comm] at hdiv
  omega

/-! ### The operations of the engine and what they stand for -/

section
variable {G A : Type} [AddCommMonoid A] {add : G → G → G} {zero : G} {V : G → Prop} {φ : G → A}
  {P Q : G} {a b : A} {l : List (G × Nat)}

/-- A fold whose every step adds a multiple of the pair's point. -/
theorem denotes_foldl {step : G → G × Nat → G} {weight : Nat → Nat} (hl : ∀ e ∈ l, V e.1)
    (hstep : ∀ e P a, V e.1 → Denotes V φ P a → Denotes V φ (step P e) (a + weight e.2 • φ e.1))
    (hP : Denotes V φ P a) : Denotes V φ (l.foldl step P) (a + weightedSum φ weight l) := by
  induction l generalizing P a with
  | nil => simpa using hP
  | cons e l ih =>
    obtain ⟨he, hl⟩ := List.forall_mem_cons.1 hl
    rw [List.foldl_cons, weightedSum_cons, ← add_assoc]
    exact ih hl (hstep e P a he hP)

variable (h : AddHom add zero V φ)
include h

theorem AddHom.denotes_zero : Denotes V φ zero 0 := ⟨h.zero_valid, h.map_zero⟩

theorem AddHom.denotes_add (hP : Denotes V φ P a) (hQ : Denotes V φ Q b) : Denotes V φ (add P Q) (a + b) :=
  ⟨h.add_valid hP.valid hQ.valid, by rw [h.map_add hP.valid hQ.valid, hP.value, hQ.value]⟩

theorem AddHom.denotes_foldMul (hP : V P) (k : Nat) : Denotes V φ (foldMul add zero P k) (k • φ P) :=
  have ⟨hvalid, hvalue⟩ := h.map_foldMul hP k
  ⟨hvalid, hvalue⟩

theorem AddHom.denotes_foldSum (hl : ∀ e ∈ l, V e.1) : Denotes V φ (foldSum add zero l) (weightedSum φ id l) := by
  rw [← zero_add (weightedSum φ id l)]
  exact denotes_foldl hl (fun e P a he hP => h.denotes_add hP (h.denotes_foldMul he e.2)) h.denotes_zero

/-! ### The bucket method -/

theorem AddHom.denotes_doubleTimes (w : Nat) (hP : Denotes V φ P a) :
    Denotes V φ (doubleTimes add w P) (2 ^ w • a) := by
  induction w generalizing P a with
  | zero => simpa [doubleTimes] using hP
  | succ w ih =>
    rw [pow_succ, mul_smul, two_smul]
    exact ih (h.denotes_add hP hP)

theorem AddHom.denotes_bucket (hl : ∀ e ∈ l, V e.1) (w j d : Nat) :
    Denotes V φ (bucket add zero l w j d) (weightedSum φ (fun k => if windowDigit w j k = d then 1 else 0) l) := by
  rw [bucket_eq_foldl_windowDigit, ← zero_add (weightedSum φ _ l)]
  refine denotes_foldl hl (fun e P a he hP => ?_) h.denotes_zero
  by_cases hd : windowDigit w j e.2 = d
  · rw [if_pos hd, if_pos hd, one_smul]
    exact h.denotes_add hP ⟨he, rfl⟩
  · rw [if_neg hd, if_neg hd, zero_smul, add_zero]
    exact hP

/-- The accumulation pass from `(run, part)`: bucket `i` enters `part` once for each of the digits `i, ..., 1`. -/
theorem AddHom.denotes_accumulate {buckets : Nat → G} {c : Nat → A} (hb : ∀ i, Denotes V φ (buckets i) (c i)) (d : Nat)
    {run part : G} {x y : A} (hrun : Denotes V φ run x) (hpart : Denotes V φ part y) :
    Denotes V φ (accumulate add buckets d run part) (y + d • x + ∑ i ∈ Finset.range (d + 1), i • c i) := by
  induction d generalizing run part x y with
  | zero => simpa [accumulate] using hpart
  | succ d ih =>
    have hrun' := h.denotes_add hrun (hb (d + 1))
    have hsum : y + (d + 1) • x + ∑ i ∈ Finset.range (d + 1 + 1), i • c i =
        y + (x + c (d + 1)) + d • (x + c (d + 1)) + ∑ i ∈ Finset.range (d + 1), i • c i := by
      rw [Finset.sum_range_succ, succ_nsmul, succ_nsmul, smul_add]
      abel
    rw [hsum]
    exact ih hrun' (h.denotes_add hpart hrun')

/-- One window: every point times its scalar's digit. -/
theorem AddHom.denotes_window (hl : ∀ e ∈ l, V e.1) (w j : Nat) :
    Denotes V φ (accumulate add (bucket add zero l w j) (2 ^ w - 1) zero zero) (weightedSum φ (windowDigit w j) l) := by
  have hacc := h.denotes_accumulate (h.denotes_bucket hl w j) (2 ^ w - 1) h.denotes_zero h.denotes_zero
  rwa [smul_zero, add_zero, zero_add, Nat.sub_add_cancel Nat.one_le_two_pow,
    sum_smul_weightedSum_indicator (windowDigit_lt w j)] at hacc

/-- The windows from `total`: `n * w` doublings, and every point times the low `n * w` bits of its scalar. -/
theorem AddHom.denotes_bucketWindows (hl : ∀ e ∈ l, V e.1) (w n : Nat) (hP : Denotes V φ P a) :
    Denotes V φ (bucketWindows add zero l w n P) (2 ^ (n * w) • a + weightedSum φ (· % 2 ^ (n * w)) l) := by
  induction n generalizing P a with
  | zero =>
    have hlow : weightedSum φ (fun _ => 0) l = 0 := by simp [weightedSum]
    simpa [bucketWindows, Nat.mod_one, hlow] using hP
  | succ j ih =>
    have hsplit : 2 ^ ((j + 1) * w) • a + weightedSum φ (· % 2 ^ ((j + 1) * w)) l =
        2 ^ (j * w) • (2 ^ w • a + weightedSum φ (windowDigit w j) l) + weightedSum φ (· % 2 ^ (j * w)) l := by
      simp only [mod_two_pow_windows_succ]
      rw [← smul_weightedSum_add, smul_add, smul_smul, ← pow_add, ← Nat.succ_mul, add_assoc]
    rw [hsplit]
    exact ih (h.denotes_add (h.denotes_doubleTimes w hP) (h.denotes_window hl w j))

/-- Scalars below `2^253` fit the windows, so nothing of them is cut off. -/
theorem AddHom.denotes_msmBucket {w : Nat} (hw : 1 ≤ w) (hl : ∀ e ∈ l, V e.1 ∧ e.2 < 2 ^ 253) :
    Denotes V φ (msmBucket add zero l w) (weightedSum φ id l) := by
  have hwin := h.denotes_bucketWindows (fun e he => (hl e he).1) w ((Config.nbitsR + w - 1) / w) h.denotes_zero
  have hfit : ∀ e ∈ l, e.2 % 2 ^ ((Config.nbitsR + w - 1) / w * w) = id e.2 := fun e he =>
    Nat.mod_eq_of_lt ((hl e he).2.trans_le (Nat.pow_le_pow_right Nat.two_pos (nbitsR_le_windows hw)))
  rwa [smul_zero, zero_add, weightedSum_congr hfit] at hwin

end

end Sys2Proof.Machine
end

section
/-! Scalar multiplication and the multi-scalar sum in a group (rules R230 to R233, R240 to R242): two expressions that stand
for one element are one point. -/

namespace Sys2Proof.Machine

/-- Rule R233: the trace grows by a doubling and an addition in every iteration, whatever the point and the scalar. -/
theorem trace_walk {G : Type} (add : G → G → G) (P : G) (k n : Nat) (acc : Traced G) :
    (walk add P k n acc).trace = acc.trace ++ (List.replicate n [GroupOp.double, GroupOp.addPoint]).flatten := by
  induction n generalizing acc with
  | zero => simp [walk]
  | succ n ih => rw [walk, ih, List.replicate_succ, List.flatten_cons, List.append_assoc]

theorem trace_smulTraced {G : Type} (add : G → G → G) (zero P : G) (k : Nat) :
    (smulTraced add zero P k).trace = (List.replicate 253 [GroupOp.double, GroupOp.addPoint]).flatten :=
  trace_walk add P k Config.nbitsR ⟨zero, []⟩

section
variable {G A : Type} [AddCommGroup A] {add : G → G → G} {zero : G} {neg : G → G} {V : G → Prop} {φ : G → A}
  (h : GroupHom add zero neg V φ) {P Q : G} {a : A} {l l' : List (G × Nat)}
include h

theorem GroupHom.eq_of_denotes (hP : Denotes V φ P a) (hQ : Denotes V φ Q a) : P = Q :=
  h.inj hP.valid hQ.valid (hP.value.trans hQ.value.symm)

/-- The engine's fold over walks is the fold over k-fold sums. -/
theorem GroupHom.msm_eq_foldSum (hl : ∀ e ∈ l, V e.1 ∧ e.2 < 2 ^ 253) : msm add zero l = foldSum add zero l :=
  List.foldl_ext _ _ _ fun acc e he =>
    have ⟨hV, hk⟩ := hl e he
    congrArg (add acc) (h.smul_eq_foldMul hV hk)

theorem GroupHom.msmBucket_eq_foldSum {w : Nat} (hw : 1 ≤ w) (hl : ∀ e ∈ l, V e.1 ∧ e.2 < 2 ^ 253) :
    msmBucket add zero l w = foldSum add zero l :=
  h.eq_of_denotes (h.denotes_msmBucket hw hl) (h.denotes_foldSum fun e he => (hl e he).1)

/-! ### Laws of the sum -/

/-- Lists of valid points with one weighted sum have one result. -/
theorem GroupHom.foldSum_congr (hl : ∀ e ∈ l, V e.1) (hl' : ∀ e ∈ l', V e.1)
    (heq : weightedSum φ id l = weightedSum φ id l') : foldSum add zero l = foldSum add zero l' :=
  h.eq_of_denotes (h.denotes_foldSum hl) (heq ▸ h.denotes_foldSum hl')

theorem GroupHom.foldSum_perm (hl : ∀ e ∈ l, V e.1) (hperm : l.Perm l') : foldSum add zero l = foldSum add zero l' :=
  h.foldSum_congr hl (fun e he => hl e (hperm.mem_iff.2 he)) (weightedSum_perm hperm)

theorem GroupHom.foldSum_cons_zero_scalar (hP : V P) (hl : ∀ e ∈ l, V e.1) :
    foldSum add zero ((P, 0) :: l) = foldSum add zero l :=
  h.foldSum_congr (List.forall_mem_cons.2 ⟨hP, hl⟩) hl (by rw [weightedSum_cons, id, zero_smul, zero_add])

theorem GroupHom.foldSum_cons_zero_point (k : Nat) (hl : ∀ e ∈ l, V e.1) :
    foldSum add zero ((zero, k) :: l) = foldSum add zero l :=
  h.foldSum_congr (List.forall_mem_cons.2 ⟨h.zero_valid, hl⟩) hl
    (by rw [weightedSum_cons, h.map_zero, smul_zero, zero_add])

theorem GroupHom.foldSum_singleton (hP : V P) (k : Nat) : foldSum add zero [(P, k)] = foldMul add zero P k :=
  h.eq_of_denotes (h.denotes_foldSum (List.forall_mem_singleton.2 hP))
    (by simpa using h.denotes_foldMul hP k)

/-- Two pairs of one point combine modulo the number that annihilates the group (rule R242). -/
theorem GroupHom.foldSum_cons_cons_same {r : Nat} (hr : ∀ P, V P → r • φ P = 0) (hP : V P) (m n : Nat)
    (hl : ∀ e ∈ l, V e.1) :
    foldSum add zero ((P, m) :: (P, n) :: l) = foldSum add zero ((P, (m + n) % r) :: l) := by
  have hmod : ((m + n) % r) • φ P = m • φ P + n • φ P := by
    rw [← h.map_foldMul_eq_smul hP, h.map_foldMul_mod hr hP, add_smul]
  refine h.foldSum_congr (List.forall_mem_cons.2 ⟨hP, List.forall_mem_cons.2 ⟨hP, hl⟩⟩)
    (List.forall_mem_cons.2 ⟨hP, hl⟩) ?_
  simp only [weightedSum_cons, id, hmod, add_assoc]

end

/-! ### The two curves -/

theorem lt_of_isFr {k : Nat} (h : isFr k = true) : k < 2 ^ 253 := ((isFr_iff k).1 h).trans r_lt

theorem g1Smul_eq_g1Times {P : Point Nat} {k : Nat} (hP : onE P = true) (hk : k < 2 ^ 253) :
    g1Smul curveTables P k = g1Times P k := by
  obtain ⟨A, _, φ, h⟩ := exists_groupHom_g1
  exact h.smul_eq_foldMul hP hk

theorem g2Smul_eq_g2Times {Q : Point Fq2} {k : Nat} (hQ : onTwist Q = true) (hk : k < 2 ^ 253) :
    g2Smul curveTables Q k = g2Times Q k := by
  obtain ⟨A, _, φ, h⟩ := exists_groupHom_g2
  exact h.smul_eq_foldMul hQ hk

/-- Settles O52: the value is the multiple in the curve's group, the trace a count of iterations. -/
theorem fixedWalk : Obligations.FixedWalk :=
  ⟨fun _ _ => g1Smul_eq_g1Times, fun _ _ => g2Smul_eq_g2Times, trace_smulTraced _ _, trace_smulTraced _ _⟩

/-- Settles O53: all windows together and the fold stand for one weighted sum. -/
theorem bucketMethod : Obligations.BucketMethod := by
  obtain ⟨A1, _, φ1, h1, -⟩ := exists_groupHom_isG1
  obtain ⟨A2, _, φ2, h2, -⟩ := exists_groupHom_isG2
  rw [Obligations.BucketMethod, g1Sum_eq_foldSum, g2Sum_eq_foldSum]
  exact ⟨fun l w hw hl => h1.msmBucket_eq_foldSum hw fun e he => (hl e he).imp_right lt_of_isFr,
    fun l w hw hl => h2.msmBucket_eq_foldSum hw fun e he => (hl e he).imp_right lt_of_isFr⟩

/-- Settles O54: the sum depends on the weighted sum of the list only. -/
theorem msmLaws : Obligations.MsmLaws := by
  obtain ⟨A1, _, φ1, h1, hr1⟩ := exists_groupHom_isG1
  obtain ⟨A2, _, φ2, h2, hr2⟩ := exists_groupHom_isG2
  rw [Obligations.MsmLaws, g1Sum_eq_foldSum, g2Sum_eq_foldSum]
  refine ⟨fun l l' => h1.foldSum_perm, fun l hl P a b hP => ?_, fun l l' => h2.foldSum_perm, fun l hl Q a b hQ => ?_⟩
  · exact ⟨h1.foldSum_cons_zero_scalar hP hl, h1.foldSum_cons_zero_point a hl,
      h1.foldSum_cons_cons_same hr1 hP a b hl, h1.foldSum_singleton hP a⟩
  · exact ⟨h2.foldSum_cons_zero_scalar hQ hl, h2.foldSum_cons_zero_point a hl,
      h2.foldSum_cons_cons_same hr2 hQ a b hl, h2.foldSum_singleton hQ a⟩

end Sys2Proof.Machine
end

section
/-! The commands G1_MUL, G1_MSM, G2_MUL and G2_MSM (rules R235, R236, R245, R246): the call algorithm over the codecs of
points, scalars and lists. -/

namespace Sys2Proof.Machine

/-- The entries of a valid list of pairs with scalars: valid points, and scalars below `2^253`. -/
theorem forall_valid_of_valid_list {α : Type} {valid : α → Bool} {l : List (α × Nat)}
    (h : (decide (l.length < 2 ^ 32) && l.all fun e => valid e.1 && isFr e.2) = true) :
    ∀ e ∈ l, valid e.1 = true ∧ e.2 < 2 ^ 253 := fun e he =>
  have hall := List.all_eq_true.1 (Bool.and_eq_true_iff.1 h).2
  (Bool.and_eq_true_iff.1 (hall e he)).imp_right lt_of_isFr

/-- The engine's sum of a valid list is the fold of rule R240. -/
theorem msm_eq_g1Sum {l : List (Point Nat × Nat)} (h : isG1FrList l = true) :
    msm (g1Add curveTables) .infinity l = g1Sum l := by
  obtain ⟨A, _, φ, hφ, -⟩ := exists_groupHom_isG1
  exact hφ.msm_eq_foldSum (forall_valid_of_valid_list h)

theorem msm_eq_g2Sum {l : List (Point Fq2 × Nat)} (h : isG2FrList l = true) :
    msm (g2Add curveTables) .infinity l = g2Sum l := by
  obtain ⟨A, _, φ, hφ, -⟩ := exists_groupHom_isG2
  exact hφ.msm_eq_foldSum (forall_valid_of_valid_list h)

/-- Settles O34: the engine's walk is the k-fold sum of a point of G1. -/
theorem g1MulResult : Obligations.G1MulResult := by
  intro s pt hs hp
  refine ⟨fun P k hready hP hk hs0 hs1 => ?_, fun h => ?_⟩
  · rw [← g1Smul_eq_g1Times (onE_of_isG1 hP) (lt_of_isFr hk)]
    exact exec_two_of_valid (i := .g1Mul) nofun rfl rfl rfl isCodec_g1.ok_iff isCodec_fr.ok_iff hp hready hP hk hs0 hs1
  · exact exec_two_of_not_valid (i := .g1Mul) (f := g1Smul) nofun rfl rfl rfl isCodec_g1.ok_iff isCodec_fr.ok_iff hp hs h

/-- Settles O39: the engine's walk is the k-fold sum of a point of G2. -/
theorem g2MulResult : Obligations.G2MulResult := by
  intro s pt hs hp
  refine ⟨fun Q k hready hQ hk hs0 hs1 => ?_, fun h => ?_⟩
  · rw [← g2Smul_eq_g2Times (onTwist_of_isG2 hQ) (lt_of_isFr hk)]
    exact exec_two_of_valid (i := .g2Mul) nofun rfl rfl rfl isCodec_g2.ok_iff isCodec_fr.ok_iff hp hready hQ hk hs0 hs1
  · exact exec_two_of_not_valid (i := .g2Mul) (f := g2Smul) nofun rfl rfl rfl isCodec_g2.ok_iff isCodec_fr.ok_iff hp hs h

/-- Settles O35: the source decodes exactly when it encodes a valid list, and the engine's walks give the fold of k-fold
sums. -/
theorem g1MsmResult : Obligations.G1MsmResult := by
  intro s pt hs hp
  have hlist := decodeList_ok_iff isCodec_g1 isCodec_fr
  refine ⟨fun l hready hl hs0 => ?_, fun h => ?_⟩
  · exact exec_one_of_valid (i := .g1Msm) (dec := decodeG1FrList) rfl rfl hlist nofun hp hready hl hs0
      (congrArg Except.ok (msm_eq_g1Sum hl))
  · exact exec_one_of_not_valid (i := .g1Msm) (dec := decodeG1FrList) rfl rfl hlist nofun hp hs fun l _ hl _ => h l hl

/-- Settles O40: as G1_MSM, over the list decoder and the sum of G2. -/
theorem g2MsmResult : Obligations.G2MsmResult := by
  intro s pt hs hp
  have hlist := decodeList_ok_iff isCodec_g2 isCodec_fr
  refine ⟨fun l hready hl hs0 => ?_, fun h => ?_⟩
  · exact exec_one_of_valid (i := .g2Msm) (dec := decodeG2FrList) rfl rfl hlist nofun hp hready hl hs0
      (congrArg Except.ok (msm_eq_g2Sum hl))
  · exact exec_one_of_not_valid (i := .g2Msm) (dec := decodeG2FrList) rfl rfl hlist nofun hp hs fun l _ hl _ => h l hl

end Sys2Proof.Machine
end

section
/-! The verdict of PAIRING_CHECK as an equation of values (rules R270, R273): it depends on the product of the Miller values
of the left pairs and the negated right pairs only, up to what the final exponentiation kills. -/

namespace Sys2Proof.Machine

/-! ### The value of a check -/

/-- A pair as it enters the product from the right side: its G1 point negated (rule R273). -/
def negatePair (e : Point Nat × Point Fq2) : Point Nat × Point Fq2 := (pointNeg (fqOps curveTables.p) e.1, e.2)

section
variable {K : Type} [Field K] (ι : Fq2K Config.p →+* K) (v : K)

/-- The Miller value of a pair. -/
def pairValue (e : Point Nat × Point Fq2) : Fq12K K v := fq12Val ι v (miller curveTables e.1 e.2)

/-- The product of the Miller values of a list of pairs. -/
def listValue (l : List (Point Nat × Point Fq2)) : Fq12K K v := (l.map (pairValue ι v)).prod

/-- The product over both sides that a check exponentiates (rule R273). -/
def checkValue (l r : List (Point Nat × Point Fq2)) : Fq12K K v :=
  listValue ι v l * listValue ι v (negateG1 curveTables r)

end

section
variable {K : Type} [Field K] {ι : Fq2K Config.p →+* K} {v : K} {e : Point Nat × Point Fq2}
  {l l' r r' : List (Point Nat × Point Fq2)}

theorem pairValue_of_infinity (he : e.1 = .infinity ∨ e.2 = .infinity) : pairValue ι v e = 1 := by
  have hone : miller curveTables e.1 e.2 = fq12One := by
    rcases he with he | he
    · rw [he]; rfl
    · rw [he]; cases e.1 <;> rfl
  rw [pairValue, hone, fq12Val_one]

theorem listValue_cons : listValue ι v (e :: l) = pairValue ι v e * listValue ι v l := by
  rw [listValue, List.map_cons, List.prod_cons, listValue]

theorem listValue_perm (h : l.Perm l') : listValue ι v l = listValue ι v l' := (h.map _).prod_eq

theorem checkValue_nil_nil : checkValue ι v [] [] = 1 := mul_one 1

theorem checkValue_perm (hl : l.Perm l') (hr : r.Perm r') : checkValue ι v l r = checkValue ι v l' r' :=
  congrArg₂ (· * ·) (listValue_perm hl) (listValue_perm (hr.map _))

theorem checkValue_cons_left : checkValue ι v (e :: l) r = pairValue ι v e * checkValue ι v l r := by
  rw [checkValue, listValue_cons, mul_assoc, checkValue]

theorem checkValue_cons_right : checkValue ι v l (e :: r) = pairValue ι v (negatePair e) * checkValue ι v l r := by
  have hcons : negateG1 curveTables (e :: r) = negatePair e :: negateG1 curveTables r := rfl
  rw [checkValue, hcons, listValue_cons, mul_left_comm, checkValue]

variable (h : CubicField ι v)
include h

theorem CubicField.val_millerProduct (f : Fq12) (l : List (Point Nat × Point Fq2)) :
    fq12Val ι v (millerProduct curveTables f l) = fq12Val ι v f * listValue ι v l := by
  induction l generalizing f with
  | nil => exact (mul_one _).symm
  | cons e l ih =>
    have hmul : fq12Val ι v (mul12 curveTables.p f (miller curveTables e.1 e.2)) = fq12Val ι v f * pairValue ι v e :=
      h.val_mul12 _ _
    rw [millerProduct, List.foldl_cons, ← millerProduct, ih, hmul, listValue_cons, mul_assoc]

/-- The verdict is true exactly when the final exponentiation takes the value of the check to 1. -/
theorem CubicField.pairingCheck_iff :
    pairingCheck curveTables l r = true ↔ checkValue ι v l r ^ Config.finalExp = 1 := by
  rw [pairingCheck, decide_eq_true_iff, h.finalExponentiation_eq_one_iff, h.val_millerProduct, h.val_millerProduct,
    fq12Val_one, one_mul, checkValue]

theorem CubicField.pairingCheck_congr
    (hval : checkValue ι v l r ^ Config.finalExp = checkValue ι v l' r' ^ Config.finalExp) :
    pairingCheck curveTables l r = pairingCheck curveTables l' r' := by
  rw [Bool.eq_iff_iff, h.pairingCheck_iff, h.pairingCheck_iff, hval]

end

/-! ### Order, and pairs with an identity component -/

section
variable {e : Point Nat × Point Fq2} {l l' r r' : List (Point Nat × Point Fq2)}

theorem pairingCheck_nil_nil : pairingCheck curveTables [] [] = true := by
  obtain ⟨K, _, ι, v, h⟩ := exists_cubicField
  rw [h.pairingCheck_iff, checkValue_nil_nil, one_pow]

theorem pairingCheck_perm (hl : l.Perm l') (hr : r.Perm r') :
    pairingCheck curveTables l r = pairingCheck curveTables l' r' := by
  obtain ⟨K, _, ι, v, h⟩ := exists_cubicField
  exact h.pairingCheck_congr (by rw [checkValue_perm hl hr])

theorem negatePair_infinity (he : e.1 = .infinity ∨ e.2 = .infinity) :
    (negatePair e).1 = .infinity ∨ (negatePair e).2 = .infinity :=
  he.imp_left (congrArg (pointNeg (fqOps curveTables.p)))

theorem pairingCheck_cons_left_of_infinity (he : e.1 = .infinity ∨ e.2 = .infinity) :
    pairingCheck curveTables (e :: l) r = pairingCheck curveTables l r := by
  obtain ⟨K, _, ι, v, h⟩ := exists_cubicField
  exact h.pairingCheck_congr (by rw [checkValue_cons_left, pairValue_of_infinity he, one_mul])

theorem pairingCheck_cons_right_of_infinity (he : e.1 = .infinity ∨ e.2 = .infinity) :
    pairingCheck curveTables l (e :: r) = pairingCheck curveTables l r := by
  obtain ⟨K, _, ι, v, h⟩ := exists_cubicField
  exact h.pairingCheck_congr
    (by rw [checkValue_cons_right, pairValue_of_infinity (negatePair_infinity he), one_mul])

theorem pairingCheck_of_forall_infinity (hl : ∀ e ∈ l, e.1 = .infinity ∨ e.2 = .infinity)
    (hr : ∀ e ∈ r, e.1 = .infinity ∨ e.2 = .infinity) : pairingCheck curveTables l r = true := by
  induction l with
  | cons e l ih =>
    obtain ⟨he, hl⟩ := List.forall_mem_cons.1 hl
    rw [pairingCheck_cons_left_of_infinity he, ih hl]
  | nil =>
    induction r with
    | nil => exact pairingCheck_nil_nil
    | cons e r ih =>
      obtain ⟨he, hr⟩ := List.forall_mem_cons.1 hr
      rw [pairingCheck_cons_right_of_infinity he, ih hr]

end

/-- Settles O42: a pair with an identity component has the Miller value 1, and its place in a list does not matter. -/
theorem pairingIdentityPairs : Obligations.PairingIdentityPairs := by
  refine ⟨fun l1 l2 r e he => ⟨?_, ?_⟩, fun _ _ => pairingCheck_of_forall_infinity⟩
  · rw [pairingCheck_perm List.perm_middle (.refl r), pairingCheck_cons_left_of_infinity he]
  · rw [pairingCheck_perm (.refl r) List.perm_middle, pairingCheck_cons_right_of_infinity he]

/-! ### Sides and cancellation -/

section
variable {P : Point Nat} {Q : Point Fq2} {l r : List (Point Nat × Point Fq2)}

theorem pointNeg_g1Minus (hP : onE P = true) : pointNeg (fqOps Config.p) (g1Minus P) = P := by
  rw [← pointNeg_eq_g1Minus hP]
  obtain ⟨-, hred⟩ := (onE_iff P).1 hP
  cases P with
  | infinity => rfl
  | affine x y =>
    obtain ⟨-, hy⟩ := hred x y rfl
    have hneg : negMod Config.p (negMod Config.p y) = y :=
      eq_of_cast_eq (negMod_lt p_pos _) hy (by rw [cast_negMod p_pos, cast_negMod p_pos, neg_neg])
    exact congrArg (Point.affine x) hneg

theorem isG1_g1Minus (hP : isG1 P = true) : isG1 (g1Minus P) = true := by
  obtain ⟨A, _, φ, h, -⟩ := exists_groupHom_isG1
  exact h.neg_valid hP

theorem pairingCheck_move (hP : isG1 P = true) :
    pairingCheck curveTables ((P, Q) :: l) r = pairingCheck curveTables l ((g1Minus P, Q) :: r) := by
  obtain ⟨K, _, ι, v, h⟩ := exists_cubicField
  have hneg : negatePair (g1Minus P, Q) = (P, Q) := congrArg (·, Q) (pointNeg_g1Minus (onE_of_isG1 hP))
  exact h.pairingCheck_congr (by rw [checkValue_cons_left, checkValue_cons_right, hneg])

/-- The final exponentiation kills the Miller values of P and of -P together. -/
theorem pairingCheck_cancel (hP : isG1 P = true) :
    pairingCheck curveTables ((P, Q) :: l) ((P, Q) :: r) = pairingCheck curveTables l r := by
  obtain ⟨K, _, ι, v, h⟩ := exists_cubicField
  have hkill : (pairValue ι v (P, Q) * pairValue ι v (negatePair (P, Q))) ^ Config.finalExp = 1 := h.miller_neg hP Q
  exact h.pairingCheck_congr
    (by rw [checkValue_cons_left, checkValue_cons_right, ← mul_assoc, mul_pow, hkill, one_mul])

/-- Rule R276: moving (P, Q) to the right leaves the one pair (-P, Q) on both sides. -/
theorem pairingCheck_pair_opposite (hP : isG1 P = true) :
    pairingCheck curveTables [(P, Q), (g1Minus P, Q)] [] = true := by
  rw [pairingCheck_move hP, pairingCheck_cancel (isG1_g1Minus hP), pairingCheck_nil_nil]

end

/-- Settles O43: the value of a check is a product, and the Miller values of P and of -P cancel under the final
exponentiation. -/
theorem pairingOrderAndSides : Obligations.PairingOrderAndSides :=
  ⟨fun _ _ _ _ => pairingCheck_perm, fun _ _ hP =>
    ⟨fun _ _ => ⟨pairingCheck_move hP, pairingCheck_cancel hP⟩, pairingCheck_pair_opposite hP⟩⟩

end Sys2Proof.Machine
end

section
/-! The `p`-th power in Fq12 (rules R19, R264): with `w^12 = -5` it fixes Fq and multiplies `w` by a root of unity of Fq, and
its sixth iterate is the conjugation over the field of `p^6` elements. -/

namespace Sys2Proof.Machine

open QuadraticAlgebra

/-! ### Powers in characteristic p -/

section
variable {R : Type} [CommRing R] [CharP R Config.p]

theorem cast_p_sub {n : Nat} (hn : n ≤ Config.p) : ((Config.p - n : Nat) : R) = -n := by
  rw [Nat.cast_sub hn, CharP.cast_eq_zero, zero_sub]

theorem neg_five_pow (e : Nat) : (-5 : R) ^ e = (powMod Config.p (Config.p - 5) e : Nat) := by
  have h5 : ((Config.p - 5 : Nat) : R) = -5 := by rw [cast_p_sub (by decide +kernel), Nat.cast_ofNat]
  rw [powMod_eq p_pos, ← CharP.natCast_eq_natCast_mod, Nat.cast_pow, h5]

theorem neg_five_pow_eq_neg_one {e : Nat} (he : powMod Config.p (Config.p - 5) e = Config.p - 1) : (-5 : R) ^ e = -1 := by
  rw [neg_five_pow, he, cast_p_sub p_pos, Nat.cast_one]

end

/-- A power of `p` that fixes the coefficients and negates the root conjugates. -/
theorem pow_p_pow_eq_star {R : Type} [Field R] {d : R} [CharP (QuadraticAlgebra R d 0) Config.p] {n : Nat}
    (hR : ∀ x : R, x ^ Config.p ^ n = x) (hω : (ω : QuadraticAlgebra R d 0) ^ Config.p ^ n = -ω)
    (y : QuadraticAlgebra R d 0) : y ^ Config.p ^ n = star y := by
  have := fact_p
  obtain ⟨a, b⟩ := y
  have hstar : star (⟨a, b⟩ : QuadraticAlgebra R d 0) = algebraMap R _ a + b • -ω := by ext <;> simp
  rw [hstar, mk_eq_add_smul_omega, add_pow_char_pow, smul_pow, ← map_pow, hR, hR, hω]

/-! ### The `p`-th power in Fq2 -/

theorem charP_fq2K : CharP (Fq2K Config.p) Config.p :=
  charP_of_injective_algebraMap (algebraMap_injective (R := ZMod Config.p)) Config.p

/-- `u^2 = -5` (rule R16). -/
theorem fq2U_pow_two : fq2U ^ 2 = -5 := by
  rw [pow_two]; ext <;> simp [re_ofNat, im_ofNat]

theorem fq2K_omega_pow_p : (ω : Fq2K Config.p) ^ Config.p = -ω := by
  have := charP_fq2K
  have hexp : Config.p = 2 * ((Config.p - 1) / 2) + 1 := by decide +kernel
  have hsq : (ω : Fq2K Config.p) ^ 2 = -5 := fq2U_pow_two
  calc (ω : Fq2K Config.p) ^ Config.p
      = ω ^ (2 * ((Config.p - 1) / 2) + 1) := congrArg _ hexp
    _ = -ω := by rw [pow_succ, pow_mul, hsq, neg_five_pow_eq_neg_one (by decide +kernel), neg_one_mul]

theorem fq2K_pow_p (y : Fq2K Config.p) : y ^ Config.p = star y := by
  have := fact_p
  have := charP_fq2K
  have h := pow_p_pow_eq_star (n := 1) (fun x : ZMod Config.p => by rw [pow_one, ZMod.pow_card])
    (by rw [pow_one, fq2K_omega_pow_p]) y
  rwa [pow_one] at h

/-! ### The `p`-th power in Fq12 -/

/-- `w^(p-1) = (-5)^((p-1)/12)`, a root of unity in Fq. -/
def frobeniusRoot : Nat := powMod Config.p (Config.p - 5) ((Config.p - 1) / 12)

/-- The coefficient of `w^k` in the `p`-th power of `a * w^k`. -/
def frobeniusCoeff (k : Nat) (a : Fq2) : Fq2 := fq2Scale Config.p ⟨a.c0, negMod Config.p a.c1⟩ (frobeniusRoot ^ k)

/-- The `p`-th power, coefficient by coefficient. -/
def frobenius12 (a : Fq12) : Fq12 :=
  ⟨frobeniusCoeff 0 a.a0, frobeniusCoeff 1 a.a1, frobeniusCoeff 2 a.a2, frobeniusCoeff 3 a.a3, frobeniusCoeff 4 a.a4,
    frobeniusCoeff 5 a.a5⟩

theorem fq2Val_scale (a : Fq2) (k : Nat) : fq2Val Config.p (fq2Scale Config.p a k) = k * fq2Val Config.p a := by
  ext <;> simp [fq2Scale, fq2Val, mul_comm]

theorem fq2Val_frobeniusCoeff (k : Nat) (a : Fq2) :
    fq2Val Config.p (frobeniusCoeff k a) = (frobeniusRoot : Fq2K Config.p) ^ k * fq2Val Config.p a ^ Config.p := by
  have hconj : fq2Val Config.p ⟨a.c0, negMod Config.p a.c1⟩ = star (fq2Val Config.p a) := by
    ext <;> simp [fq2Val, cast_negMod p_pos]
  rw [frobeniusCoeff, fq2Val_scale, hconj, ← fq2K_pow_p, Nat.cast_pow]

section
variable {K : Type} [Field K]

theorem charP_fq12K (ι : Fq2K Config.p →+* K) (v : K) : CharP (Fq12K K v) Config.p :=
  have := fact_p
  charP_of_injective_ringHom
    ((algebraMap K (Fq12K K v)).comp (ι.comp (algebraMap (ZMod Config.p) (Fq2K Config.p)))).injective Config.p

theorem two_ne_zero_of_ringHom (ι : Fq2K Config.p →+* K) : (2 : K) ≠ 0 := by
  have := fact_p
  have htwo : (2 : ZMod Config.p) ≠ 0 := by exact_mod_cast cast_ne_zero_of_lt (n := 2) (by norm_num) two_lt_p
  have himage := (map_ne_zero (ι.comp (algebraMap (ZMod Config.p) (Fq2K Config.p)))).2 htwo
  rwa [map_ofNat] at himage

/-- The coefficients of Fq2 as elements of Fq12. -/
def fq2Embed (ι : Fq2K Config.p →+* K) (v : K) : Fq2K Config.p →+* Fq12K K v := (algebraMap K (Fq12K K v)).comp ι

variable {ι : Fq2K Config.p →+* K} {v : K}

theorem omega_pow_two : (ω : Fq12K K v) ^ 2 = algebraMap K _ v := by
  rw [pow_two, omega_mul_omega_eq_mk, algebraMap_eq]

/-- The value of an Fq12 element as a polynomial in `w` (rule R264). -/
theorem fq12Val_eq_sum (a : Fq12) :
    let c := fun x => fq2Embed ι v (fq2Val Config.p x)
    fq12Val ι v a = c a.a0 + c a.a1 * ω + c a.a2 * ω ^ 2 + c a.a3 * ω ^ 3 + c a.a4 * ω ^ 4 + c a.a5 * ω ^ 5 := by
  intro c
  have hsq := omega_pow_two (K := K) (v := v)
  have hc : ∀ x, algebraMap K (Fq12K K v) (ι (fq2Val Config.p x)) = c x := fun _ => rfl
  rw [fq12Val, mk_eq_add_smul_omega, Algebra.smul_def]
  simp only [map_add, map_mul, map_pow, hc]
  linear_combination (-(c a.a2 + c a.a3 * ω + (c a.a4 + c a.a5 * ω) * (algebraMap K _ v + ω ^ 2))) * hsq

variable (h : CubicField ι v)
include h

/-- `w^12 = u^2 = -5` (rules R16, R19). -/
theorem CubicField.omega_pow_twelve : (ω : Fq12K K v) ^ 12 = -5 := by
  calc (ω : Fq12K K v) ^ 12
      = ((ω ^ 2) ^ 3) ^ 2 := by rw [← pow_mul, ← pow_mul]
    _ = algebraMap K _ (ι (fq2U ^ 2)) := by rw [omega_pow_two, ← map_pow, h.cube, ← map_pow, map_pow ι]
    _ = -5 := by rw [fq2U_pow_two]; simp only [map_neg, map_ofNat]

theorem CubicField.omega_pow_p : (ω : Fq12K K v) ^ Config.p = (frobeniusRoot : Fq12K K v) * ω := by
  have := charP_fq12K ι v
  have hexp : Config.p = 12 * ((Config.p - 1) / 12) + 1 := by decide +kernel
  calc (ω : Fq12K K v) ^ Config.p
      = ω ^ (12 * ((Config.p - 1) / 12) + 1) := congrArg _ hexp
    _ = (frobeniusRoot : Fq12K K v) * ω := by rw [pow_succ, pow_mul, h.omega_pow_twelve, neg_five_pow, frobeniusRoot]

theorem CubicField.val_frobenius12 (a : Fq12) : fq12Val ι v (frobenius12 a) = fq12Val ι v a ^ Config.p := by
  have := fact_p
  have := charP_fq12K ι v
  have hω (k : Nat) : ((ω : Fq12K K v) ^ k) ^ Config.p = (frobeniusRoot : Fq12K K v) ^ k * ω ^ k := by
    rw [← pow_mul, mul_comm, pow_mul, h.omega_pow_p, mul_pow]
  rw [fq12Val_eq_sum, fq12Val_eq_sum]
  simp only [frobenius12, fq2Val_frobeniusCoeff, map_mul, map_pow, map_natCast, add_pow_char, mul_pow, hω, h.omega_pow_p]
  ring

theorem CubicField.val_frobenius12_iterate (n : Nat) (a : Fq12) :
    fq12Val ι v (frobenius12^[n] a) = fq12Val ι v a ^ Config.p ^ n := by
  induction n with
  | zero => rw [pow_zero, pow_one, Function.iterate_zero_apply]
  | succ n ih => rw [Function.iterate_succ_apply', h.val_frobenius12, ih, ← pow_mul, pow_succ]

/-! ### The power `p^6` is the conjugation -/

theorem CubicField.omega_pow_card : (ω : Fq12K K v) ^ Config.p ^ 6 = -ω := by
  have := charP_fq12K ι v
  have hexp : Config.p ^ 6 = 12 * ((Config.p ^ 6 - 1) / 12) + 1 := by decide +kernel
  rw [hexp, pow_succ, pow_mul, h.omega_pow_twelve, neg_five_pow_eq_neg_one (by decide +kernel), neg_one_mul]

theorem CubicField.pow_card_self (x : K) : x ^ Config.p ^ 6 = x := by
  rcases eq_or_ne x 0 with rfl | hx
  · exact zero_pow (pow_ne_zero 6 p_pos.ne')
  · rw [← Nat.sub_add_cancel (Nat.one_le_pow 6 _ p_pos), pow_succ, h.pow_card hx, one_mul]

theorem CubicField.pow_card_eq_star (y : Fq12K K v) : y ^ Config.p ^ 6 = star y := by
  have := charP_fq12K ι v
  exact pow_p_pow_eq_star h.pow_card_self h.omega_pow_card y

/-- What the power `p^6 - 1` takes to 1 is its own conjugate, so it is a unit of the field of `p^6` elements. -/
theorem CubicField.pow_card_sub_one_eq_one_iff (y : Fq12K K v) :
    y ^ (Config.p ^ 6 - 1) = 1 ↔ y.im = 0 ∧ y ≠ 0 := by
  constructor
  · intro hy
    have hself : star y = y := by
      rw [← h.pow_card_eq_star, ← Nat.sub_add_cancel (Nat.one_le_pow 6 _ p_pos), pow_succ, hy, one_mul]
    have him : -y.im = y.im := by simpa using congrArg im hself
    have hdouble : 2 * y.im = 0 := by rw [two_mul, ← neg_eq_iff_add_eq_zero, him]
    refine ⟨(mul_eq_zero.1 hdouble).resolve_left (two_ne_zero_of_ringHom ι), ?_⟩
    rintro rfl
    rw [zero_pow (by decide +kernel)] at hy
    exact zero_ne_one hy
  · rintro ⟨him, hy⟩
    obtain ⟨x, rfl⟩ : ∃ x, y = algebraMap K _ x := ⟨y.re, by ext <;> simp [him]⟩
    rw [← map_pow, h.pow_card (by rintro rfl; exact hy (map_zero _)), map_one]

theorem CubicField.pow_units_card {y : Fq12K K v} (hy : IsUnit y) : y ^ (Config.p ^ 12 - 1) = 1 := by
  refine hy.mul_right_cancel ?_
  calc y ^ (Config.p ^ 12 - 1) * y
      = y ^ Config.p ^ 12 := by rw [← pow_succ, Nat.sub_add_cancel (Nat.one_le_pow 12 _ p_pos)]
    _ = (y ^ Config.p ^ 6) ^ Config.p ^ 6 := by rw [← pow_mul, ← pow_add]
    _ = 1 * y := by rw [h.pow_card_eq_star, h.pow_card_eq_star, star_star, one_mul]

end

end Sys2Proof.Machine
end

section
/-! The final exponentiation by a chain of short powers (rules R20, R268).  With `x` the seed,
`3 * (p^4 - p^2 + 1) / r = (x - 1)^2 * (x + p) * (x^2 + p^2 - 1) + 3`, and a value is taken to 1 exactly when its power by
`p^2 + 1` times this number lies in the field of `p^6` elements.  There -1 may stand as `p^6`, which needs no inverse. -/

namespace Sys2Proof.Machine

/-- The exponent of the chain: 3 times `(p^6 + 1) / r`, up to a multiple of `p^6 + 1`. -/
def chainExp : Nat :=
  (Config.p ^ 2 + 1) * ((Config.xSeed - 1) ^ 2 * (Config.xSeed + Config.p) *
    (Config.xSeed ^ 2 + Config.p ^ 2 + Config.p ^ 6) + 3)

/-- The power by `chainExp`, through powers by `x` and `x - 1` and coefficientwise `p`-th powers. -/
def chainPower (f : Fq12) : Fq12 :=
  let mul := mul12 Config.p
  let pow := pow12 Config.p
  let m := mul (frobenius12^[2] f) f
  let h := pow (pow m (Config.xSeed - 1)) (Config.xSeed - 1)
  let k := mul (pow h Config.xSeed) (frobenius12 h)
  mul (mul (mul (pow (pow k Config.xSeed) Config.xSeed) (frobenius12^[2] k)) (frobenius12^[6] k)) (pow m 3)

/-- Without odd coefficients and not 0: a unit of the field of `p^6` elements (rule R264: the odd powers of `w` are outside
it). -/
def Fq12.isEvenUnit (a : Fq12) : Bool :=
  decide ((a.a1 = fq2Zero ∧ a.a3 = fq2Zero ∧ a.a5 = fq2Zero) ∧ a ≠ fq12Zero)

theorem chainExp_mul : chainExp * (Config.p ^ 6 - 1) = Config.finalExp * 3 +
    (Config.p ^ 12 - 1) * ((Config.p ^ 2 + 1) * (Config.xSeed - 1) ^ 2 * (Config.xSeed + Config.p)) := by decide +kernel

theorem reduced_chainPower (f : Fq12) : (chainPower f).Reduced := reduced_mul12 _ _

theorem reduced_fq12Zero : fq12Zero.Reduced := by unfold Fq12.Reduced; decide +kernel

theorem fq2Val_eq_zero_iff {a : Fq2} (ha : a.c0 < Config.p ∧ a.c1 < Config.p) : fq2Val Config.p a = 0 ↔ a = fq2Zero :=
  ⟨fun h => fq2Val_injective ha ⟨p_pos, p_pos⟩ (h.trans fq2Val_zero.symm), fun h => h ▸ fq2Val_zero⟩

section
variable {K : Type} [Field K] {ι : Fq2K Config.p →+* K} {v : K}

theorem fq12Val_zero : fq12Val ι v fq12Zero = 0 := by
  have hzero : ι (fq2Val Config.p fq2Zero) = 0 := by rw [fq2Val_zero, map_zero]
  ext <;> simp [fq12Val, fq12Zero, hzero]

variable (h : CubicField ι v)
include h

theorem CubicField.val_pow12 (a : Fq12) (e : Nat) : fq12Val ι v (pow12 Config.p a e) = fq12Val ι v a ^ e := by
  rw [pow12, h.val_pow12Bits _ _ _ _ Nat.lt_log2_self, fq12Val_one, one_mul]

theorem CubicField.val_chainPower (f : Fq12) : fq12Val ι v (chainPower f) = fq12Val ι v f ^ chainExp := by
  simp only [chainPower, h.val_mul12, h.val_pow12, h.val_frobenius12_iterate, h.val_frobenius12]
  rw [chainExp]
  generalize fq12Val ι v f = y
  generalize Config.xSeed - 1 = x1
  ring

theorem CubicField.val_im_eq_zero_iff {a : Fq12} (ha : a.Reduced) :
    (fq12Val ι v a).im = 0 ↔ a.a1 = fq2Zero ∧ a.a3 = fq2Zero ∧ a.a5 = fq2Zero := by
  rw [← fq2Val_eq_zero_iff (ha a.a1 (by simp)), ← fq2Val_eq_zero_iff (ha a.a3 (by simp)),
    ← fq2Val_eq_zero_iff (ha a.a5 (by simp))]
  exact ⟨h.independent, fun ⟨h1, h3, h5⟩ => by simp [fq12Val, h1, h3, h5]⟩

theorem CubicField.val_eq_zero_iff {a : Fq12} (ha : a.Reduced) : fq12Val ι v a = 0 ↔ a = fq12Zero :=
  ⟨fun hval => h.val_injective ha reduced_fq12Zero (hval.trans fq12Val_zero.symm), fun hzero => hzero ▸ fq12Val_zero⟩

theorem CubicField.isEvenUnit_iff {a : Fq12} (ha : a.Reduced) :
    a.isEvenUnit = true ↔ fq12Val ι v a ^ (Config.p ^ 6 - 1) = 1 := by
  rw [Fq12.isEvenUnit, decide_eq_true_iff, h.pow_card_sub_one_eq_one_iff, h.val_im_eq_zero_iff ha, ne_eq, ne_eq,
    h.val_eq_zero_iff ha]

/-- On units the two exponents differ by the factor 3, which is prime to `r`. -/
theorem CubicField.pow_finalExp_eq_one_iff (y : Fq12K K v) :
    y ^ Config.finalExp = 1 ↔ y ^ (chainExp * (Config.p ^ 6 - 1)) = 1 := by
  have hchain : IsUnit y → y ^ (chainExp * (Config.p ^ 6 - 1)) = (y ^ Config.finalExp) ^ 3 := fun hu => by
    rw [chainExp_mul, pow_add, pow_mul, pow_mul, h.pow_units_card hu, one_pow, mul_one]
  constructor
  · intro hy
    rw [hchain (.of_pow_eq_one hy (by decide +kernel)), hy, one_pow]
  · intro hy
    have hu : IsUnit y := .of_pow_eq_one hy (by decide +kernel)
    have hcube : (y ^ Config.finalExp) ^ 3 = 1 := by rw [← hchain hu, hy]
    have hr : (y ^ Config.finalExp) ^ Config.r = 1 := by rw [← pow_mul, finalExp_mul_r.1, h.pow_units_card hu]
    have hgcd : Nat.gcd 3 Config.r = 1 := by decide +kernel
    rw [← pow_one (y ^ Config.finalExp), ← hgcd]
    exact pow_gcd_eq_one.2 ⟨hcube, hr⟩

end

theorem finalExponentiation_eq_one_iff_chainPower (f : Fq12) :
    finalExponentiation curveTables f = fq12One ↔ (chainPower f).isEvenUnit = true := by
  obtain ⟨K, _, ι, v, h⟩ := exists_cubicField
  rw [h.finalExponentiation_eq_one_iff, h.pow_finalExp_eq_one_iff, h.isEvenUnit_iff (reduced_chainPower f),
    h.val_chainPower, pow_mul]

/-! ### The pairing of the generators -/

theorem pairingCheck_eq_chainPower (l r : List (Point Nat × Point Fq2)) : pairingCheck curveTables l r =
    (chainPower (millerProduct curveTables (millerProduct curveTables fq12One l) (negateG1 curveTables r))).isEvenUnit := by
  rw [Bool.eq_iff_iff, pairingCheck, decide_eq_true_iff, finalExponentiation_eq_one_iff_chainPower]

theorem pairingCheck_generators :
    pairingCheck curveTables [(curveTables.genG1, curveTables.genG2)] [] = false := by
  rw [pairingCheck_eq_chainPower]
  decide +kernel

theorem pairingCheck_double_generators :
    pairingCheck curveTables [(g1Add curveTables curveTables.genG1 curveTables.genG1, curveTables.genG2)]
      [(curveTables.genG1, g2Add curveTables curveTables.genG2 curveTables.genG2)] = true := by
  rw [pairingCheck_eq_chainPower]
  decide +kernel

/-- Settles O44: the generators of `TABLES` are G and H, and both verdicts are computed, with the chain for the final
exponentiation. -/
theorem pairingNotDegenerate : Obligations.PairingNotDegenerate :=
  ⟨pairingCheck_generators, pairingCheck_double_generators⟩

end Sys2Proof.Machine
end

section
/-! How a call ends (rules R292 to R297, R300, R334): an inversion for each value of `OK`, what they say of the frame and
of a retry, the tests of steps 3, 4 and 7, and INIT. -/

namespace Sys2Proof.Machine

/-! ### The two ends of a call -/

/-- A command that leaves `OK` at 0 failed: INIT never does, and a success sets it. -/
theorem exec_failed {i : Instr} {s t : State} (h : exec i s = .next t)
    (hok : (t.ports[s.callPort]?).map Port.ok = some false) :
    ∃ pt k, i ≠ .init ∧ s.ports[s.callPort]? = some pt ∧ commandResult i s pt = .error k ∧ t = afterFailure s := by
  obtain ⟨pt, hp, ⟨-, rfl⟩ | ⟨hi, k, hr, rfl⟩ | ⟨-, bytes, -, rfl⟩⟩ := exec_cases h
  · rw [ok_of_withOk (b := true) hp (by simp)] at hok
    exact nomatch hok
  · exact ⟨pt, k, hi, hp, hr, rfl⟩
  · rw [ok_of_withOk hp (afterSuccess_ports s pt bytes)] at hok
    exact nomatch hok

/-- A command other than INIT that leaves `OK` at 1 succeeded. -/
theorem exec_succeeded {i : Instr} (hi : i ≠ .init) {s t : State} {pt : Port} (hp : s.ports[s.callPort]? = some pt)
    (h : exec i s = .next t) (hok : (t.ports[s.callPort]?).map Port.ok = some true) :
    ∃ bytes, commandResult i s pt = .ok bytes ∧ t = afterSuccess s pt bytes := by
  rw [exec_ok hi hp h, Option.some.injEq, isOk_iff] at hok
  obtain ⟨bytes, hr⟩ := hok
  rw [exec_of_ok hi hp hr, Host.Outcome.next.injEq] at h
  exact ⟨bytes, hr, h.symm⟩

/-- Settles O17: a command that leaves `OK` at 0 ends in `afterFailure`. -/
theorem failureFrame : Obligations.FailureFrame := by
  intro i s t pt h hp hok
  obtain ⟨-, -, -, -, -, rfl⟩ := exec_failed h hok
  obtain ⟨hcalling, hothers⟩ := ports_of_modify hp (afterFailure_ports s)
  exact ⟨hcalling, hothers, rfl, rfl, rfl, rfl, rfl, rfl, rfl⟩

/-- Settles O18: the command ends in `afterSuccess`, and its result is as wide as the destination's kind. -/
theorem successFrame : Obligations.SuccessFrame := by
  intro i s t pt hs hi h hp hok
  obtain ⟨bytes, hr, rfl⟩ := exec_succeeded hi hp h hok
  obtain ⟨k, hkind, hwidth, hlen, -⟩ := destination_of_ok hi hr
  have hread := exec_memRead hi hs hp h hr
  obtain ⟨hcalling, hothers⟩ := ports_of_modify hp (afterSuccess_ports s pt bytes)
  obtain ⟨hwf, -⟩ := hs
  refine ⟨⟨k, bytes, hkind, hlen, hr, hwidth, hlen ▸ hread, fun a ha => ?_⟩, hcalling, hothers, rfl, rfl, rfl, rfl, rfl,
    rfl⟩
  exact read_memWrite_outside hwf _ _ (hwidth ▸ ha)

/-! ### Retry -/

@[simp] theorem afterFailure_afterFailure (s : State) : afterFailure (afterFailure s) = afterFailure s := by
  simp only [afterFailure, setOk, List.modify_modify_eq]
  rfl

/-- No call reads `OK` of its port (rule R291). -/
theorem commandResult_withOk (i : Instr) (s : State) (b : Bool) (pt : Port) :
    commandResult i s (withOk b pt) = commandResult i s pt :=
  commandResult_congr rfl rfl rfl (fun _ => ⟨rfl, rfl, rfl⟩) (fun _ => ⟨rfl, rfl, rfl⟩) fun _ => ⟨rfl, rfl⟩

/-- Settles O20: a failure changes only `OK`, which the retry does not read. -/
theorem retryFailsAgain : Obligations.RetryFailsAgain := by
  intro i s t h hok
  obtain ⟨pt, k, hi, hp, hr, rfl⟩ := exec_failed h hok
  have hretry : commandResult i (afterFailure s) (withOk false pt) = .error k := by
    rw [commandResult_withOk]
    exact (commandResult_of_shared rfl rfl rfl rfl i pt).trans hr
  rw [exec_of_error hi (ports_of_modify hp (afterFailure_ports s)).1 hretry, afterFailure_afterFailure]

/-! ### Steps 3 and 4 -/

/-- Call step 3 (rule R292): before initialisation nothing else is tested. -/
theorem commandResult_uninitialized {s : State} (hinit : s.initDone = false) (i : Instr) (pt : Port) :
    commandResult i s pt = .error .uninitialized := by
  simp [commandResult, callResult, precheck, hinit]

/-- Settles O14: the call ends at step 3. -/
theorem uninitializedFailsClosed : Obligations.UninitializedFailsClosed := by
  intro i s pt hi hp hinit
  have hr := commandResult_uninitialized hinit i pt
  exact ⟨exec_of_error hi hp hr, hr⟩

/-- Call step 4 (rule R292): in an initialised core the lengths decide before the addresses. -/
theorem commandResult_invalidLength {i : Instr} {s : State} {pt : Port} (hinit : s.initDone = true)
    (hlen : lengthsOk (operandsOf i) pt = false) : commandResult i s pt = .error .invalidLength := by
  simp [commandResult, callResult, precheck, hinit, hlen]

/-- Rule R294: a length fails the test of call step 4 when it is not the fixed kind's width, or too short for a count. -/
theorem lengthOk_eq_false_iff (k : SlotKind) (len : Nat) :
    lengthOk k len = false ↔ (∃ c, k = .fixed c ∧ len ≠ kindWidth c) ∨ (∃ a b, k = .list a b ∧ len < 4) := by
  cases k with
  | unused => simp [lengthOk]
  | fixed c => simp [lengthOk]
  | list a b =>
    rw [lengthOk, decide_eq_false_iff_not, Nat.not_le]
    simp [Config.wCount]

/-- The test of call step 4 fails when one of the three lengths fails it. -/
theorem lengthsOk_eq_false_iff (ops : Operands) (pt : Port) :
    lengthsOk ops pt = false ↔
      ∃ x ∈ [(ops.s0, pt.s0l), (ops.s1, pt.s1l), (ops.d, pt.dl)], lengthOk x.1 x.2.toNat = false := by
  simp only [lengthsOk, Bool.and_eq_false_iff, List.mem_cons, List.not_mem_nil, or_false, exists_eq_or_imp,
    exists_eq_left, or_assoc]

/-- INIT uses no buffer, so it has none of a wrong length. -/
theorem lengthsOk_init (pt : Port) : lengthsOk (operandsOf .init) pt = true := rfl

/-- Settles O15: a wrong length of a used slot fails call step 4. -/
theorem invalidLengthFails : Obligations.InvalidLengthFails := by
  refine ⟨⟨rfl, rfl, rfl, rfl⟩, fun i s pt _ hp hinit ⟨x, hx, hbad⟩ => ?_⟩
  have hlen : lengthsOk (operandsOf i) pt = false :=
    (lengthsOk_eq_false_iff ..).2 ⟨x, hx, (lengthOk_eq_false_iff ..).2 hbad⟩
  have hi : i ≠ .init := by
    rintro rfl
    exact Bool.noConfusion ((lengthsOk_init pt).symm.trans hlen)
  have hr := commandResult_invalidLength hinit hlen
  exact ⟨exec_of_error hi hp hr, hr⟩

/-! ### Step 7 -/

/-- A command whose engine decodes two sources decodes S0 first (rule R292 step 7). -/
theorem decodesInOrder_of_engine2 {i : Instr} {α β γ : Type} {decA : Tables → Bytes → Except ErrorKind α}
    {decB : Tables → Bytes → Except ErrorKind β} {enc : γ → Bytes} {f : Tables → α → β → Except ErrorKind γ}
    (hengine : engineOf i = engine2 decA decB enc f) (h0 : slotUsed (operandsOf i).s0 = true)
    (h1 : slotUsed (operandsOf i).s1 = true) : DecodesInOrder i (decA curveTables) (decB curveTables) := by
  intro s pt k hready
  rw [commandResult_of_ready_two hready h0 h1, hengine]
  exact ⟨engine2_first_error, fun a => engine2_second_error⟩

/-- Settles O22: the engines of the eight commands decode two sources. -/
theorem decodeOrder : Obligations.DecodeOrder :=
  ⟨decodesInOrder_of_engine2 rfl rfl rfl, decodesInOrder_of_engine2 rfl rfl rfl, decodesInOrder_of_engine2 rfl rfl rfl,
    decodesInOrder_of_engine2 rfl rfl rfl, decodesInOrder_of_engine2 rfl rfl rfl, decodesInOrder_of_engine2 rfl rfl rfl,
    decodesInOrder_of_engine2 rfl rfl rfl, decodesInOrder_of_engine2 rfl rfl rfl⟩

/-! ### INIT -/

theorem initShared_of_initDone {s : State} (h : s.initDone = true) : initShared s = s := if_pos h

theorem initShared_of_not_initDone {s : State} (h : s.initDone = false) :
    initShared s = { s with initDone := true, tables := some curveTables } := by
  rw [initShared, h]
  rfl

/-- Settles O23: INIT is `initShared` and `OK`, in both values of `INIT_DONE`. -/
theorem initResult : Obligations.InitResult := by
  refine ⟨fun s pt hp => ⟨fun hinit => ?_, fun hinit => ?_⟩, ⟨_, exec_init (pt := Port.reset) rfl, rfl⟩⟩
  · rw [exec_init hp, initShared_of_initDone hinit]
  · rw [exec_init hp, initShared_of_not_initDone hinit]

end Sys2Proof.Machine
end

section
/-! Runs that never stop (rules R302, R366): a placed host action answers a next state, and no action changes the platform
or what is pending, so the actions that remain are placed still. -/

namespace Sys2Proof.Machine

/-- The two states have the same `MAP`, the same number of ports and the same pending actions: all that
`pendingPlaced` reads. -/
structure SamePlatform (s t : State) : Prop where
  map : t.map = s.map
  ports : t.ports.length = s.ports.length
  pending : t.pending = s.pending

theorem SamePlatform.actionPlaced_eq {s t : State} (h : SamePlatform s t) (a : HostAction) :
    actionPlaced t a = actionPlaced s a := by
  cases a with
  | writeCw => simp only [actionPlaced, h.ports]
  | writeStatus => simp only [actionPlaced, h.ports]
  | writeSlot => simp only [actionPlaced, h.ports]
  | readReg => simp only [actionPlaced, h.ports]
  | storeByte => simp only [actionPlaced, h.map]
  | loadByte => simp only [actionPlaced, h.map]
  | reset => rfl

theorem SamePlatform.pendingPlaced_eq {s t : State} (h : SamePlatform s t) : pendingPlaced t = pendingPlaced s := by
  rw [pendingPlaced, pendingPlaced, h.pending, funext h.actionPlaced_eq]

theorem exec_samePlatform {i : Instr} {s t : State} (h : exec i s = .next t) : SamePlatform s t := by
  obtain ⟨pt, -, ⟨-, rfl⟩ | ⟨-, k, -, rfl⟩ | ⟨-, bytes, -, rfl⟩⟩ := exec_cases h
  · exact ⟨by simp, by simp, by simp⟩
  · exact ⟨rfl, by simp, rfl⟩
  · exact ⟨rfl, by simp, rfl⟩

theorem startCall_samePlatform {w : Word32} {s t : State} (h : startCall w s = .next t) : SamePlatform s t := by
  obtain ⟨-, rfl⟩ | ⟨i, -, hi⟩ := startCall_cases h
  · exact ⟨rfl, by simp, rfl⟩
  · exact exec_samePlatform hi

/-- Every host action keeps the platform and what is pending, a reset included. -/
theorem hostAct_samePlatform {a : HostAction} {s t : State} (h : hostAct a s = .next t) : SamePlatform s t := by
  obtain ⟨port, w, -, -, hcall⟩ | ⟨port, x, v, -, -, rfl⟩ | ⟨addr, b, -, -, rfl⟩ | ⟨-, rfl⟩ | ⟨-, rfl⟩ :=
    hostAct_cases h
  · obtain ⟨hmap, hports, hpending⟩ := startCall_samePlatform hcall
    exact ⟨hmap, by simpa using hports, hpending⟩
  · exact ⟨rfl, by simp, rfl⟩
  · exact ⟨rfl, rfl, rfl⟩
  · exact ⟨rfl, by simp, rfl⟩
  · exact ⟨rfl, rfl, rfl⟩

/-- A host action on a port or an address that exists answers a next state. -/
theorem exists_next_of_actionPlaced {a : HostAction} {s : State} (h : actionPlaced s a = true) :
    ∃ t, hostAct a s = .next t := by
  cases a with
  | writeCw port w => exact exists_next_writeCw (of_decide_eq_true h) w
  | writeStatus port w => exact ⟨_, hostAct_writeStatus (of_decide_eq_true h) w⟩
  | writeSlot port x v => exact ⟨_, hostAct_writeSlot (of_decide_eq_true h) x v⟩
  | readReg port reg => exact ⟨_, hostAct_readReg (of_decide_eq_true h) reg⟩
  | storeByte addr b => exact ⟨_, if_pos h⟩
  | loadByte addr => exact ⟨_, if_pos h⟩
  | reset => exact ⟨_, rfl⟩

/-- Whether an action is placed does not depend on what is pending. -/
theorem actionPlaced_pending (s : State) (rest : List HostAction) :
    actionPlaced { s with pending := rest } = actionPlaced s := by
  funext a
  cases a <;> rfl

/-- The step of a state with a pending action is that action, on the state from which it is removed (rule R75). -/
theorem step_of_pending {s : State} {a : HostAction} {rest : List HostAction} (h : s.pending = a :: rest) :
    step s = hostAct a { s with pending := rest } := by
  simp only [step, h]

/-- Settles O13: the first pending action is placed, and it keeps the invariant and the platform of the others. -/
theorem runsNeverStop : Obligations.RunsNeverStop := by
  intro s hs hplaced
  suffices h : ∃ t, step s = .next t ∧ pendingPlaced t = true by
    obtain ⟨t, ht, htplaced⟩ := h
    exact ⟨t, ht, stepKeepsInv s t hs ht, htplaced⟩
  cases hpend : s.pending with
  | nil => exact ⟨s, by simp only [step, hpend], hplaced⟩
  | cons a rest =>
    simp only [pendingPlaced, hpend, List.all_cons, Bool.and_eq_true] at hplaced
    obtain ⟨hfirst, hrest⟩ := hplaced
    rw [← actionPlaced_pending s rest] at hfirst hrest
    obtain ⟨t, ht⟩ := exists_next_of_actionPlaced hfirst
    refine ⟨t, (step_of_pending hpend).trans ht, ?_⟩
    rw [(hostAct_samePlatform ht).pendingPlaced_eq, pendingPlaced, hrest]

end Sys2Proof.Machine
end

section
/-! The kinds a call can fail with (rules R321, R323, R328): steps 3 to 5 answer three kinds, the decoders four, and only
FR_INV's function answers one of its own. -/

namespace Sys2Proof.Machine

/-- Every kind that the decoder `dec` answers is one that the table of rule R323 allows the command `i`. -/
def FailsWithin {α : Type} (i : Instr) (dec : Bytes → Except ErrorKind α) : Prop :=
  ∀ b k, dec b = .error k → canProduce i k = true

/-! ### The table of rule R323 -/

theorem hasSource_of_hasPointSource {i : Instr} (h : hasPointSource i = true) : hasSource i = true := by
  cases i with
  | init | frOne | frAdd | frSub | frMul | frInv | frNeg | g1One | g2One => exact nomatch h
  | _ => rfl

theorem ne_init_of_hasSource {i : Instr} (h : hasSource i = true) : i ≠ .init := by
  rintro rfl
  exact nomatch h

/-- The kinds of call steps 3 to 5 (rule R292) are those of every command but INIT. -/
theorem canProduce_of_ne_init {i : Instr} (hi : i ≠ .init) : canProduce i .uninitialized = true ∧
    canProduce i .invalidLength = true ∧ canProduce i .badAddress = true :=
  have h : (i != .init) = true := bne_iff_ne.2 hi
  ⟨h, h, h⟩

/-- The decoders answer this kind too (rule R130). -/
theorem canProduce_invalidLength {i : Instr} (h : hasSource i = true) : canProduce i .invalidLength = true :=
  have ⟨_, hlength, _⟩ := canProduce_of_ne_init (ne_init_of_hasSource h)
  hlength

/-! ### Decoders -/

/-- A test that rejects gives its kind, or decoding goes on. -/
theorem error_of_ite_error {α : Type} {c : Prop} [Decidable c] {k k' : ErrorKind} {o : Except ErrorKind α}
    (h : (if c then .error k' else o) = .error k) : k' = k ∨ o = .error k := by
  split at h
  · exact .inl (Except.error.inj h)
  · exact .inr h

section
variable {i : Instr}

/-- Rule R133. -/
theorem failsWithin_decodeFr (hi : hasSource i = true) : FailsWithin i (decodeFr curveTables) := by
  intro b k h
  obtain rfl | h := error_of_ite_error h
  · exact canProduce_invalidLength hi
  obtain rfl | h := error_of_ite_error h
  · exact hi
  · exact nomatch h

/-- Rules R134 and R135, the tests of both point decoders. -/
theorem canProduce_of_pointTests {F : Type} {w : Nat} {outside nonzero : Prop} [Decidable outside] [Decidable nonzero]
    {curve sub : Bool} {A : Point F} {b : Bytes} {k : ErrorKind} (hi : hasPointSource i = true)
    (h : pointTests w outside nonzero curve sub A b = .error k) : canProduce i k = true := by
  have hsource := hasSource_of_hasPointSource hi
  obtain rfl | h := error_of_ite_error h
  · exact canProduce_invalidLength hsource
  obtain rfl | h := error_of_ite_error h
  · exact hsource
  split at h
  · obtain rfl | h := error_of_ite_error h
    · exact hi
    · exact nomatch h
  · obtain rfl | h := error_of_ite_error h
    · exact hi
    obtain rfl | h := error_of_ite_error h
    · exact hi
    obtain rfl | h := error_of_ite_error h
    · exact hi
    · exact nomatch h

theorem failsWithin_decodeG1 (hi : hasPointSource i = true) : FailsWithin i (decodeG1 curveTables) := fun _ _ h =>
  canProduce_of_pointTests hi ((decodeG1_eq_pointTests rfl rfl).symm.trans h)

theorem failsWithin_decodeG2 (hi : hasPointSource i = true) : FailsWithin i (decodeG2 curveTables) := fun _ _ h =>
  canProduce_of_pointTests hi ((decodeG2_eq_pointTests (x := ⟨_, _⟩) (y := ⟨_, _⟩) rfl rfl rfl rfl).symm.trans h)

section
variable {α β : Type} {decA : Bytes → Except ErrorKind α} {decB : Bytes → Except ErrorKind β}
  (hA : FailsWithin i decA) (hB : FailsWithin i decB) (wA wB : Nat)
include hA hB

/-- The entries of a list fail as their elements do (rule R141). -/
theorem failsWithin_decodeEntries (n : Nat) : FailsWithin i (decodeEntries decA decB wA wB n) := by
  induction n with
  | zero => exact fun _ _ h => nomatch h
  | succ n ih =>
    intro b k h
    rw [decodeEntries] at h
    split at h
    · next ha => exact Except.error.inj h ▸ hA _ _ ha
    split at h
    · next hb => exact Except.error.inj h ▸ hB _ _ hb
    split at h
    · next hrest => exact Except.error.inj h ▸ ih _ _ hrest
    · exact nomatch h

/-- A list adds the tests of its length (rules R112, R141). -/
theorem failsWithin_decodeList (hi : hasSource i = true) : FailsWithin i (decodeList decA decB wA wB) := by
  intro b k h
  obtain rfl | h := error_of_ite_error h
  · exact canProduce_invalidLength hi
  obtain rfl | h := error_of_ite_error h
  · exact canProduce_invalidLength hi
  · exact failsWithin_decodeEntries hA hB wA wB _ _ _ h

end

theorem failsWithin_decodeG1FrList (hi : hasPointSource i = true) : FailsWithin i (decodeG1FrList curveTables) :=
  have hsource := hasSource_of_hasPointSource hi
  failsWithin_decodeList (failsWithin_decodeG1 hi) (failsWithin_decodeFr hsource) _ _ hsource

theorem failsWithin_decodeG2FrList (hi : hasPointSource i = true) : FailsWithin i (decodeG2FrList curveTables) :=
  have hsource := hasSource_of_hasPointSource hi
  failsWithin_decodeList (failsWithin_decodeG2 hi) (failsWithin_decodeFr hsource) _ _ hsource

theorem failsWithin_decodeG1G2List (hi : hasPointSource i = true) : FailsWithin i (decodeG1G2List curveTables) :=
  failsWithin_decodeList (failsWithin_decodeG1 hi) (failsWithin_decodeG2 hi) _ _ (hasSource_of_hasPointSource hi)

/-! ### Engines -/

section
variable {α β γ : Type} {dec decA : Tables → Bytes → Except ErrorKind α} {decB : Tables → Bytes → Except ErrorKind β}
  {enc : γ → Bytes} {T : Tables} {b0 b1 : Bytes} {k : ErrorKind}

theorem canProduce_of_engine1 {f : Tables → α → Except ErrorKind γ} (b0 b1 : Bytes)
    (h : engine1 dec enc f (some T) b0 b1 = .error k) (hdec : FailsWithin i (dec curveTables))
    (hf : ∀ a, f T a = .error k → canProduce i k = true) : canProduce i k = true := by
  obtain h | ⟨a, -, h⟩ := engine1_error T b0 b1 h
  · exact hdec _ _ h
  · exact hf a h

/-- Where the function of two decoded sources has a value, only the decoding can fail. -/
theorem canProduce_of_engine2 {f : Tables → α → β → γ}
    (h : engine2 decA decB enc (fun T a b => .ok (f T a b)) (some T) b0 b1 = .error k)
    (hA : FailsWithin i (decA curveTables)) (hB : FailsWithin i (decB curveTables)) : canProduce i k = true := by
  obtain h | ⟨a, -, h | ⟨b, -, h⟩⟩ := engine2_error T b0 b1 h
  · exact hA _ _ h
  · exact hB _ _ h
  · exact nomatch h

end

end

/-- FR_INV's function has a kind of its own, the only one a function has. -/
theorem canProduce_of_frInverse {T : Tables} {a : Nat} {k : ErrorKind} (h : frInverse T a = .error k) :
    canProduce .frInv k = true := by
  obtain rfl | h := error_of_ite_error h
  · rfl
  · exact nomatch h

/-- Call steps 7 to 9 (rule R292) fail with a kind of rule R323's row, whatever the sources hold. -/
theorem canProduce_of_engineOf {i : Instr} {T : Tables} {b0 b1 : Bytes} {k : ErrorKind}
    (h : engineOf i (some T) b0 b1 = .error k) : canProduce i k = true := by
  cases i with
  | init | frOne | g1One | g2One => exact nomatch h
  | frAdd | frSub | frMul => exact canProduce_of_engine2 h (failsWithin_decodeFr rfl) (failsWithin_decodeFr rfl)
  | frInv => exact canProduce_of_engine1 b0 b1 h (failsWithin_decodeFr rfl) fun _ => canProduce_of_frInverse
  | frNeg => exact canProduce_of_engine1 b0 b1 h (failsWithin_decodeFr rfl) nofun
  | g1Add => exact canProduce_of_engine2 h (failsWithin_decodeG1 rfl) (failsWithin_decodeG1 rfl)
  | g1Neg => exact canProduce_of_engine1 b0 b1 h (failsWithin_decodeG1 rfl) nofun
  | g1Mul => exact canProduce_of_engine2 h (failsWithin_decodeG1 rfl) (failsWithin_decodeFr rfl)
  | g1Msm => exact canProduce_of_engine1 b0 b1 h (failsWithin_decodeG1FrList rfl) nofun
  | g2Add => exact canProduce_of_engine2 h (failsWithin_decodeG2 rfl) (failsWithin_decodeG2 rfl)
  | g2Neg => exact canProduce_of_engine1 b0 b1 h (failsWithin_decodeG2 rfl) nofun
  | g2Mul => exact canProduce_of_engine2 h (failsWithin_decodeG2 rfl) (failsWithin_decodeFr rfl)
  | g2Msm => exact canProduce_of_engine1 b0 b1 h (failsWithin_decodeG2FrList rfl) nofun
  | pairingCheck => exact canProduce_of_engine2 h (failsWithin_decodeG1G2List rfl) (failsWithin_decodeG1G2List rfl)

/-- Settles O21: the kind is that of the first of steps 3 to 5 that fails, or else the engine's, which has its tables. -/
theorem errorKindsPossible : Obligations.ErrorKindsPossible := by
  rintro i s pt k ⟨-, -, htab, -⟩ hi hp h
  obtain ⟨huninit, hlength, haddress⟩ := canProduce_of_ne_init hi
  cases hinit : s.initDone with
  | false => exact Except.error.inj ((commandResult_uninitialized hinit i pt).symm.trans h) ▸ huninit
  | true =>
    cases hlen : lengthsOk (operandsOf i) pt with
    | false => exact Except.error.inj ((commandResult_invalidLength hinit hlen).symm.trans h) ▸ hlength
    | true =>
      cases haddr : addressesOk (operandsOf i) s.map pt with
      | false => exact Except.error.inj ((commandResult_badAddress hinit hlen haddr).symm.trans h) ▸ haddress
      | true =>
        rw [hinit, if_pos rfl] at htab
        rw [commandResult_of_ready ⟨hp, hinit, htab, hlen, haddr⟩] at h
        exact canProduce_of_engineOf h

end Sys2Proof.Machine
end
